-- ==== Sys2Proof/Word.lean ====
section
/-! DEFINITION. The value types of the MyAsm CORE and their plainest constants (00_scope.md R8, R9, R10). -/

namespace Sys2Proof

/-- A word: 32 bits, read as a two's-complement signed integer (R8 `WORD_BITS`, `IWORD_BITS`; R10). -/
abbrev Word := BitVec 32

/-- An instruction address, a call-stack entry or an argument field: 24 bits (R8 `PC_BITS`, `ARG_BITS`). -/
abbrev Addr := BitVec 24

/-- An index into the control store: 6 bits (R8 `MPC_BITS`). -/
abbrev MicroAddr := BitVec 6

/-- A control word as the control store holds it: 24 bits (R8 `CW_BITS`). -/
abbrev ControlBits := BitVec 24

/-- One byte of a launch file (R81, R361). -/
abbrev Byte := BitVec 8

/-- The smallest word, −2^31 (R10). -/
def intMin : Int := -2147483648

/-- The largest word, 2^31 − 1 (R10). -/
def intMax : Int := 2147483647

end Sys2Proof
end

