-- ==== Sys2Proof/Config.lean ====
section
/-! DEFINITION. The parameters that 00_scope.md R8 leaves OPEN. The source gives none of them a value
(91_not_in_source.md), so a launch takes them as an argument and every state carries them; nothing in the model fixes
one, except that `State.reset` stands for one launch and so names one choice (`Params.conventional`). -/

namespace Sys2Proof

/-- `ARITH_OVERFLOW` of R8: what an ALU result outside the signed 32-bit range does (D12). -/
inductive OverflowPolicy where
  /-- The result is taken modulo 2^32 (the default). -/
  | wrap
  /-- The run ends with `Fault(ARITH_OVERFLOW)`. -/
  | fault
  deriving DecidableEq, Repr

/-- The OPEN parameters of R8 (D12, D16, D17). -/
structure Params where
  /-- `STACK_CAP`, an integer ≥ 1: the number of slots of the stack register file. -/
  stackCap : Nat
  /-- `CALL_CAP`, an integer ≥ 1: the number of entries of the call stack. -/
  callCap : Nat
  /-- `DMEM_WORDS`; `none` stands for the default of R8, the number `D` of words in the data image. -/
  dmemWords : Option Nat
  /-- `ARITH_OVERFLOW`. -/
  overflow : OverflowPolicy
  deriving DecidableEq, Repr

/-- The ranges R8 gives the parameters that do not depend on a launch's images. -/
abbrev Params.wf (p : Params) : Prop := 1 ≤ p.stackCap ∧ 1 ≤ p.callCap

/-- DESIGN CHOICE (log entry 1): the capacities that 95_test_vectors.md takes "unless a vector says otherwise", and R8's
defaults for the other two. Only `State.reset` uses it. -/
def Params.conventional : Params :=
  { stackCap := 8, callCap := 4, dmemWords := none, overflow := .wrap }

end Sys2Proof
end

