-- ==== Sys2Proof/Syntax.lean ====
section
/-! DEFINITION. The instructions of the MyAsm ISA (00_scope.md R3, 30_encoding.md R116). -/

namespace Sys2Proof

/-- The closed set of 21 opcodes (R3), one constructor per row of the opcode table, in its order. Every instruction
carries the 24-bit argument field of its word (R110): the fetch tick latches that field into `arg` for every opcode
(R39), also for one whose micro-sequence never reads it (R115). -/
inductive Instr where
  | push (literal : Addr)
  | pop (ignored : Addr)
  | jmp (target : Addr)
  | jz (target : Addr)
  | jnz (target : Addr)
  | js (target : Addr)
  | jns (target : Addr)
  | call (target : Addr)
  | ret (ignored : Addr)
  | input (port : Addr)
  | output (port : Addr)
  | inc (ignored : Addr)
  | dec (ignored : Addr)
  | add (ignored : Addr)
  | sub (ignored : Addr)
  | mul (ignored : Addr)
  | div (ignored : Addr)
  | load (ignored : Addr)
  | store (ignored : Addr)
  | swap (ignored : Addr)
  | hlt (ignored : Addr)
  deriving DecidableEq, Repr

/-- How an opcode reads its argument field (R112 to R115). -/
inductive ArgForm where
  /-- A signed literal or data-label offset, `sext_24` (R112). -/
  | literal
  /-- An instruction address, `zext_24` (R113). -/
  | address
  /-- A port number, `zext_24` (R114). -/
  | port
  /-- No argument: the field is ignored (R115). -/
  | none
  deriving DecidableEq, Repr

/-- The argument field of an instruction's word (R110). -/
def Instr.field : Instr → Addr
  | .push a | .pop a | .jmp a | .jz a | .jnz a | .js a | .jns a | .call a | .ret a | .input a | .output a
  | .inc a | .dec a | .add a | .sub a | .mul a | .div a | .load a | .store a | .swap a | .hlt a => a

/-- The argument form of each instruction (the "argument" column of R116). -/
def Instr.form : Instr → ArgForm
  | .push _ => .literal
  | .jmp _ | .jz _ | .jnz _ | .js _ | .jns _ | .call _ => .address
  | .input _ | .output _ => .port
  | .pop _ | .ret _ | .inc _ | .dec _ | .add _ | .sub _ | .mul _ | .div _ | .load _ | .store _ | .swap _ | .hlt _ => .none

end Sys2Proof
end

