-- ==== Sys2Proof/Machine/State.lean ====
section
/-! DEFINITION. The state of the MyAsm CORE as plain data (10_state.md), the ways a run ends (60_exceptions.md), and the
state right after reset (10_state.md R50). -/

namespace Sys2Proof.Machine

/-- The fault reasons of R321. -/
inductive FaultReason where
  | stackOverflow
  | stackUnderflow
  | callStackOverflow
  | callStackUnderflow
  | badPort
  | dataAddress
  | divByZero
  | arithOverflow
  | unknownOpcode
  | pcRange
  | malformedControlWord
  deriving DecidableEq, Repr

/-- A terminal condition of a tick (R320): what `stop` and `raise` name in R11. -/
inductive Terminal where
  | halted
  | inputExhausted
  | fault (reason : FaultReason)
  deriving DecidableEq, Repr

/-- `status.outcome` (R41). -/
inductive RunOutcome where
  | running
  | halted
  | inputExhausted
  | fault
  deriving DecidableEq, Repr

/-- The status register (R41), as its four fields (DESIGN CHOICE, safe, log entry 9). -/
structure Status where
  /-- `outcome`, 2 bits. -/
  outcome : RunOutcome
  /-- `fault_code`, 4 bits: 0 when the outcome is not a fault, else a code of R321. -/
  faultCode : BitVec 4
  /-- `fault_pc`, 24 bits: `pc` at the start of the tick that ended the run. -/
  faultPc : Addr
  /-- `fault_mpc`, 6 bits: `mpc` at the start of the tick that ended the run. -/
  faultMpc : MicroAddr
  deriving DecidableEq, Repr

/-- `status` after reset (R50). -/
def Status.running : Status := { outcome := .running, faultCode := 0, faultPc := 0, faultMpc := 0 }

/-- Data memory (R46, R85): pairs of a word address and the word there, addresses strictly rising, no pair holding the
word 0, which is what an address without a pair reads as (R361: `dmem[a] <- 0` past the image). -/
abbrev Memory := List (Nat × Word)

/-- The 16 port queues (R88), each oldest entry first, with no capacity limit. -/
abbrev Ports := Vector (List Word) 16

/-- The state of the CORE (R30), and with it what a launch fixes and no tick changes (R48): the program, the size of data
memory and the overflow policy. `STACK_CAP` and `CALL_CAP` are the lengths of the two register files. -/
structure State where
  /-- The program counter, the executing instruction's address (R35). -/
  pc : Addr
  /-- The micro-program counter (R38). -/
  mpc : MicroAddr
  /-- The call-stack pointer, in [−1, `CALL_CAP` − 1]; −1 is empty (R45). -/
  scp : Int
  /-- The number of completed ticks, modulo 2^64 (R40). -/
  tick : BitVec 64
  /-- The argument scratch register (R39). -/
  arg : Addr
  /-- The status register (R41), as its four fields (DESIGN CHOICE, safe, log entry 9). -/
  status : Status
  /-- The stack pointer, in [−1, `STACK_CAP` − 1]; −1 is empty (R31, R32). -/
  sp : Int
  /-- The stack register file; its length is `STACK_CAP` (R31, R33). -/
  stack : List Word
  /-- The top-of-stack scratch register (R42). -/
  tos : Word
  /-- The swap register (R43). -/
  sr : Word
  /-- The ALU result register (R44). -/
  alu : Word
  /-- The call stack; its length is `CALL_CAP` (R45). -/
  cstack : List Addr
  /-- Data memory (R46, R85). -/
  dmem : Memory
  /-- The port queues (R88). -/
  ports : Ports
  /-- The program; its length is `L` (R8, R87). Fixed for a launch (R48, R95). -/
  prog : List Word
  /-- `DMEM_WORDS` (R8). Fixed for a launch. -/
  dmemWords : Nat
  /-- `ARITH_OVERFLOW` (R8). Fixed for a launch. -/
  overflow : OverflowPolicy
  deriving DecidableEq, Repr

/-- `STACK_CAP` (R8). -/
abbrev State.stackCap (s : State) : Nat := s.stack.length

/-- `CALL_CAP` (R8). -/
abbrev State.callCap (s : State) : Nat := s.cstack.length

/-- Why a step does not happen. The spec's own faults are not here: each is a NEXT state whose `status` records it
(R322). -/
inductive Fault where
  /-- No step is enabled: the run has ended, and the CORE takes no further tick until reset (R322, R41). Raised by every
  meaning and by `step` when `status.outcome` is not `RUNNING`. SAFE: the state that ended the run was the last next
  state, and it stays final. -/
  | runEnded
  deriving DecidableEq, Repr

/-- What the model has no meaning for. -/
inductive Refusal where
  /-- An instruction without a meaning. Raised by no arm of `exec` (every instruction has its meaning). SAFE. -/
  | notModelled (mnemonic : String)
  /-- The host's launch is refused: the program file's size is not a multiple of 4 bytes (R361). Raised by `launch`.
  SAFE: a refused launch never starts. -/
  | programFileSize
  /-- The host's launch is refused: the program has more than 2^24 − 1 words (R361). Raised by `launch`. SAFE. -/
  | programTooLong
  /-- The host's launch is refused: the data file's size is not a multiple of 4 bytes (R361). Raised by `launch`. SAFE. -/
  | dataFileSize
  /-- The host's launch is refused: the data image has more words than data memory (R361). Raised by `launch`. SAFE. -/
  | dataTooLarge
  deriving DecidableEq, Repr

/-- What a step or a meaning answers. -/
abbrev Result := Host.Outcome State Fault Refusal

/-- The state right after reset (R50), for a launch with given parameters and decoded images (R361). -/
def State.launched (p : Params) (prog : List Word) (dmem : Memory) (dmemWords : Nat) (input : List Word) : State :=
  { pc := 0
    mpc := 0
    scp := -1
    tick := 0
    arg := 0
    status := .running
    sp := -1
    stack := List.replicate p.stackCap 0
    tos := 0
    sr := 0
    alu := 0
    cstack := List.replicate p.callCap 0
    dmem := dmem
    ports := (Vector.replicate 16 []).set 0 input
    prog := prog
    dmemWords := dmemWords
    overflow := p.overflow }

/-- The machine right after reset (R50) with nothing loaded: an empty program, an empty data image and an empty input,
all three legal (R362). Every field has R50's value; the capacities are those of `Params.conventional` (log entry 1). -/
def State.reset : State := State.launched .conventional [] [] 0 []

end Sys2Proof.Machine
end

