-- ==== Sys2Proof/Machine/Alu.lean ====
section
/-! DEFINITION. The ALU function (42_arith.md R220 to R224). -/

namespace Sys2Proof.Machine

/-- The members of the ALU op group (30_encoding.md R121 `ALU`). -/
inductive AluOp where
  | add
  | sub
  | mul
  | div
  | inc
  | dec
  deriving DecidableEq, Repr

/-- The mathematical result `x` of R220. Division is floor division (R10 `fdiv`, R222) and faults on a zero divisor
(R223). -/
def aluExact (op : AluOp) (l r : Int) : Except Terminal Int :=
  match op with
  | .add => .ok (l + r)
  | .sub => .ok (l - r)
  | .mul => .ok (l * r)
  | .div => if r = 0 then .error (.fault .divByZero) else .ok (l.fdiv r)
  | .inc => .ok (r + 1)
  | .dec => .ok (r - 1)

/-- `s32(x)`: the word congruent to `x` modulo 2^32 (R10). -/
def s32 (x : Int) : Word := BitVec.ofInt 32 x

/-- The word result of R220: the exact result where it is a word; otherwise what `ARITH_OVERFLOW` says (R221). -/
def narrow (policy : OverflowPolicy) (x : Int) : Except Terminal Word :=
  if intMin ≤ x ∧ x ≤ intMax then .ok (s32 x)
  else
    match policy with
    | .wrap => .ok (s32 x)
    | .fault => .error (.fault .arithOverflow)

/-- `ALUop(op, L, R)` of R220. -/
def aluOp (policy : OverflowPolicy) (op : AluOp) (l r : Word) : Except Terminal Word :=
  match aluExact op l.toInt r.toInt with
  | .error t => .error t
  | .ok x => narrow policy x

end Sys2Proof.Machine
end

