-- ==== Sys2Proof/Machine/Flags.lean ====
section
/-! DEFINITION. The CORE has no flag register (10_state.md R36): a conditional branch evaluates its condition on a word in
the tick that resolves it. This file is that evaluation, stage 1 of the program-counter multiplexer (40_microcode.md
R173). -/

namespace Sys2Proof.Machine

/-- The members of the branch-condition group (R121 `COND`). -/
inductive Cond where
  /-- Jump if sign. -/
  | js
  /-- Jump if not sign. -/
  | jns
  /-- Jump if zero. -/
  | jz
  /-- Jump if not zero. -/
  | jnz
  deriving DecidableEq, Repr

/-- Whether a condition takes the jump for a word, read as signed (R36, R173). -/
def Cond.holds (c : Cond) (w : Word) : Bool :=
  match c with
  | .js => decide (w.toInt < 0)
  | .jns => decide (w.toInt ≥ 0)
  | .jz => decide (w.toInt = 0)
  | .jnz => decide (w.toInt ≠ 0)

/-- Stage 1 with no condition asserted falls through (R173: `none -> false`). -/
def takenOn (c : Option Cond) (w : Word) : Bool :=
  match c with
  | none => false
  | some c => c.holds w

end Sys2Proof.Machine
end

