-- ==== Sys2Proof/Machine/Operands.lean ====
section
/-! DEFINITION. The operand forms: the readings of the argument field (30_encoding.md R112 to R114) and of a word as a data
address (20_memory.md R85, R86). -/

namespace Sys2Proof.Machine

/-- The literal of `PUSH`: `sext_24(arg)` as a word (R112). -/
def literalOperand (field : Addr) : Word := field.signExtend 32

/-- The target of a jump, branch or call: `zext_24(arg)`, an instruction address (R113). -/
def targetOperand (field : Addr) : Addr := field

/-- The port number of a port access: `zext_24(arg)` (R114). -/
def portOperand (field : Addr) : Nat := field.toNat

/-- The data-memory address a word names, if it is one of 0 to `DMEM_WORDS` − 1; the word is read as signed, so a
negative word names none (R85, R86). -/
def dataAddress (dmemWords : Nat) (w : Word) : Option Nat :=
  if w.toInt < 0 ∨ w.toInt ≥ dmemWords then none else some w.toNat

end Sys2Proof.Machine
end

