-- ==== Sys2Proof/Machine/Ops.lean ====
section
/-! DEFINITION. The named operations over the CORE's registers, memories and queues: the end of a run (60_exceptions.md),
each access a control signal can make, with its terminal conditions (40_microcode.md section 4), and the micro-steps that
several instructions share. -/

namespace Sys2Proof.Machine

/-! ### The end of a run: the CORE's only exception mechanism (R322, R326, R327, R331) -/

/-- `status.fault_code` of each reason (R321). -/
def FaultReason.code : FaultReason → BitVec 4
  | .stackOverflow => 1
  | .stackUnderflow => 2
  | .callStackOverflow => 3
  | .callStackUnderflow => 4
  | .badPort => 5
  | .dataAddress => 6
  | .divByZero => 7
  | .arithOverflow => 8
  | .unknownOpcode => 9
  | .pcRange => 10
  | .malformedControlWord => 11

/-- The value of `status.outcome` for a terminal condition (R41). -/
def Terminal.outcome : Terminal → RunOutcome
  | .halted => .halted
  | .inputExhausted => .inputExhausted
  | .fault _ => .fault

/-- The value of `status.fault_code` for a terminal condition: 0 unless it is a fault (R41, R326, R327). -/
def Terminal.code : Terminal → BitVec 4
  | .halted => 0
  | .inputExhausted => 0
  | .fault r => r.code

/-- The 2-bit code of an outcome (R41). -/
def RunOutcome.code : RunOutcome → BitVec 2
  | .running => 0
  | .halted => 1
  | .inputExhausted => 2
  | .fault => 3

/-- The run ends in the tick that starts in `s`: only `status` changes, and it records the start-of-tick `pc` and `mpc`
(R322, R326, R327, R329). There is no handler and no return: only a reset leaves the state (R331, R332). -/
def State.endRun (s : State) (t : Terminal) : State :=
  { s with status := { outcome := t.outcome, faultCode := t.code, faultPc := s.pc, faultMpc := s.mpc } }

/-- A CORE whose run goes on (R320 `Continue`). -/
abbrev State.Running (s : State) : Prop := s.status.outcome = .running

/-- The CORE acts only while its run goes on; afterwards no step is enabled (R41, R322). -/
def whileRunning (s : State) (f : State → State) : Result :=
  if s.status.outcome = .running then .next (f s) else .fault .runEnded

/-- Go on with what an access gives, or end the run with its terminal condition (R150). -/
def State.attempt {α : Type} (s : State) (r : Except Terminal α) (k : α → State) : State :=
  match r with
  | .error t => s.endRun t
  | .ok a => k a

/-! ### Data memory as a canonical list of words -/

/-- The word at an address: an address without a pair reads as 0 (R361). -/
def Memory.read : Memory → Nat → Word
  | [], _ => 0
  | (b, v) :: rest, a => if a = b then v else Memory.read rest a

/-- Put a word at an address, keeping the canonical form: writing 0 removes the pair. -/
def Memory.write : Memory → Nat → Word → Memory
  | [], a, v => if v = 0 then [] else [(a, v)]
  | (b, w) :: rest, a, v =>
    if a < b then (if v = 0 then (b, w) :: rest else (a, v) :: (b, w) :: rest)
    else if a = b then (if v = 0 then rest else (a, v) :: rest)
    else (b, w) :: Memory.write rest a v

/-- The memory that holds the listed words from an address on (R361 `LoadData`). -/
def Memory.ofWords : Nat → List Word → Memory
  | _, [] => []
  | a, w :: ws => if w = 0 then Memory.ofWords (a + 1) ws else (a, w) :: Memory.ofWords (a + 1) ws

/-- The canonical form: addresses strictly rising, and no pair equal to what an unlisted address reads as. -/
abbrev Memory.wf (m : Memory) : Prop := m.Pairwise (fun x y => x.1 < y.1) ∧ ∀ c ∈ m, c.2 ≠ 0

/-! ### The accesses of the control signals (R161 to R175), each from the state at the start of its tick

DESIGN CHOICE (log entry 8), for pointers outside the ranges of R30, which no run reaches and to which the spec gives no
meaning: past the end of its file an entry reads as 0 and is not written, and a pointer below −1 reaches entry 0 (`toNat`).
`slot`, `setSlot`, `linked` and `returnAddress` settle it so. -/

/-- `SP = NEXT` (R161). -/
def State.spNext (s : State) : Except Terminal Int :=
  if s.sp = s.stackCap - 1 then .error (.fault .stackOverflow) else .ok (s.sp + 1)

/-- `SP = PREV` (R161). -/
def State.spPrev (s : State) : Except Terminal Int :=
  if s.sp = -1 then .error (.fault .stackUnderflow) else .ok (s.sp - 1)

/-- A read of `stack[sp]` (R33, R163). Outside [−1, `STACK_CAP` − 1] it is the model's choice: 0 at or past `STACK_CAP`,
slot 0 below −1 (DESIGN CHOICE, log entry 8). -/
def State.slot (s : State) : Except Terminal Word :=
  if s.sp = -1 then .error (.fault .stackUnderflow) else .ok (s.stack.getD s.sp.toNat 0)

/-- A write of `stack[sp]` (R33, R163): the new stack register file. Outside [−1, `STACK_CAP` − 1] it is the model's choice:
nothing written at or past `STACK_CAP`, slot 0 below −1 (DESIGN CHOICE, log entry 8). -/
def State.setSlot (s : State) (w : Word) : Except Terminal (List Word) :=
  if s.sp = -1 then .error (.fault .stackUnderflow) else .ok (s.stack.set s.sp.toNat w)

/-- `TOS = PORT`, the arbiter's read (R164, R90, R302): the oldest entry of a port's queue, and the queues without it. -/
def State.portRead (s : State) (p : Nat) : Except Terminal (Word × Ports) :=
  if h : p < 16 then
    match s.ports[p] with
    | [] => .error .inputExhausted
    | v :: queue => .ok (v, s.ports.set p queue)
  else .error (.fault .badPort)

/-- `IOW`, the arbiter's write (R169, R302): the queues with a word appended as a port's newest entry. -/
def State.portWrite (s : State) (p : Nat) (w : Word) : Except Terminal Ports :=
  if h : p < 16 then .ok (s.ports.set p (s.ports[p] ++ [w])) else .error (.fault .badPort)

/-- `TOS = MEM` (R165): the data-memory word a word addresses. -/
def State.dataRead (s : State) (a : Word) : Except Terminal Word :=
  match dataAddress s.dmemWords a with
  | none => .error (.fault .dataAddress)
  | some n => .ok (s.dmem.read n)

/-- `DMW` (R166): data memory with `tos` at the address in the slot. -/
def State.dataWrite (s : State) : Except Terminal Memory :=
  match s.slot with
  | .error t => .error t
  | .ok a =>
    match dataAddress s.dmemWords a with
    | none => .error (.fault .dataAddress)
    | some n => .ok (s.dmem.write n s.tos)

/-- `ALU = op` (R175): a binary operation takes `stack[sp]` on the left and `tos` on the right, `INC` and `DEC` take
`tos` alone. -/
def State.aluResult (s : State) (op : AluOp) : Except Terminal Word :=
  match op with
  | .inc => aluOp s.overflow .inc 0 s.tos
  | .dec => aluOp s.overflow .dec 0 s.tos
  | op =>
    match s.slot with
    | .error t => .error t
    | .ok l => aluOp s.overflow op l s.tos

/-- `CSP = NEXT` (R167). -/
def State.scpNext (s : State) : Except Terminal Int :=
  if s.scp = s.callCap - 1 then .error (.fault .callStackOverflow) else .ok (s.scp + 1)

/-- `CSP = PREV` (R167). -/
def State.scpPrev (s : State) : Except Terminal Int :=
  if s.scp = -1 then .error (.fault .callStackUnderflow) else .ok (s.scp - 1)

/-- `CSL` (R168): the call stack with `pc + 1` in the entry at `scp`. Outside [−1, `CALL_CAP` − 1] it is the model's choice:
nothing written at or past `CALL_CAP`, entry 0 below −1 (DESIGN CHOICE, log entry 8). -/
def State.linked (s : State) : Except Terminal (List Addr) :=
  if s.scp = -1 then .error (.fault .callStackUnderflow) else .ok (s.cstack.set s.scp.toNat (s.pc + 1))

/-- The return-address path of stage 2 (R172): `cstack[scp]`. Outside [−1, `CALL_CAP` − 1] it is the model's choice: 0 at or
past `CALL_CAP`, entry 0 below −1 (DESIGN CHOICE, log entry 8). -/
def State.returnAddress (s : State) : Except Terminal Addr :=
  if s.scp = -1 then .error (.fault .callStackUnderflow) else .ok (s.cstack.getD s.scp.toNat 0)

/-! ### The micro-steps that instructions share, each one tick (R151, R176) -/

/-- The fetch tick of an instruction with an entry point: the argument field is latched, and the lookup selects the
entry point (R170, R174). -/
def State.issue (s : State) (field : Addr) (entry : MicroAddr) : State :=
  { s with arg := field, mpc := entry, tick := s.tick + 1 }

/-- The end of a tick whose word asserts `MPC=NEXT` (R174, R176). -/
def State.toNext (s : State) : State := { s with mpc := s.mpc + 1, tick := s.tick + 1 }

/-- The end of a sequence's last tick: `MPC=ZERO`, and `pc` takes its new value (R153, R174, R176). -/
def State.retire (s : State) (pc : Addr) : State := { s with pc := pc, mpc := 0, tick := s.tick + 1 }

/-- The word `TOS=SLOT MPC=NEXT`. -/
def State.loadTop (s : State) (k : State → State) : State :=
  s.attempt s.slot fun v => k { s with tos := v }.toNext

/-- The word `SP=PREV MPC=NEXT`. -/
def State.lowerTop (s : State) (k : State → State) : State :=
  s.attempt s.spPrev fun sp => k { s with sp := sp }.toNext

/-- The word `ALU=op MPC=NEXT`. -/
def State.compute (s : State) (op : AluOp) (k : State → State) : State :=
  s.attempt (s.aluResult op) fun x => k { s with alu := x }.toNext

/-- The word `TOS=ALU MPC=NEXT`. -/
def State.takeAlu (s : State) (k : State → State) : State := k { s with tos := s.alu }.toNext

/-- The word `SLOT=TOS PCL MPC=ZERO`, the last of every sequence that leaves a result on the stack. -/
def State.storeTop (s : State) : State :=
  s.attempt (s.setSlot s.tos) fun st => { s with stack := st }.retire (s.pc + 1)

/-- A word `PCL COND=c MPC=ZERO`: the argument's address if the condition holds of `tos`, else the next address
(R172, R173). -/
def State.branch (s : State) (c : Cond) : State :=
  s.retire (if c.holds s.tos then targetOperand s.arg else s.pc + 1)

/-! ### The fetch (R87, R170) -/

/-- The program word at `pc`, if `pc` is below `L` (R170). -/
def State.fetch (s : State) : Option Word := s.prog[s.pc.toNat]?

/-- A program that holds a word at an address and, below it, what it held before (a missing word there is 0). -/
def placeWord (prog : List Word) (a : Nat) (w : Word) : List Word :=
  prog.takeD a 0 ++ w :: prog.drop (a + 1)

end Sys2Proof.Machine
end

