-- ==== Sys2Proof/Machine/Arith.lean ====
section
/-! DEFINITION. INC, DEC, ADD, SUB, MUL and DIV (42_arith.md section 2), each as the micro-steps its rule lists. -/

namespace Sys2Proof.Machine

/-- The sequence of `INC` and `DEC` from its entry point (R225, R226). -/
def unary (op : AluOp) (field : Addr) (entry : MicroAddr) (s : State) : State :=
  (s.issue field entry).loadTop fun s => s.compute op fun s => s.takeAlu fun s => s.storeTop

/-- The sequence of a binary operation from its entry point `E` (R227): `op.0` loads `b`, `op.1` lowers the stack pointer,
`op.2` computes from the slot and `tos`, `op.3` and `op.4` put the result back. -/
def binary (op : AluOp) (field : Addr) (entry : MicroAddr) (s : State) : State :=
  (s.issue field entry).loadTop fun s => s.lowerTop fun s => s.compute op fun s => s.takeAlu fun s => s.storeTop

/-- `INC` (R225). -/
def execInc (ignored : Addr) (s : State) : Result := whileRunning s (unary .inc ignored 21)

/-- `DEC` (R226). -/
def execDec (ignored : Addr) (s : State) : Result := whileRunning s (unary .dec ignored 25)

/-- `ADD` (R227). -/
def execAdd (ignored : Addr) (s : State) : Result := whileRunning s (binary .add ignored 29)

/-- `SUB` (R228). -/
def execSub (ignored : Addr) (s : State) : Result := whileRunning s (binary .sub ignored 34)

/-- `MUL` (R229). -/
def execMul (ignored : Addr) (s : State) : Result := whileRunning s (binary .mul ignored 39)

/-- `DIV` (R230). -/
def execDiv (ignored : Addr) (s : State) : Result := whileRunning s (binary .div ignored 44)

end Sys2Proof.Machine
end

