-- ==== Sys2Proof/Machine/Control.lean ====
section
/-! DEFINITION. JMP, JZ, JNZ, JS, JNS, CALL, RET and HLT (44_control.md), each as the micro-steps its rule lists. -/

namespace Sys2Proof.Machine

/-- `JMP` (R270). -/
def execJmp (target : Addr) (s : State) : Result :=
  whileRunning s fun s =>
    let s := s.issue target 4
    s.retire (targetOperand s.arg)

/-- The sequence of a conditional branch from its entry point (R271): the top is read and kept, then tested. -/
def conditional (c : Cond) (target : Addr) (entry : MicroAddr) (s : State) : State :=
  (s.issue target entry).loadTop fun s => s.branch c

/-- `JZ` (R271). -/
def execJz (target : Addr) (s : State) : Result := whileRunning s (conditional .jz target 5)

/-- `JNZ` (R272). -/
def execJnz (target : Addr) (s : State) : Result := whileRunning s (conditional .jnz target 7)

/-- `JS` (R273). -/
def execJs (target : Addr) (s : State) : Result := whileRunning s (conditional .js target 9)

/-- `JNS` (R274). -/
def execJns (target : Addr) (s : State) : Result := whileRunning s (conditional .jns target 11)

/-- `CALL` (R275). -/
def execCall (target : Addr) (s : State) : Result :=
  whileRunning s fun s =>
    let s := s.issue target 13
    s.attempt s.scpNext fun scp =>                                           -- CALL.0: a new entry
    let s := { s with scp := scp }.toNext
    s.attempt s.linked fun cs =>                                             -- CALL.1: link and jump
    { s with cstack := cs }.retire (targetOperand s.arg)

/-- `RET` (R276): `pc` takes its new value in `RET.0`, before the last tick (R157). -/
def execRet (ignored : Addr) (s : State) : Result :=
  whileRunning s fun s =>
    let s := s.issue ignored 15
    s.attempt s.returnAddress fun a =>                                       -- RET.0: pc <- cstack[scp]
    let s := { s with pc := a }.toNext
    s.attempt s.scpPrev fun scp => { s with scp := scp }.retire s.pc         -- RET.1

/-- `HLT` (R277): its fetch tick ends the run, so nothing is latched and no tick is counted (R174, R326, R329). -/
def execHlt (_ignored : Addr) (s : State) : Result :=
  whileRunning s fun s => s.endRun .halted

end Sys2Proof.Machine
end

