-- ==== Sys2Proof/Machine/DataMemory.lean ====
section
/-! DEFINITION. LOAD and STORE (43_memory.md), each as the micro-steps its rule lists. -/

namespace Sys2Proof.Machine

/-- `LOAD` (R250). -/
def execLoad (ignored : Addr) (s : State) : Result :=
  whileRunning s fun s =>
    (s.issue ignored 49).loadTop fun s =>                                    -- LOAD.0: tos <- a
    s.attempt (s.dataRead s.tos) fun v =>                                    -- LOAD.1: tos <- dmem[a]
    { s with tos := v }.toNext.storeTop                                      -- LOAD.2

/-- `STORE` (R251). -/
def execStore (ignored : Addr) (s : State) : Result :=
  whileRunning s fun s =>
    (s.issue ignored 52).loadTop fun s =>                                    -- STORE.0: tos <- v
    s.lowerTop fun s =>                                                      -- STORE.1: down to the address
    s.attempt s.dataWrite fun m => { s with dmem := m }.retire (s.pc + 1)    -- STORE.2: dmem[a] <- v

end Sys2Proof.Machine
end

