-- ==== Sys2Proof/Machine/PortIO.lean ====
section
/-! DEFINITION. INPUT and OUTPUT (45_io.md), each as the micro-steps its rule lists. -/

namespace Sys2Proof.Machine

/-- `INPUT` (R300): in `INPUT.0` the stack-pointer condition comes before the port's (R330). -/
def execInput (port : Addr) (s : State) : Result :=
  whileRunning s fun s =>
    let s := s.issue port 17
    s.attempt s.spNext fun sp =>                                             -- INPUT.0
    s.attempt (s.portRead (portOperand s.arg)) fun r =>
    { s with sp := sp, tos := r.1, ports := r.2 }.toNext.storeTop            -- INPUT.1

/-- `OUTPUT` (R301): in `OUTPUT.1` the stack pointer is lowered and the word appended in one tick. -/
def execOutput (port : Addr) (s : State) : Result :=
  whileRunning s fun s =>
    (s.issue port 19).loadTop fun s =>                                       -- OUTPUT.0
    s.attempt s.spPrev fun sp =>                                             -- OUTPUT.1
    s.attempt (s.portWrite (portOperand s.arg) s.tos) fun ps =>
    { s with sp := sp, ports := ps }.retire (s.pc + 1)

end Sys2Proof.Machine
end

