-- ==== Sys2Proof/Machine/Stack.lean ====
section
/-! DEFINITION. PUSH, POP and SWAP (41_stack.md), each as the micro-steps its rule lists. -/

namespace Sys2Proof.Machine

/-- `PUSH` (R200): `PUSH.0` raises the stack pointer and loads the literal, `PUSH.1` writes the slot. -/
def execPush (literal : Addr) (s : State) : Result :=
  whileRunning s fun s =>
    let s := s.issue literal 1
    s.attempt s.spNext fun sp =>
      { s with sp := sp, tos := literalOperand s.arg }.toNext.storeTop

/-- `POP` (R201): `POP.0` lowers the stack pointer; the discarded slot and `tos` keep their values. -/
def execPop (ignored : Addr) (s : State) : Result :=
  whileRunning s fun s =>
    let s := s.issue ignored 3
    s.attempt s.spPrev fun sp => { s with sp := sp }.retire (s.pc + 1)

/-- `SWAP` (R202), `SWAP.0` to `SWAP.5`. -/
def execSwap (ignored : Addr) (s : State) : Result :=
  whileRunning s fun s =>
    (s.issue ignored 55).loadTop fun s =>                                    -- SWAP.0: tos <- b
    s.attempt s.spPrev fun sp =>                                             -- SWAP.1: sr <- b, down to a
    let s := { s with sp := sp, sr := s.tos }.toNext
    s.loadTop fun s =>                                                       -- SWAP.2: tos <- a
    s.attempt (s.setSlot s.sr) fun st =>                                     -- SWAP.3: b into the lower slot
    let s := { s with stack := st }.toNext
    s.attempt s.spNext fun sp =>                                             -- SWAP.4: back up
    { s with sp := sp }.toNext.storeTop                                      -- SWAP.5: a into the upper slot

end Sys2Proof.Machine
end

