-- ==== Sys2Proof/Machine/Dispatch.lean ====
section
/-! DEFINITION. The meaning of each instruction, one arm per constructor. -/

namespace Sys2Proof.Machine

def exec (i : Instr) (s : State) : Host.Outcome State Fault Refusal :=
  match i with
  | .push a => Sys2Proof.Machine.execPush a s
  | .pop a => Sys2Proof.Machine.execPop a s
  | .jmp a => Sys2Proof.Machine.execJmp a s
  | .jz a => Sys2Proof.Machine.execJz a s
  | .jnz a => Sys2Proof.Machine.execJnz a s
  | .js a => Sys2Proof.Machine.execJs a s
  | .jns a => Sys2Proof.Machine.execJns a s
  | .call a => Sys2Proof.Machine.execCall a s
  | .ret a => Sys2Proof.Machine.execRet a s
  | .input a => Sys2Proof.Machine.execInput a s
  | .output a => Sys2Proof.Machine.execOutput a s
  | .inc a => Sys2Proof.Machine.execInc a s
  | .dec a => Sys2Proof.Machine.execDec a s
  | .add a => Sys2Proof.Machine.execAdd a s
  | .sub a => Sys2Proof.Machine.execSub a s
  | .mul a => Sys2Proof.Machine.execMul a s
  | .div a => Sys2Proof.Machine.execDiv a s
  | .load a => Sys2Proof.Machine.execLoad a s
  | .store a => Sys2Proof.Machine.execStore a s
  | .swap a => Sys2Proof.Machine.execSwap a s
  | .hlt a => Sys2Proof.Machine.execHlt a s

end Sys2Proof.Machine
end

