-- ==== Sys2Proof/WellFormed.lean ====
section
/-! DEFINITION. What the host's toolchain may emit (30_encoding.md R115, R126). The CORE itself executes every
instruction, well-formed or not: a port of 16 or more faults when it is accessed (R114), and a non-zero field of an
argument-less opcode is ignored (R115). -/

namespace Sys2Proof

/-- The values of the argument field that R126 lets the toolchain write for a form. Every 24-bit field is some literal in
[−2^23, 2^23 − 1] and some address in [0, 2^24 − 1], so those two forms admit all of them. -/
def ArgForm.admits : ArgForm → Addr → Bool
  | .literal, _ => true
  | .address, _ => true
  | .port, a => decide (a.toNat ≤ 15)
  | .none, a => a == 0

/-- An instruction the toolchain may emit (R126). -/
def Instr.wellFormed (i : Instr) : Bool := i.form.admits i.field

end Sys2Proof
end

