-- ==== Sys2Proof/Decode.lean ====
section
/-! DEFINITION. The instruction decoder and, after it, the encoder (30_encoding.md R110 to R119, R126). -/

namespace Sys2Proof

/-- `word[31:24]` (R110). -/
def opcodeOf (w : Word) : BitVec 8 := w.extractLsb' 24 8

/-- `word[23:0]` (R110). -/
def fieldOf (w : Word) : Addr := w.extractLsb' 0 24

/-- Why a word is no instruction. -/
inductive DecodeError where
  /-- The opcode is one of 0x15 to 0xFF (R118). -/
  | unknownOpcode (opcode : BitVec 8)
  deriving DecidableEq, Repr

/-- The instruction a program word holds. The opcode values are those of R116; every other value is illegal (R118). -/
def decode (w : Word) : Except DecodeError Instr :=
  match (opcodeOf w).toNat with
  | 0x00 => .ok (.push (fieldOf w))
  | 0x01 => .ok (.pop (fieldOf w))
  | 0x02 => .ok (.jmp (fieldOf w))
  | 0x03 => .ok (.jz (fieldOf w))
  | 0x04 => .ok (.jnz (fieldOf w))
  | 0x05 => .ok (.js (fieldOf w))
  | 0x06 => .ok (.jns (fieldOf w))
  | 0x07 => .ok (.call (fieldOf w))
  | 0x08 => .ok (.ret (fieldOf w))
  | 0x09 => .ok (.input (fieldOf w))
  | 0x0A => .ok (.output (fieldOf w))
  | 0x0B => .ok (.inc (fieldOf w))
  | 0x0C => .ok (.dec (fieldOf w))
  | 0x0D => .ok (.add (fieldOf w))
  | 0x0E => .ok (.sub (fieldOf w))
  | 0x0F => .ok (.mul (fieldOf w))
  | 0x10 => .ok (.div (fieldOf w))
  | 0x11 => .ok (.load (fieldOf w))
  | 0x12 => .ok (.store (fieldOf w))
  | 0x13 => .ok (.swap (fieldOf w))
  | 0x14 => .ok (.hlt (fieldOf w))
  | _ => .error (.unknownOpcode (opcodeOf w))

/-- The opcode value of each instruction (R116, R117). -/
def Instr.opcode : Instr → BitVec 8
  | .push _ => 0x00
  | .pop _ => 0x01
  | .jmp _ => 0x02
  | .jz _ => 0x03
  | .jnz _ => 0x04
  | .js _ => 0x05
  | .jns _ => 0x06
  | .call _ => 0x07
  | .ret _ => 0x08
  | .input _ => 0x09
  | .output _ => 0x0A
  | .inc _ => 0x0B
  | .dec _ => 0x0C
  | .add _ => 0x0D
  | .sub _ => 0x0E
  | .mul _ => 0x0F
  | .div _ => 0x10
  | .load _ => 0x11
  | .store _ => 0x12
  | .swap _ => 0x13
  | .hlt _ => 0x14

/-- The program word of an instruction: its opcode above its argument field (R110, R111). -/
def encode (i : Instr) : Word := i.opcode ++ i.field

/-- The field of an integer argument: the argument modulo 2^24 (R111). -/
def fieldOfArgument (n : Int) : Addr := BitVec.ofInt 24 n

/-- The toolchain's contract for an integer argument of a form (R126): its field, or none where the value has no
encoding and the assembler must reject it. An opcode without an argument is given 0. -/
def encodeArgument (f : ArgForm) (n : Int) : Option Addr :=
  let fits : Bool :=
    match f with
    | .literal => decide (-8388608 ≤ n ∧ n ≤ 8388607)
    | .address => decide (0 ≤ n ∧ n ≤ 16777215)
    | .port => decide (0 ≤ n ∧ n ≤ 15)
    | .none => decide (n = 0)
  if fits then some (fieldOfArgument n) else none

/-- The instruction the decoder reads from the table's bits: the bits at and above `nbits` are 0. A program word is one
unit of program memory (R82), so the whole instruction is one word. -/
def decodeTableWord (nbits w : Nat) : Option Instr :=
  match decode (BitVec.ofNat 32 (w % 2 ^ nbits)) with
  | .ok i => some i
  | .error _ => none

end Sys2Proof
end

