-- ==== Sys2Proof/Machine/Fetch.lean ====
section
/-! DEFINITION. The fetch of a whole instruction (40_microcode.md R170, R174; 30_encoding.md R118). -/

namespace Sys2Proof.Machine

/-- The instruction at `pc`, or the terminal condition of a fetch tick that finds none: an address at or beyond `L`
(R170), or an illegal opcode (R118, R174). -/
def fetchInstr (s : State) : Except Terminal Instr :=
  match s.fetch with
  | none => .error (.fault .pcRange)
  | some w =>
    match decode w with
    | .error _ => .error (.fault .unknownOpcode)
    | .ok i => .ok i

end Sys2Proof.Machine
end

