-- ==== Sys2Proof/Machine/ControlStore.lean ====
section
/-! DEFINITION. The control-word format (30_encoding.md R121, R122), the control store and the opcode to entry-point map
(40_microcode.md R151, R152). -/

namespace Sys2Proof.Machine

/-- The members of the two pointer groups `SP` and `CSP` (R121). -/
inductive Move where
  | next
  | prev
  deriving DecidableEq, Repr

/-- The members of the group `TOS` (R121). -/
inductive TosSource where
  | alu
  | slot
  | sr
  | arg
  | mem
  | port
  deriving DecidableEq, Repr

/-- The members of the group `SLOT` (R121). -/
inductive SlotSource where
  | tos
  | sr
  deriving DecidableEq, Repr

/-- The members of the group `MPC` (R121); one is always selected (R155). -/
inductive MpcSource where
  | zero
  | next
  | opc
  deriving DecidableEq, Repr

/-- The signals a control word asserts, one field per group of R121; `none` and `false` assert nothing (R155). -/
structure Signals where
  sp : Option Move := none
  tos : Option TosSource := none
  dmw : Bool := false
  iow : Bool := false
  srl : Bool := false
  slot : Option SlotSource := none
  alu : Option AluOp := none
  csp : Option Move := none
  csl : Bool := false
  pcl : Bool := false
  jmp : Bool := false
  cond : Option Cond := none
  rta : Bool := false
  mpc : MpcSource
  deriving DecidableEq, Repr

/-- Read a 2-bit pointer field; 3 is reserved (R121 `SP`, `CSP`). -/
def moveField (v : BitVec 2) : Option (Option Move) :=
  match v.toNat with
  | 0 => some none
  | 1 => some (some .next)
  | 2 => some (some .prev)
  | _ => none

/-- Read the `TOS` field; 7 is reserved (R121). -/
def tosField (v : BitVec 3) : Option (Option TosSource) :=
  match v.toNat with
  | 0 => some none
  | 1 => some (some .alu)
  | 2 => some (some .slot)
  | 3 => some (some .sr)
  | 4 => some (some .arg)
  | 5 => some (some .mem)
  | 6 => some (some .port)
  | _ => none

/-- Read the `SLOT` field; 3 is reserved (R121). -/
def slotField (v : BitVec 2) : Option (Option SlotSource) :=
  match v.toNat with
  | 0 => some none
  | 1 => some (some .tos)
  | 2 => some (some .sr)
  | _ => none

/-- Read the `ALU` field; 7 is reserved (R121). -/
def aluField (v : BitVec 3) : Option (Option AluOp) :=
  match v.toNat with
  | 0 => some none
  | 1 => some (some .add)
  | 2 => some (some .sub)
  | 3 => some (some .mul)
  | 4 => some (some .div)
  | 5 => some (some .inc)
  | 6 => some (some .dec)
  | _ => none

/-- Read the `COND` field; 5 to 7 are reserved (R121). -/
def condField (v : BitVec 3) : Option (Option Cond) :=
  match v.toNat with
  | 0 => some none
  | 1 => some (some .js)
  | 2 => some (some .jns)
  | 3 => some (some .jz)
  | 4 => some (some .jnz)
  | _ => none

/-- Read the `MPC` field; 3 is reserved (R121). -/
def mpcField (v : BitVec 2) : Option MpcSource :=
  match v.toNat with
  | 0 => some .zero
  | 1 => some .next
  | 2 => some .opc
  | _ => none

/-- The fields of a control word at the bit positions of R121; none where a field holds a reserved value. -/
def splitFields (w : ControlBits) : Option Signals :=
  match moveField (w.extractLsb' 0 2), tosField (w.extractLsb' 2 3), slotField (w.extractLsb' 8 2),
      aluField (w.extractLsb' 10 3), moveField (w.extractLsb' 13 2), condField (w.extractLsb' 18 3),
      mpcField (w.extractLsb' 22 2) with
  | some sp, some tos, some slot, some alu, some csp, some cond, some mpc =>
    some
      { sp := sp
        tos := tos
        dmw := w.getLsbD 5
        iow := w.getLsbD 6
        srl := w.getLsbD 7
        slot := slot
        alu := alu
        csp := csp
        csl := w.getLsbD 15
        pcl := w.getLsbD 16
        jmp := w.getLsbD 17
        cond := cond
        rta := w.getLsbD 21
        mpc := mpc }
  | _, _, _, _, _, _, _ => none

/-- The combinations R122 forbids: two requests to one interface in a tick (R159), or a request to the program-counter
multiplexer without `PCL`. -/
def Signals.forbidden (g : Signals) : Bool :=
  (decide (g.tos = some .port) && g.iow) || (decide (g.tos = some .mem) && g.dmw) ||
    ((decide (g.cond ≠ none) || g.jmp || g.rta) && !g.pcl)

/-- The signals of a well-formed control word; none for a word that is not well-formed (R122). -/
def decodeControl (w : ControlBits) : Option Signals :=
  match splitFields w with
  | none => none
  | some g => if g.forbidden then none else some g

/-- The control store `CS` (R151): the fetch word, then the micro-sequence of each instruction. -/
def controlStore : List ControlBits :=
  /- FETCH -/ [0x800000] ++
  /- PUSH -/ [0x400011, 0x010100] ++
  /- POP -/ [0x010002] ++
  /- JMP -/ [0x030000] ++
  /- JZ -/ [0x400008, 0x0D0000] ++
  /- JNZ -/ [0x400008, 0x110000] ++
  /- JS -/ [0x400008, 0x050000] ++
  /- JNS -/ [0x400008, 0x090000] ++
  /- CALL -/ [0x402000, 0x038000] ++
  /- RET -/ [0x610000, 0x004000] ++
  /- INPUT -/ [0x400019, 0x010100] ++
  /- OUTPUT -/ [0x400008, 0x010042] ++
  /- INC -/ [0x400008, 0x401400, 0x400004, 0x010100] ++
  /- DEC -/ [0x400008, 0x401800, 0x400004, 0x010100] ++
  /- ADD -/ [0x400008, 0x400002, 0x400400, 0x400004, 0x010100] ++
  /- SUB -/ [0x400008, 0x400002, 0x400800, 0x400004, 0x010100] ++
  /- MUL -/ [0x400008, 0x400002, 0x400C00, 0x400004, 0x010100] ++
  /- DIV -/ [0x400008, 0x400002, 0x401000, 0x400004, 0x010100] ++
  /- LOAD -/ [0x400008, 0x400014, 0x010100] ++
  /- STORE -/ [0x400008, 0x400002, 0x010020] ++
  /- SWAP -/ [0x400008, 0x400082, 0x400008, 0x400200, 0x400001, 0x010100]

/-- The opcode to entry-point map `ENTRY` (R152). `HLT` has no entry point, and neither has an illegal opcode. -/
def entryPoint (opcode : BitVec 8) : Option MicroAddr :=
  match opcode.toNat with
  | 0x00 => some 1
  | 0x01 => some 3
  | 0x02 => some 4
  | 0x03 => some 5
  | 0x04 => some 7
  | 0x05 => some 9
  | 0x06 => some 11
  | 0x07 => some 13
  | 0x08 => some 15
  | 0x09 => some 17
  | 0x0A => some 19
  | 0x0B => some 21
  | 0x0C => some 25
  | 0x0D => some 29
  | 0x0E => some 34
  | 0x0F => some 39
  | 0x10 => some 44
  | 0x11 => some 49
  | 0x12 => some 52
  | 0x13 => some 55
  | _ => none

end Sys2Proof.Machine
end

