-- ==== Sys2Proof/Machine/Tick.lean ====
section
/-! DEFINITION. One tick of the CORE (40_microcode.md R150): the control word at `mpc` is decoded into its signals, every
signal is evaluated on the state at the start of the tick, and all writes are committed together. -/

namespace Sys2Proof.Machine

/-! ### What each signal group writes (R161 to R175), from the start-of-tick state -/

/-- The fetch latch, in every tick with `mpc = 0` (R170): the new `arg`. -/
def fetchLatch (s : State) : Except Terminal Addr :=
  if s.mpc = 0 then
    match s.fetch with
    | none => .error (.fault .pcRange)
    | some w => .ok (fieldOf w)
  else .ok s.arg

/-- `SP` (R161): the new `sp`. -/
def evalSp (s : State) : Option Move → Except Terminal Int
  | none => .ok s.sp
  | some .next => s.spNext
  | some .prev => s.spPrev

/-- `TOS` (R162 to R165): the new `tos`, and the port queues, which only `TOS=PORT` changes. -/
def evalTos (s : State) : Option TosSource → Except Terminal (Word × Ports)
  | none => .ok (s.tos, s.ports)
  | some .alu => .ok (s.alu, s.ports)
  | some .sr => .ok (s.sr, s.ports)
  | some .arg => .ok (literalOperand s.arg, s.ports)
  | some .slot => s.slot.map fun w => (w, s.ports)
  | some .mem => (s.dataRead s.tos).map fun w => (w, s.ports)
  | some .port => s.portRead (portOperand s.arg)

/-- `DMW` (R166): the new data memory. -/
def evalDmw (s : State) (dmw : Bool) : Except Terminal Memory := if dmw then s.dataWrite else .ok s.dmem

/-- `IOW` (R169): the port queues, given those that `TOS` leaves; no well-formed word asserts both (R159). -/
def evalIow (s : State) (iow : Bool) (ports : Ports) : Except Terminal Ports :=
  if iow then s.portWrite (portOperand s.arg) s.tos else .ok ports

/-- `SRL` (R171): the new `sr`. -/
def evalSrl (s : State) (srl : Bool) : Word := if srl then s.tos else s.sr

/-- `SLOT` (R163): the new stack register file. -/
def evalSlot (s : State) : Option SlotSource → Except Terminal (List Word)
  | none => .ok s.stack
  | some .tos => s.setSlot s.tos
  | some .sr => s.setSlot s.sr

/-- `ALU` (R175): the new `alu`. -/
def evalAlu (s : State) : Option AluOp → Except Terminal Word
  | none => .ok s.alu
  | some op => s.aluResult op

/-- `CSP` (R167): the new `scp`. -/
def evalCsp (s : State) : Option Move → Except Terminal Int
  | none => .ok s.scp
  | some .next => s.scpNext
  | some .prev => s.scpPrev

/-- `CSL` (R168): the new call stack. -/
def evalCsl (s : State) (csl : Bool) : Except Terminal (List Addr) := if csl then s.linked else .ok s.cstack

/-- The program-counter multiplexer (R172, R173): stage 1 turns the condition into a jump request; stage 2 takes the jump
target, else the return address if requested, else the next address. The request lives for this tick only (D35). -/
def evalPc (s : State) (g : Signals) : Except Terminal Addr :=
  if g.pcl then
    if g.jmp || takenOn g.cond s.tos then .ok (targetOperand s.arg)
    else if g.rta then s.returnAddress
    else .ok (s.pc + 1)
  else .ok s.pc

/-- The opcode lookup of the fetch tick (R174 `OPC`): `HLT` and the illegal opcodes end the run. -/
def lookup (w : Word) : Except Terminal MicroAddr :=
  if opcodeOf w = 0x14 then .error .halted
  else
    match entryPoint (opcodeOf w) with
    | none => .error (.fault .unknownOpcode)
    | some m => .ok m

/-- The micro-program-counter multiplexer (R174): the new `mpc`. -/
def evalMpc (s : State) : MpcSource → Except Terminal MicroAddr
  | .zero => .ok 0
  | .next => if s.mpc.toNat + 1 > 60 then .error (.fault .malformedControlWord) else .ok (s.mpc + 1)
  | .opc =>
    match s.fetch with
    | none => .error (.fault .pcRange)
    | some w => lookup w

/-! ### The tick -/

/-- The signals of the word at `mpc`; a `mpc` above 60 or a word that is not well-formed ends the run (R150, R38). -/
def currentSignals (s : State) : Except Terminal Signals :=
  match controlStore[s.mpc.toNat]? with
  | none => .error (.fault .malformedControlWord)
  | some w =>
    match decodeControl w with
    | none => .error (.fault .malformedControlWord)
    | some g => .ok g

/-- Evaluate the groups on the start-of-tick state in R150's order, so that the first terminal condition is the one
reported (R330), and commit every write together (R156, R176). -/
def commitSignals (s : State) (g : Signals) : Except Terminal State := do
  let arg ← fetchLatch s
  let sp ← evalSp s g.sp
  let tos ← evalTos s g.tos
  let dmem ← evalDmw s g.dmw
  let ports ← evalIow s g.iow tos.2
  let stack ← evalSlot s g.slot
  let alu ← evalAlu s g.alu
  let scp ← evalCsp s g.csp
  let cstack ← evalCsl s g.csl
  let pc ← evalPc s g
  let mpc ← evalMpc s g.mpc
  return { s with
    arg := arg, sp := sp, tos := tos.1, dmem := dmem, ports := ports, sr := evalSrl s g.srl, stack := stack, alu := alu,
    scp := scp, cstack := cstack, pc := pc, mpc := mpc, tick := s.tick + 1 }

/-- The tick of a CORE whose run goes on (R150): its writes, or the end of the run with none of them (R329). -/
def tickRunning (s : State) : State :=
  match currentSignals s >>= commitSignals s with
  | .error t => s.endRun t
  | .ok s' => s'

/-- One tick, if one is enabled: an ended run takes no further tick (R41, R322). -/
def takeTick (s : State) : Option State := if s.Running then some (tickRunning s) else none

/-- The host gives `n` ticks and stops stepping where the run ends (R336, R380; with a `MAX_TICKS` of R378 as `n`, that
guard). A run stopped by `n` has no outcome: its state is the state after the last tick given. -/
def runTicks : Nat → State → State
  | 0, s => s
  | n + 1, s =>
    match takeTick s with
    | none => s
    | some s' => runTicks n s'

/-! ### The same signals in the order of the source's text -/

/-- The source's reading of a tick: the fetch latch, then every asserted non-PC and non-MPC mutator one after another,
each on the state the one before it left, then `pc` and `mpc` (source §4.4; R160, R383, conflict C4). -/
def sequenceSignals (s : State) (g : Signals) : Except Terminal State := do
  let arg ← fetchLatch s
  let s := { s with arg := arg }
  let sp ← evalSp s g.sp
  let s := { s with sp := sp }
  let tos ← evalTos s g.tos
  let s := { s with tos := tos.1, ports := tos.2 }
  let dmem ← evalDmw s g.dmw
  let s := { s with dmem := dmem }
  let ports ← evalIow s g.iow s.ports
  let s := { s with ports := ports }
  let s := { s with sr := evalSrl s g.srl }
  let stack ← evalSlot s g.slot
  let s := { s with stack := stack }
  let alu ← evalAlu s g.alu
  let s := { s with alu := alu }
  let scp ← evalCsp s g.csp
  let s := { s with scp := scp }
  let cstack ← evalCsl s g.csl
  let s := { s with cstack := cstack }
  let pc ← evalPc s g
  let s := { s with pc := pc }
  let mpc ← evalMpc s g.mpc
  let s := { s with mpc := mpc }
  return { s with tick := s.tick + 1 }

/-- The tick under the source's reading; a terminal condition still commits nothing (R329). -/
def sequentialTick (s : State) : State :=
  match currentSignals s >>= sequenceSignals s with
  | .error t => s.endRun t
  | .ok s' => s'

/-! ### Counts (R116, R381) -/

/-- The ticks an instruction counts when it completes, its fetch tick among them (R381). -/
def tickCount : Instr → Nat
  | .push _ => 3
  | .pop _ => 2
  | .jmp _ => 2
  | .jz _ | .jnz _ | .js _ | .jns _ => 3
  | .call _ => 3
  | .ret _ => 3
  | .input _ => 3
  | .output _ => 3
  | .inc _ | .dec _ => 5
  | .add _ | .sub _ | .mul _ | .div _ => 6
  | .load _ => 4
  | .store _ => 4
  | .swap _ => 7
  | .hlt _ => 0

/-- The ticks the host gives to take an instruction to its end: those it counts, and for `HLT` the one fetch tick, which
ends the run uncounted (R277). -/
def ticksGiven : Instr → Nat
  | .hlt _ => 1
  | i => tickCount i

end Sys2Proof.Machine
end

