-- ==== Sys2Proof/Machine/Step.lean ====
section
/-! DEFINITION. One step of the machine: one instruction, from its fetch tick to its last tick (40_microcode.md R178). -/

namespace Sys2Proof.Machine

/-- One step. At an instruction's start (`mpc = 0`) it is the whole instruction, or the end of the run where the fetch
finds none. Inside a micro-sequence, where no run of whole instructions stands while it goes on, it is one tick (DESIGN
CHOICE, safe, log entry 5). When the run has ended no step is enabled (DEDUCED, safe, log entry 4). -/
def step (s : State) : Host.Outcome State Fault Refusal :=
  if s.status.outcome ≠ .running then .fault .runEnded
  else if s.mpc = 0 then
    match fetchInstr s with
    | .ok i => exec i s
    | .error t => .next (s.endRun t)
  else .next (tickRunning s)

/-- The state whose next step fetches and runs the word `w`: the word stands in program memory at `pc`, and the CORE is
running at an instruction's start. This stands for the host's load, which no tick can do (R361, R380, R95; DESIGN CHOICE, log entry
6). -/
def State.withFetchWord (s : State) (nbits w : Nat) : State :=
  { s with
    prog := placeWord s.prog s.pc.toNat (BitVec.ofNat 32 (w % 2 ^ nbits))
    mpc := 0
    status := .running }

end Sys2Proof.Machine
end

