-- ==== Sys2Proof/Machine/Hazards.lean ====
section
/-! DEFINITION. The read and write sets of the signal groups and the hazard-freedom of a control word (40_microcode.md
R160). -/

namespace Sys2Proof.Machine

/-- The registers and memories the table of R160 names. -/
inductive Element where
  | pc
  | prog
  | arg
  | sp
  | stack
  | tos
  | dmem
  | port
  | sr
  | alu
  | scp
  | cstack
  | mpc
  deriving DecidableEq, Repr

/-- Which side of R160's conditions a group stands on. -/
inductive GroupKind where
  | datapath
  | pc
  | mpc
  deriving DecidableEq, Repr

/-- An asserted group with what it reads and writes. -/
structure Group where
  kind : GroupKind
  reads : List Element
  writes : List Element
  deriving DecidableEq, Repr

/-- R160's row of the `TOS` source. -/
def TosSource.group : TosSource → Group
  | .alu => ⟨.datapath, [.alu], [.tos]⟩
  | .sr => ⟨.datapath, [.sr], [.tos]⟩
  | .arg => ⟨.datapath, [.arg], [.tos]⟩
  | .slot => ⟨.datapath, [.sp, .stack], [.tos]⟩
  | .mem => ⟨.datapath, [.tos, .dmem], [.tos]⟩
  | .port => ⟨.datapath, [.arg, .port], [.tos, .port]⟩

/-- R160's row of the `SLOT` source. -/
def SlotSource.group : SlotSource → Group
  | .tos => ⟨.datapath, [.sp, .tos], [.stack]⟩
  | .sr => ⟨.datapath, [.sp, .sr], [.stack]⟩

/-- R160's row of the `ALU` operation. -/
def AluOp.group : AluOp → Group
  | .inc | .dec => ⟨.datapath, [.tos], [.alu]⟩
  | .add | .sub | .mul | .div => ⟨.datapath, [.sp, .stack, .tos], [.alu]⟩

/-- R160's row of `MPC`. -/
def MpcSource.group : MpcSource → Group
  | .zero => ⟨.mpc, [], [.mpc]⟩
  | .next => ⟨.mpc, [.mpc], [.mpc]⟩
  | .opc => ⟨.mpc, [.pc, .prog], [.mpc]⟩

/-- R160's row of `PC`: what stage 1 and stage 2 read depends on the requests. -/
def Signals.pcGroup (g : Signals) : Group :=
  ⟨.pc,
    .pc :: ((if g.jmp || g.cond.isSome then [.arg] else []) ++ (if g.cond.isSome then [.tos] else []) ++
      (if g.rta then [.scp, .cstack] else [])),
    [.pc]⟩

/-- The groups a word asserts; the fetch latch belongs to the word at `mpc = 0` (R160, R170). -/
def Signals.groups (g : Signals) (isFetch : Bool) : List Group :=
  (if isFetch then [⟨.datapath, [.pc, .prog], [.arg]⟩] else []) ++
  (if g.sp.isSome then [⟨.datapath, [.sp], [.sp]⟩] else []) ++
  (g.tos.map TosSource.group).toList ++
  (if g.dmw then [⟨.datapath, [.sp, .stack, .tos], [.dmem]⟩] else []) ++
  (if g.iow then [⟨.datapath, [.arg, .tos], [.port]⟩] else []) ++
  (if g.srl then [⟨.datapath, [.tos], [.sr]⟩] else []) ++
  (g.slot.map SlotSource.group).toList ++
  (g.alu.map AluOp.group).toList ++
  (if g.csp.isSome then [⟨.datapath, [.scp], [.scp]⟩] else []) ++
  (if g.csl then [⟨.datapath, [.scp, .pc], [.cstack]⟩] else []) ++
  (if g.pcl then [g.pcGroup] else []) ++
  [g.mpc.group]

/-- Two element sets have nothing in common. -/
def apart (xs ys : List Element) : Bool := xs.all fun x => !ys.contains x

/-- What R160 asks of one asserted group `x` against another group `y` of the same word: (a) no common write; (b) a
datapath group reads nothing `y` writes; (c) the PC and MPC groups read nothing a datapath group writes; (d) the MPC group
reads nothing the PC group writes. -/
def Group.safeBeside (x y : Group) : Bool :=
  apart x.writes y.writes &&
    match x.kind, y.kind with
    | .datapath, _ => apart x.reads y.writes
    | .pc, .datapath => apart x.reads y.writes
    | .mpc, .datapath => apart x.reads y.writes
    | .mpc, .pc => apart x.reads y.writes
    | _, _ => true

/-- Every two distinct groups of the list stand safely beside each other, both ways round. -/
def allSafe : List Group → Bool
  | [] => true
  | x :: rest => rest.all (fun y => x.safeBeside y && y.safeBeside x) && allSafe rest

/-- R160 of the word at a control-store address: it is well-formed, and its groups are hazard-free. -/
def hazardFreeAt (m : Nat) : Bool :=
  match controlStore[m]? with
  | none => false
  | some w =>
    match decodeControl w with
    | none => false
    | some g => allSafe (g.groups (m == 0))

end Sys2Proof.Machine
end

