-- ==== Sys2Proof/Machine/Launch.lean ====
section
/-! DEFINITION. The launch: what the host loads while reset is asserted (70_reset_and_hazards.md R361, R363, R380), and
what it reads when the run has ended (R375, R376). -/

namespace Sys2Proof.Machine

/-- A word from its four file bytes, the least significant first (R81, R361). -/
def wordOfBytes (b0 b1 b2 b3 : Byte) : Word := b3 ++ b2 ++ b1 ++ b0

/-- The words of a file; none if its size is not a multiple of 4 bytes (R361). -/
def wordsOfFile : List Byte → Option (List Word)
  | [] => some []
  | b0 :: b1 :: b2 :: b3 :: rest =>
    match wordsOfFile rest with
    | none => none
    | some ws => some (wordOfBytes b0 b1 b2 b3 :: ws)
  | _ => none

/-- The port word of an input character: its code point (R363). -/
def codeOf (c : Char) : Word := BitVec.ofNat 32 c.toNat

/-- A launch from the host's files and parameters: the state after reset with the three images loaded (R50, R361), or the
refusal R361 names. -/
def launch (p : Params) (program data : List Byte) (input : List Char) : Result :=
  match wordsOfFile program with
  | none => .refused .programFileSize
  | some prog =>
    if prog.length > 2 ^ 24 - 1 then .refused .programTooLong
    else
      match wordsOfFile data with
      | none => .refused .dataFileSize
      | some image =>
        let words := p.dmemWords.getD image.length
        if words < image.length then .refused .dataTooLarge
        else .next (State.launched p prog (Memory.ofWords 0 image) words (input.map codeOf))

/-- The words on the designated output port, port 1, oldest first (R375, R376). -/
def outputWords (s : State) : List Word := s.ports[1]

end Sys2Proof.Machine
end

