-- ==== Sys2Proof/Safety.lean ====
section
/-! DEFINITION. The terms in which claims about runs are stated: the CORE's standing invariants, the ends of a run, the
clean entry of a launch, what a program can observe, and the ticks a run walks through. -/

namespace Sys2Proof.Machine

/-- `status` holds what R41 lets it hold: a code only for a fault, and nothing recorded while the run goes on (R50). -/
def Status.Inv (st : Status) : Prop :=
  (st.outcome = .running → st = .running) ∧
  (st.outcome ≠ .fault → st.faultCode = 0) ∧
  (st.outcome = .fault → 1 ≤ st.faultCode.toNat ∧ st.faultCode.toNat ≤ 11)

/-- The invariants of R324 with the ranges R30, R8 and R41 give the state: both pointers inside their files, `mpc` inside
the control store, the program and the parameters in range, data memory canonical and inside its size, `status` legal. -/
structure State.Inv (s : State) : Prop where
  sp_low : -1 ≤ s.sp
  sp_high : s.sp < s.stackCap
  scp_low : -1 ≤ s.scp
  scp_high : s.scp < s.callCap
  mpc_valid : s.mpc.toNat ≤ 60
  stackCap_pos : 1 ≤ s.stackCap
  callCap_pos : 1 ≤ s.callCap
  prog_short : s.prog.length ≤ 2 ^ 24 - 1
  dmem_wf : s.dmem.wf
  dmem_inside : ∀ c ∈ s.dmem, c.1 < s.dmemWords
  status_legal : s.status.Inv

/-- The run has ended (R320). -/
abbrev State.Ended (s : State) : Prop := s.status.outcome ≠ .running

/-- The two successful ends of a run (R328). -/
abbrev State.Succeeded (s : State) : Prop := s.status.outcome = .halted ∨ s.status.outcome = .inputExhausted

/-- The CORE is about to run the fetch tick of `i`: `mpc` is 0 and the word at `pc` is one of `i`. -/
structure State.AboutToFetch (s : State) (i : Instr) : Prop where
  running : s.Running
  atFetch : s.mpc = 0
  word : s.fetch = some (encode i)

/-- The premise `CleanEntry` of R367 of a launched state, with the loaded program, data words and input codes. -/
structure State.CleanEntry (s : State) (prog image input : List Word) : Prop where
  outcome : s.status.outcome = .running
  faultCode : s.status.faultCode = 0
  pc : s.pc = 0
  mpc : s.mpc = 0
  sp : s.sp = -1
  scp : s.scp = -1
  tick : s.tick = 0
  otherPorts : ∀ p : Fin 16, p ≠ 0 → s.ports[p] = []
  inputPort : s.ports[(0 : Fin 16)] = input
  dmem : ∀ a, s.dmem.read a = image.getD a 0
  prog : s.prog = prog
  progShort : s.prog.length ≤ 2 ^ 24 - 1

/-- The operand stack, bottom first: `stack[0..sp]` (R31). -/
def State.operands (s : State) : List Word := s.stack.take (s.sp + 1).toNat

/-- The live return addresses: `cstack[0..scp]` (R45). -/
def State.links (s : State) : List Addr := s.cstack.take (s.scp + 1).toNat

/-- Two states agree on everything but the microarchitectural state of R47: `tos`, `sr`, `alu`, `arg`, the stack slots
above `sp` and the call-stack entries above `scp`. -/
structure State.SameArchitectural (s t : State) : Prop where
  pc : s.pc = t.pc
  mpc : s.mpc = t.mpc
  sp : s.sp = t.sp
  scp : s.scp = t.scp
  tick : s.tick = t.tick
  status : s.status = t.status
  operands : s.operands = t.operands
  stackCap : s.stackCap = t.stackCap
  links : s.links = t.links
  callCap : s.callCap = t.callCap
  dmem : s.dmem = t.dmem
  ports : s.ports = t.ports
  prog : s.prog = t.prog
  dmemWords : s.dmemWords = t.dmemWords
  overflow : s.overflow = t.overflow

/-- The CORE takes one tick at each of the listed control addresses, in order, and is then in `t`. -/
def State.Walks : State → List MicroAddr → State → Prop
  | s, [], t => s = t
  | s, m :: ms, t => s.mpc = m ∧ ∃ u, takeTick s = some u ∧ u.Walks ms t

/-- `status` of a run that a fault ended at `pc` and `mpc` (R322). -/
def faultAt (r : FaultReason) (pc : Addr) (mpc : MicroAddr) : Status :=
  { outcome := .fault, faultCode := r.code, faultPc := pc, faultMpc := mpc }

/-- `exec` of `i` answers the next state `t`, and a CORE about to fetch `i` takes exactly the ticks at the listed control
addresses to reach it: the two levels of description of R178 side by side. -/
def State.Lands (s : State) (i : Instr) (walk : List MicroAddr) (t : State) : Prop :=
  exec i s = .next t ∧ (s.AboutToFetch i → s.Walks walk t)

/-- The pseudocode that R225 and R226 share, with the ALU operation and the entry point `E` of the instruction. -/
def UnaryRule (instr : Addr → Instr) (op : AluOp) (E : MicroAddr) : Prop :=
  ∀ (f : Addr) (s : State), s.Running →
    (s.sp = -1 →
      s.Lands (instr f) [0, E]
        { s with arg := f, mpc := E, tick := s.tick + 1, status := faultAt .stackUnderflow s.pc E }) ∧
    (∀ v, 0 ≤ s.sp → s.stack[s.sp.toNat]? = some v →
      (∀ r, aluOp s.overflow op 0 v = .error (.fault r) →
        s.Lands (instr f) [0, E, E + 1]
          { s with arg := f, tos := v, mpc := E + 1, tick := s.tick + 2, status := faultAt r s.pc (E + 1) }) ∧
      (∀ x, aluOp s.overflow op 0 v = .ok x →
        s.Lands (instr f) [0, E, E + 1, E + 2, E + 3]
          { s with
            arg := f, stack := s.stack.set s.sp.toNat x, tos := x, alu := x, pc := s.pc + 1, mpc := 0,
            tick := s.tick + 5 }))

/-- The pseudocode that R227 shares among ADD, SUB, MUL and DIV, with the operation and the entry point `E`. -/
def BinaryRule (instr : Addr → Instr) (op : AluOp) (E : MicroAddr) : Prop :=
  ∀ (f : Addr) (s : State), s.Running →
    (s.sp = -1 →
      s.Lands (instr f) [0, E]
        { s with arg := f, mpc := E, tick := s.tick + 1, status := faultAt .stackUnderflow s.pc E }) ∧
    (∀ b, s.sp = 0 → s.stack[0]? = some b →
      s.Lands (instr f) [0, E, E + 1, E + 2]
        { s with
          arg := f, tos := b, sp := -1, mpc := E + 2, tick := s.tick + 3,
          status := faultAt .stackUnderflow s.pc (E + 2) }) ∧
    (∀ a b, 1 ≤ s.sp → s.stack[s.sp.toNat - 1]? = some a → s.stack[s.sp.toNat]? = some b →
      (∀ r, aluOp s.overflow op a b = .error (.fault r) →
        s.Lands (instr f) [0, E, E + 1, E + 2]
          { s with
            arg := f, tos := b, sp := s.sp - 1, mpc := E + 2, tick := s.tick + 3,
            status := faultAt r s.pc (E + 2) }) ∧
      (∀ x, aluOp s.overflow op a b = .ok x →
        s.Lands (instr f) [0, E, E + 1, E + 2, E + 3, E + 4]
          { s with
            arg := f, sp := s.sp - 1, stack := s.stack.set (s.sp.toNat - 1) x, tos := x, alu := x, pc := s.pc + 1,
            mpc := 0, tick := s.tick + 6 }))

/-- The pseudocode that R271 shares among JZ, JNZ, JS and JNS, with the condition and the entry point `E`. -/
def ConditionalRule (instr : Addr → Instr) (taken : Int → Prop) (E : MicroAddr) : Prop :=
  ∀ (addr : Addr) (s : State), s.Running →
    (s.sp = -1 →
      s.Lands (instr addr) [0, E]
        { s with arg := addr, mpc := E, tick := s.tick + 1, status := faultAt .stackUnderflow s.pc E }) ∧
    (∀ v, 0 ≤ s.sp → s.stack[s.sp.toNat]? = some v →
      (taken v.toInt →
        s.Lands (instr addr) [0, E, E + 1]
          { s with arg := addr, tos := v, pc := addr, mpc := 0, tick := s.tick + 3 }) ∧
      (¬ taken v.toInt →
        s.Lands (instr addr) [0, E, E + 1]
          { s with arg := addr, tos := v, pc := s.pc + 1, mpc := 0, tick := s.tick + 3 }))

/-- The change of the operand stack's depth when an instruction completes (R34). -/
def depthChange : Instr → Int
  | .push _ | .input _ => 1
  | .pop _ | .output _ => -1
  | .inc _ | .dec _ | .load _ => 0
  | .add _ | .sub _ | .mul _ | .div _ => -1
  | .store _ => -1
  | .swap _ => 0
  | .jz _ | .jnz _ | .js _ | .jns _ => 0
  | .jmp _ | .call _ | .ret _ | .hlt _ => 0

/-- The slots an instruction's micro-sequence may write, from `sp` at its start (R33; the `SLOT` words of R151). -/
def writtenSlots : Instr → Int → List Int
  | .push _, sp | .input _, sp => [sp + 1]
  | .inc _, sp | .dec _, sp | .load _, sp => [sp]
  | .add _, sp | .sub _, sp | .mul _, sp | .div _, sp => [sp - 1]
  | .swap _, sp => [sp - 1, sp]
  | .pop _, _ | .output _, _ | .store _, _ | .jmp _, _ | .jz _, _ | .jnz _, _ | .js _, _ | .jns _, _ | .call _, _
  | .ret _, _ | .hlt _, _ => []

/-- The terminal conditions an instruction's own ticks can meet (R321's "instructions" column, R326, R327). -/
def terminals : Instr → List Terminal
  | .push _ => [.fault .stackOverflow]
  | .pop _ | .swap _ => [.fault .stackUnderflow]
  | .jmp _ => []
  | .jz _ | .jnz _ | .js _ | .jns _ => [.fault .stackUnderflow]
  | .call _ => [.fault .callStackOverflow]
  | .ret _ => [.fault .callStackUnderflow]
  | .input _ => [.fault .stackOverflow, .fault .badPort, .inputExhausted]
  | .output _ => [.fault .stackUnderflow, .fault .badPort]
  | .inc _ | .dec _ | .add _ | .sub _ | .mul _ => [.fault .stackUnderflow, .fault .arithOverflow]
  | .div _ => [.fault .stackUnderflow, .fault .divByZero, .fault .arithOverflow]
  | .load _ | .store _ => [.fault .stackUnderflow, .fault .dataAddress]
  | .hlt _ => [.halted]

end Sys2Proof.Machine
end

