-- ==== Sys2Proof/Certificates/Slice0/Obligations.lean ====
section
/-! DEFINITION. The statements about the model, for the provers. Each docstring names the rule of spec/ it rests on. -/

open Sys2Proof Sys2Proof.Machine

/-- Decode and encode agree for every instruction and every value of its field (R110, R116). -/
def Obligations.DecodeOfEncode : Prop :=
  ∀ i : Instr, decode (encode i) = .ok i

/-- Each word has at most one meaning and each meaning one word (R110: the word is the whole instruction). -/
def Obligations.EncodeOfDecode : Prop :=
  ∀ (w : Word) (i : Instr), decode w = .ok i → encode i = w

/-- R111 in arithmetic: the word as a number, for any integer argument, and the two fields of any word as quotient and remainder. -/
def Obligations.EncodingArithmetic : Prop :=
  (∀ (i : Instr) (n : Int), i.field = fieldOfArgument n →
      (encode i).toNat = (i.opcode.toNat <<< 24) ||| (n % 2 ^ 24).toNat) ∧
    (∀ n : Int, ∀ a, encodeArgument .none n = some a → a = 0) ∧
    (∀ w : Word, (opcodeOf w).toNat = w.toNat / 2 ^ 24 ∧ (fieldOf w).toNat = w.toNat % 2 ^ 24)

/-- R126's ranges are exactly the encodable ones, and R112 to R114's readings undo the encoding. -/
def Obligations.ToolchainArgumentRanges : Prop :=
  (∀ n : Int, (-8388608 ≤ n ∧ n ≤ 8388607 ↔ ∃ a, encodeArgument .literal n = some a) ∧
      ∀ a, encodeArgument .literal n = some a → (Machine.literalOperand a).toInt = n) ∧
    (∀ n : Int, (0 ≤ n ∧ n ≤ 16777215 ↔ ∃ a, encodeArgument .address n = some a) ∧
      ∀ a, encodeArgument .address n = some a → ((Machine.targetOperand a).toNat : Int) = n) ∧
    (∀ n : Int, (0 ≤ n ∧ n ≤ 15 ↔ ∃ a, encodeArgument .port n = some a) ∧
      ∀ a, encodeArgument .port n = some a → (Machine.portOperand a : Int) = n) ∧
    (∀ n : Int, ∀ a, encodeArgument .none n = some a ↔ n = 0 ∧ a = 0)

/-- The words of 95_test_vectors.md section 2.1 (N1 to N13, in order), read by the decoder, with the
literals of N1 to N5 (R112). A sanity statement on fixed words. -/
def Obligations.SampleWordsDecode : Prop :=
  decode 0x00000048 = .ok (.push 72) ∧ Machine.literalOperand 72 = 72 ∧
    decode 0x00FFFFFF = .ok (.push 0xFFFFFF) ∧ Machine.literalOperand 0xFFFFFF = -1 ∧
    decode 0x00FFFFFE = .ok (.push 0xFFFFFE) ∧ Machine.literalOperand 0xFFFFFE = -2 ∧
    decode 0x007FFFFF = .ok (.push 0x7FFFFF) ∧ Machine.literalOperand 0x7FFFFF = 8388607 ∧
    decode 0x00800000 = .ok (.push 0x800000) ∧ Machine.literalOperand 0x800000 = -8388608 ∧
    decode 0x0300000D = .ok (.jz 13) ∧ decode 0x0700000C = .ok (.call 12) ∧
    decode 0x09000000 = .ok (.input 0) ∧ decode 0x0A00000F = .ok (.output 15) ∧
    decode 0x14000000 = .ok (.hlt 0) ∧ decode 0x0100002A = .ok (.pop 0x2A) ∧
    decode 0x15000000 = .error (.unknownOpcode 0x15) ∧ decode 0xFF123456 = .error (.unknownOpcode 0xFF)

/-- The per-instruction statements reach a run through this one: `step` adds nothing around `exec` (R178). -/
def Obligations.StepRunsTheDecodedInstruction : Prop :=
  ∀ (s : State) (w : Word) (i : Instr), s.Running → s.mpc = 0 → s.prog[s.pc.toNat]? = some w → decode w = .ok i →
    step s = exec i s

/-- `withFetchWord` does what its name says (log entry 6: the model's stand-in for the load of R361), address by
address of the new program. -/
def Obligations.PlacedWordRuns : Prop :=
  ∀ (s : State) (w : Word) (i : Instr), decode w = .ok i →
    step (s.withFetchWord 32 w.toNat) = exec i (s.withFetchWord 32 w.toNat) ∧
    (s.withFetchWord 32 w.toNat).prog[s.pc.toNat]? = some w ∧
    (∀ a, a < s.prog.length → a ≠ s.pc.toNat → (s.withFetchWord 32 w.toNat).prog[a]? = s.prog[a]?) ∧
    (∀ a, s.prog.length ≤ a → a < s.pc.toNat → (s.withFetchWord 32 w.toNat).prog[a]? = some 0) ∧
    (∀ a, s.prog.length ≤ a → s.pc.toNat < a → (s.withFetchWord 32 w.toNat).prog[a]? = none) ∧
    s.withFetchWord 32 w.toNat =
      { s with prog := (s.withFetchWord 32 w.toNat).prog, mpc := 0, status := .running }

/-- R87 and R170's fault, at both levels. -/
def Obligations.FetchBeyondProgramFaults : Prop :=
  ∀ s : State, s.Running → s.mpc = 0 → s.prog.length ≤ s.pc.toNat →
    step s = .next { s with status := faultAt .pcRange s.pc 0 } ∧
    takeTick s = some { s with status := faultAt .pcRange s.pc 0 }

/-- R118, at both levels of R178. -/
def Obligations.IllegalOpcodeFaults : Prop :=
  ∀ (s : State) (w : Word), 0x15 ≤ (opcodeOf w).toNat →
    decode w = .error (.unknownOpcode (opcodeOf w)) ∧ entryPoint (opcodeOf w) = none ∧
    (s.Running → s.mpc = 0 → s.fetch = some w →
      step s = .next { s with status := faultAt .unknownOpcode s.pc 0 } ∧
      takeTick s = some { s with status := faultAt .unknownOpcode s.pc 0 })

/-- R35: `pc + 1` always fits in 24 bits, because of the bound of R8 on L. -/
def Obligations.FetchedPcNeverWraps : Prop :=
  ∀ (s : State) (w : Word), s.Inv → s.fetch = some w →
    s.pc.toNat ≤ 2 ^ 24 - 2 ∧ (s.pc + 1).toNat = s.pc.toNat + 1

/-- R200 whole: operand, encoding, micro-sequence, pseudocode, fault and the state it leaves. -/
def Obligations.PushRule : Prop :=
  ∀ (v : Int) (s : State), -8388608 ≤ v → v ≤ 8388607 → s.Running →
    encode (.push (fieldOfArgument v)) = (0x00#8 ++ fieldOfArgument v : Word) ∧ (s32 v).toInt = v ∧
    (s.sp = s.stackCap - 1 →
      s.Lands (.push (fieldOfArgument v)) [0, 1]
        { s with
          arg := fieldOfArgument v, mpc := 1, tick := s.tick + 1, status := faultAt .stackOverflow s.pc 1 }) ∧
    (-1 ≤ s.sp → s.sp < s.stackCap - 1 →
      s.Lands (.push (fieldOfArgument v)) [0, 1, 2]
        { s with
          arg := fieldOfArgument v, sp := s.sp + 1, stack := s.stack.set (s.sp + 1).toNat (s32 v), tos := s32 v,
          pc := s.pc + 1, mpc := 0, tick := s.tick + 3 })

/-- R201 whole. -/
def Obligations.PopRule : Prop :=
  ∀ (f : Addr) (s : State), s.Running →
    encode (.pop f) = (0x01#8 ++ f : Word) ∧
    (s.sp = -1 →
      s.Lands (.pop f) [0, 3]
        { s with arg := f, mpc := 3, tick := s.tick + 1, status := faultAt .stackUnderflow s.pc 3 }) ∧
    (0 ≤ s.sp →
      s.Lands (.pop f) [0, 3] { s with arg := f, sp := s.sp - 1, pc := s.pc + 1, mpc := 0, tick := s.tick + 2 })

/-- R202 whole. -/
def Obligations.SwapRule : Prop :=
  ∀ (f : Addr) (s : State), s.Running →
    encode (.swap f) = (0x13#8 ++ f : Word) ∧
    (s.sp = -1 →
      s.Lands (.swap f) [0, 55]
        { s with arg := f, mpc := 55, tick := s.tick + 1, status := faultAt .stackUnderflow s.pc 55 }) ∧
    (∀ b, s.sp = 0 → s.stack[0]? = some b →
      s.Lands (.swap f) [0, 55, 56, 57]
        { s with
          arg := f, tos := b, sr := b, sp := -1, mpc := 57, tick := s.tick + 3,
          status := faultAt .stackUnderflow s.pc 57 }) ∧
    (∀ a b, 1 ≤ s.sp → s.stack[s.sp.toNat - 1]? = some a → s.stack[s.sp.toNat]? = some b →
      s.Lands (.swap f) [0, 55, 56, 57, 58, 59, 60]
        { s with
          arg := f, stack := (s.stack.set (s.sp.toNat - 1) b).set s.sp.toNat a, tos := a, sr := b, pc := s.pc + 1,
          mpc := 0, tick := s.tick + 7 })

/-- R225 whole: the pseudocode (`UnaryRule`), and what ALUop(INC, 0, v) is. -/
def Obligations.IncRule : Prop :=
  (∀ f, encode (.inc f) = (0x0B#8 ++ f : Word)) ∧ UnaryRule .inc .inc 21 ∧
    (∀ v : Word, aluOp .wrap .inc 0 v = .ok (v + 1)) ∧
    (∀ v : Word, v.toInt = intMax → aluOp .fault .inc 0 v = .error (.fault .arithOverflow)) ∧
    (∀ v : Word, v.toInt ≠ intMax → aluOp .fault .inc 0 v = .ok (v + 1))

/-- R226 whole: the pseudocode (`UnaryRule`), and what ALUop(DEC, 0, v) is. -/
def Obligations.DecRule : Prop :=
  (∀ f, encode (.dec f) = (0x0C#8 ++ f : Word)) ∧ UnaryRule .dec .dec 25 ∧
    (∀ v : Word, aluOp .wrap .dec 0 v = .ok (v - 1)) ∧
    (∀ v : Word, v.toInt = intMin → aluOp .fault .dec 0 v = .error (.fault .arithOverflow)) ∧
    (∀ v : Word, v.toInt ≠ intMin → aluOp .fault .dec 0 v = .ok (v - 1))

/-- R227 whole: the pseudocode (`BinaryRule`), and what ALUop(ADD, a, b) is. -/
def Obligations.AddRule : Prop :=
  (∀ f, encode (.add f) = (0x0D#8 ++ f : Word)) ∧ BinaryRule .add .add 29 ∧
    (∀ a b : Word, aluOp .wrap .add a b = .ok (a + b)) ∧
    (∀ a b : Word, (a.toInt + b.toInt < intMin ∨ intMax < a.toInt + b.toInt) →
      aluOp .fault .add a b = .error (.fault .arithOverflow)) ∧
    (∀ a b : Word, intMin ≤ a.toInt + b.toInt → a.toInt + b.toInt ≤ intMax →
      aluOp .fault .add a b = .ok (a + b) ∧ (a + b : Word).toInt = a.toInt + b.toInt)

/-- R228 whole: the pseudocode (`BinaryRule`), and what ALUop(SUB, a, b) is. -/
def Obligations.SubRule : Prop :=
  (∀ f, encode (.sub f) = (0x0E#8 ++ f : Word)) ∧ BinaryRule .sub .sub 34 ∧
    (∀ a b : Word, aluOp .wrap .sub a b = .ok (a - b)) ∧
    (∀ a b : Word, (a.toInt - b.toInt < intMin ∨ intMax < a.toInt - b.toInt) →
      aluOp .fault .sub a b = .error (.fault .arithOverflow)) ∧
    (∀ a b : Word, intMin ≤ a.toInt - b.toInt → a.toInt - b.toInt ≤ intMax →
      aluOp .fault .sub a b = .ok (a - b) ∧ (a - b : Word).toInt = a.toInt - b.toInt)

/-- R229 whole: the pseudocode (`BinaryRule`), and what ALUop(MUL, a, b) is. -/
def Obligations.MulRule : Prop :=
  (∀ f, encode (.mul f) = (0x0F#8 ++ f : Word)) ∧ BinaryRule .mul .mul 39 ∧
    (∀ a b : Word, aluOp .wrap .mul a b = .ok (a * b)) ∧
    (∀ a b : Word, (a.toInt * b.toInt < intMin ∨ intMax < a.toInt * b.toInt) →
      aluOp .fault .mul a b = .error (.fault .arithOverflow)) ∧
    (∀ a b : Word, intMin ≤ a.toInt * b.toInt → a.toInt * b.toInt ≤ intMax →
      aluOp .fault .mul a b = .ok (a * b) ∧ (a * b : Word).toInt = a.toInt * b.toInt)

/-- R230 and R223 whole: the pseudocode (`BinaryRule`), and what ALUop(DIV, a, b) is. -/
def Obligations.DivRule : Prop :=
  (∀ f, encode (.div f) = (0x10#8 ++ f : Word)) ∧ BinaryRule .div .div 44 ∧
    (∀ (p : OverflowPolicy) (a b : Word), b = 0 → aluOp p .div a b = .error (.fault .divByZero)) ∧
    (∀ a b : Word, a.toInt = intMin → b.toInt = -1 →
      aluOp .wrap .div a b = .ok a ∧ aluOp .fault .div a b = .error (.fault .arithOverflow)) ∧
    (∀ (p : OverflowPolicy) (a b : Word), b ≠ 0 → ¬(a.toInt = intMin ∧ b.toInt = -1) →
      ∃ q, aluOp p .div a b = .ok q ∧ q.toInt = ⌊(a.toInt : ℚ) / (b.toInt : ℚ)⌋)

/-- R250 whole. -/
def Obligations.LoadRule : Prop :=
  ∀ (f : Addr) (s : State), s.Running →
    encode (.load f) = (0x11#8 ++ f : Word) ∧
    (s.sp = -1 →
      s.Lands (.load f) [0, 49]
        { s with arg := f, mpc := 49, tick := s.tick + 1, status := faultAt .stackUnderflow s.pc 49 }) ∧
    (∀ a, 0 ≤ s.sp → s.stack[s.sp.toNat]? = some a →
      (a.toInt < 0 ∨ a.toInt ≥ s.dmemWords →
        s.Lands (.load f) [0, 49, 50]
          { s with
            arg := f, tos := a, mpc := 50, tick := s.tick + 2, status := faultAt .dataAddress s.pc 50 }) ∧
      (0 ≤ a.toInt → a.toInt < s.dmemWords →
        s.Lands (.load f) [0, 49, 50, 51]
          { s with
            arg := f, stack := s.stack.set s.sp.toNat (s.dmem.read a.toInt.toNat), tos := s.dmem.read a.toInt.toNat,
            pc := s.pc + 1, mpc := 0, tick := s.tick + 4 }))

/-- R251 whole, with the frame of data memory through `Memory.read` at the address the entry beneath the top gives. -/
def Obligations.StoreRule : Prop :=
  ∀ (f : Addr) (s : State), s.Running →
    encode (.store f) = (0x12#8 ++ f : Word) ∧
    (s.sp = -1 →
      s.Lands (.store f) [0, 52]
        { s with arg := f, mpc := 52, tick := s.tick + 1, status := faultAt .stackUnderflow s.pc 52 }) ∧
    (∀ v, s.sp = 0 → s.stack[0]? = some v →
      s.Lands (.store f) [0, 52, 53, 54]
        { s with
          arg := f, tos := v, sp := -1, mpc := 54, tick := s.tick + 3,
          status := faultAt .stackUnderflow s.pc 54 }) ∧
    (∀ a v, 1 ≤ s.sp → s.stack[s.sp.toNat - 1]? = some a → s.stack[s.sp.toNat]? = some v →
      (a.toInt < 0 ∨ a.toInt ≥ s.dmemWords →
        s.Lands (.store f) [0, 52, 53, 54]
          { s with
            arg := f, tos := v, sp := s.sp - 1, mpc := 54, tick := s.tick + 3,
            status := faultAt .dataAddress s.pc 54 }) ∧
      (0 ≤ a.toInt → a.toInt < s.dmemWords →
        s.Lands (.store f) [0, 52, 53, 54]
          { s with
            arg := f, sp := s.sp - 1, dmem := s.dmem.write a.toInt.toNat v, tos := v, pc := s.pc + 1, mpc := 0,
            tick := s.tick + 4 } ∧
        (s.dmem.wf → ∀ n,
          (s.dmem.write a.toInt.toNat v).read n = if n = a.toInt.toNat then v else s.dmem.read n)))

/-- R270 whole. -/
def Obligations.JmpRule : Prop :=
  ∀ (addr : Addr) (s : State), s.Running →
    encode (.jmp addr) = (0x02#8 ++ addr : Word) ∧
    s.Lands (.jmp addr) [0, 4] { s with arg := addr, pc := addr, mpc := 0, tick := s.tick + 2 } ∧
    (s.prog.length ≤ addr.toNat →
      step { s with arg := addr, pc := addr, mpc := 0, tick := s.tick + 2 } =
        .next { s with
          arg := addr, pc := addr, mpc := 0, tick := s.tick + 2, status := faultAt .pcRange addr 0 })

/-- R271 whole: the pseudocode (`ConditionalRule`) with its condition. -/
def Obligations.JzRule : Prop :=
  (∀ addr, encode (.jz addr) = (0x03#8 ++ addr : Word)) ∧ ConditionalRule .jz (fun v => v = 0) 5

/-- R272 whole: the pseudocode (`ConditionalRule`) with its condition. -/
def Obligations.JnzRule : Prop :=
  (∀ addr, encode (.jnz addr) = (0x04#8 ++ addr : Word)) ∧ ConditionalRule .jnz (fun v => v ≠ 0) 7

/-- R273 whole: the pseudocode (`ConditionalRule`) with its condition. -/
def Obligations.JsRule : Prop :=
  (∀ addr, encode (.js addr) = (0x05#8 ++ addr : Word)) ∧ ConditionalRule .js (fun v => v < 0) 9

/-- R274 whole: the pseudocode (`ConditionalRule`) with its condition. -/
def Obligations.JnsRule : Prop :=
  (∀ addr, encode (.jns addr) = (0x06#8 ++ addr : Word)) ∧ ConditionalRule .jns (fun v => v ≥ 0) 11

/-- R275 whole. -/
def Obligations.CallRule : Prop :=
  ∀ (addr : Addr) (s : State), s.Running →
    encode (.call addr) = (0x07#8 ++ addr : Word) ∧
    (s.scp = s.callCap - 1 →
      s.Lands (.call addr) [0, 13]
        { s with arg := addr, mpc := 13, tick := s.tick + 1, status := faultAt .callStackOverflow s.pc 13 }) ∧
    (-1 ≤ s.scp → s.scp < s.callCap - 1 →
      s.Lands (.call addr) [0, 13, 14]
        { s with
          arg := addr, scp := s.scp + 1, cstack := s.cstack.set (s.scp + 1).toNat (s.pc + 1), pc := addr, mpc := 0,
          tick := s.tick + 3 })

/-- R276 whole. -/
def Obligations.RetRule : Prop :=
  ∀ (f : Addr) (s : State), s.Running →
    encode (.ret f) = (0x08#8 ++ f : Word) ∧
    (s.scp = -1 →
      s.Lands (.ret f) [0, 15]
        { s with arg := f, mpc := 15, tick := s.tick + 1, status := faultAt .callStackUnderflow s.pc 15 }) ∧
    (∀ r, 0 ≤ s.scp → s.cstack[s.scp.toNat]? = some r →
      s.Lands (.ret f) [0, 15, 16]
        { s with arg := f, pc := r, scp := s.scp - 1, mpc := 0, tick := s.tick + 3 })

/-- R277 whole. That no instruction after it is executed is said without naming the stop, whose form is the model's
(`EndedRunTakesNoFurtherTick`, log entry 4). -/
def Obligations.HltRule : Prop :=
  ∀ (f : Addr) (s : State), s.Running → s.mpc = 0 →
    encode (.hlt f) = (0x14#8 ++ f : Word) ∧
    (let t := { s with status := { outcome := .halted, faultCode := 0, faultPc := s.pc, faultMpc := 0 } }
     s.Lands (.hlt f) [0] t ∧ ∀ u, takeTick t ≠ some u ∧ step t ≠ .next u ∧ ∀ i, exec i t ≠ .next u) ∧
    (s.prog.length ≤ s.pc.toNat → step s = .next { s with status := faultAt .pcRange s.pc 0 })

/-- R300 whole, with the order of R330 inside INPUT.0. -/
def Obligations.InputRule : Prop :=
  ∀ (f : Addr) (s : State), s.Running →
    encode (.input f) = (0x09#8 ++ f : Word) ∧
    (s.sp = s.stackCap - 1 →
      s.Lands (.input f) [0, 17]
        { s with arg := f, mpc := 17, tick := s.tick + 1, status := faultAt .stackOverflow s.pc 17 }) ∧
    (-1 ≤ s.sp → s.sp < s.stackCap - 1 →
      (16 ≤ f.toNat →
        s.Lands (.input f) [0, 17]
          { s with arg := f, mpc := 17, tick := s.tick + 1, status := faultAt .badPort s.pc 17 }) ∧
      (∀ h : f.toNat < 16,
        (s.ports[f.toNat] = [] →
          s.Lands (.input f) [0, 17]
            { s with
              arg := f, mpc := 17, tick := s.tick + 1,
              status := { outcome := .inputExhausted, faultCode := 0, faultPc := s.pc, faultMpc := 17 } }) ∧
        (∀ v q, s.ports[f.toNat] = v :: q →
          s.Lands (.input f) [0, 17, 18]
            { s with
              arg := f, sp := s.sp + 1, stack := s.stack.set (s.sp + 1).toNat v, tos := v,
              ports := s.ports.set f.toNat q, pc := s.pc + 1, mpc := 0, tick := s.tick + 3 })))

/-- R301 whole. -/
def Obligations.OutputRule : Prop :=
  ∀ (f : Addr) (s : State), s.Running →
    encode (.output f) = (0x0A#8 ++ f : Word) ∧
    (s.sp = -1 →
      s.Lands (.output f) [0, 19]
        { s with arg := f, mpc := 19, tick := s.tick + 1, status := faultAt .stackUnderflow s.pc 19 }) ∧
    (∀ v, 0 ≤ s.sp → s.stack[s.sp.toNat]? = some v →
      (16 ≤ f.toNat →
        s.Lands (.output f) [0, 19, 20]
          { s with arg := f, tos := v, mpc := 20, tick := s.tick + 2, status := faultAt .badPort s.pc 20 }) ∧
      (∀ h : f.toNat < 16,
        s.Lands (.output f) [0, 19, 20]
          { s with
            arg := f, sp := s.sp - 1, tos := v, ports := s.ports.set f.toNat (s.ports[f.toNat] ++ [v]),
            pc := s.pc + 1, mpc := 0, tick := s.tick + 3 }))

/-- R220 and R221, with the mathematical result written out per operation. -/
def Obligations.AluFunction : Prop :=
  ∀ (p : OverflowPolicy) (op : AluOp) (l r : Word),
    (op = .div → r.toInt = 0 → aluOp p op l r = .error (.fault .divByZero)) ∧
    (¬(op = .div ∧ r.toInt = 0) →
      let x : Int :=
        match op with
        | .add => l.toInt + r.toInt
        | .sub => l.toInt - r.toInt
        | .mul => l.toInt * r.toInt
        | .div => ⌊(l.toInt : ℚ) / (r.toInt : ℚ)⌋
        | .inc => r.toInt + 1
        | .dec => r.toInt - 1
      (-2147483648 ≤ x → x ≤ 2147483647 → ∃ w, aluOp p op l r = .ok w ∧ w.toInt = x) ∧
      (x < -2147483648 ∨ 2147483647 < x →
        (p = .wrap → ∃ w, aluOp p op l r = .ok w ∧ (w.toNat : Int) = x % 2 ^ 32) ∧
        (p = .fault → aluOp p op l r = .error (.fault .arithOverflow))))

/-- R222: floor division by its bracketing property, and the rows of its table. -/
def Obligations.DivisionRoundsDown : Prop :=
  (∀ (p : OverflowPolicy) (a b q : Word), ¬(a.toInt = intMin ∧ b.toInt = -1) → aluOp p .div a b = .ok q →
      (0 < b.toInt → q.toInt * b.toInt ≤ a.toInt ∧ a.toInt < (q.toInt + 1) * b.toInt) ∧
      (b.toInt < 0 → a.toInt ≤ q.toInt * b.toInt ∧ (q.toInt + 1) * b.toInt < a.toInt)) ∧
    (∀ p : OverflowPolicy,
      aluOp p .div 7 2 = .ok 3 ∧ aluOp p .div (-7) 2 = .ok (-4) ∧ aluOp p .div 7 (-2) = .ok (-4) ∧
      aluOp p .div (-7) (-2) = .ok 3 ∧ aluOp p .div 6 3 = .ok 2 ∧ aluOp p .div (-6) 3 = .ok (-2) ∧
      aluOp p .div 0 (-5) = .ok 0 ∧ aluOp p .div (-1) 2 = .ok (-1) ∧ aluOp p .div 1 (-2) = .ok (-1)) ∧
    aluOp .wrap .div (BitVec.intMin 32) (-1) = .ok (BitVec.intMin 32) ∧
    aluOp .fault .div (BitVec.intMin 32) (-1) = .error (.fault .arithOverflow)

/-- R178: the instruction level and the tick level give the same states, for every instruction, on every path. -/
def Obligations.InstructionIsItsTicks : Prop :=
  ∀ (i : Instr) (s : State), s.AboutToFetch i →
    exec i s = .next (runTicks (ticksGiven i) s) ∧ step s = .next (runTicks (ticksGiven i) s)

/-- C4 and R383: the two readings of a tick agree on every word of the control store. -/
def Obligations.SequentialOrderGivesTheSameTick : Prop :=
  ∀ s : State, s.Running → tickRunning s = sequentialTick s

/-- R160 checked as written. Its own check of (b) overlooks that `CSL` reads what `PCL` writes (log entry 7). -/
def Obligations.HazardSetsOfTheControlStore : Prop :=
  ∀ m, m < 61 → (hazardFreeAt m = true ↔ m ≠ 14)

/-- R151's count, R122's remark on the store and R152's map. A sanity statement on a fixed table. -/
def Obligations.ControlStoreIsWellFormed : Prop :=
  controlStore.length = 61 ∧ (∀ w ∈ controlStore, (decodeControl w).isSome) ∧
    (∀ o : BitVec 8, o.toNat < 0x14 → ∃ m, entryPoint o = some m ∧ 1 ≤ m.toNat ∧ m.toNat ≤ 60) ∧
    (∀ o : BitVec 8, 0x14 ≤ o.toNat → entryPoint o = none)

/-- R324, from any state that meets the invariant, not only on runs from reset. -/
def Obligations.StepKeepsInvariant : Prop :=
  ∀ s t : State, s.Inv → step s = .next t → t.Inv

/-- R324 and R38 at tick granularity: mid-instruction states included. -/
def Obligations.TickKeepsInvariant : Prop :=
  ∀ s t : State, s.Inv → takeTick s = some t →
    t.Inv ∧ ¬(t.status.outcome = .fault ∧ t.status.faultCode = FaultReason.malformedControlWord.code)

/-- R329 (with R322's record): the two kinds of tick, and nothing between them. -/
def Obligations.TerminalTickChangesOnlyStatus : Prop :=
  ∀ s t : State, takeTick s = some t →
    (t.Running ∧ t.status = s.status ∧ t.tick = s.tick + 1) ∨
    (t.Ended ∧ t = { s with status := t.status } ∧ t.status.faultPc = s.pc ∧ t.status.faultMpc = s.mpc)

/-- R322: the CORE takes no further tick until reset. The stop's form is the model's (log entry 4). -/
def Obligations.EndedRunTakesNoFurtherTick : Prop :=
  ∀ s : State, s.Ended →
    takeTick s = none ∧ (∀ n, runTicks n s = s) ∧ step s = .fault .runEnded ∧ ∀ i, exec i s = .fault .runEnded

/-- R47: the listed elements are microarchitectural. -/
def Obligations.MicroarchitecturalStateIsUnobservable : Prop :=
  ∀ s t : State, s.Inv → s.Running → s.mpc = 0 → s.SameArchitectural t →
    (∃ s' t', step s = .next s' ∧ step t = .next t' ∧ s'.SameArchitectural t') ∧
    ∀ i, ∃ s' t', exec i s = .next s' ∧ exec i t = .next t' ∧ s'.SameArchitectural t'

/-- R381, for every operand and every path. -/
def Obligations.TickCounts : Prop :=
  ∀ (i : Instr) (s t : State), s.Running → s.mpc = 0 → exec i s = .next t →
    (t.Running → t.mpc = 0 ∧ t.tick = s.tick + BitVec.ofNat 64 (tickCount i)) ∧
    (t.Ended → ∀ e, entryPoint i.opcode = some e →
      t.status.faultMpc = t.mpc ∧ e ≤ t.mpc ∧
      t.tick = s.tick + BitVec.ofNat 64 (t.mpc.toNat - e.toNat + 1)) ∧
    (entryPoint i.opcode = none → t.Ended ∧ t.tick = s.tick)

/-- R34's third column for every instruction, and the frame of every slot: `writtenSlots` lists what each may
write (R33). -/
def Obligations.StackDepthChange : Prop :=
  ∀ (i : Instr) (s t : State), s.Inv → exec i s = .next t →
    (t.Running → t.sp = s.sp + depthChange i) ∧
    (∀ k : Nat, t.stack[k]? ≠ s.stack[k]? → (k : Int) ∈ writtenSlots i s.sp) ∧ t.stackCap = s.stackCap

/-- R321's instructions column, read as 'only these'; R331: no fault transfers control. -/
def Obligations.TerminalConditionsPerInstruction : Prop :=
  ∀ (i : Instr) (s t : State), s.Inv → exec i s = .next t → t.Ended →
    (∃ e ∈ terminals i, t.status.outcome = e.outcome ∧ t.status.faultCode = e.code) ∧
    t.status.faultPc = s.pc ∧ t.pc = s.pc

/-- The frame of data memory over all instructions, read one word at a time. -/
def Obligations.OnlyStoreWritesDataMemory : Prop :=
  ∀ (i : Instr) (s t : State) (n : Nat), s.Inv → exec i s = .next t → t.dmem.read n ≠ s.dmem.read n →
    (∃ f, i = .store f) ∧ dataAddress s.dmemWords (s.stack.getD (s.sp - 1).toNat 0) = some n

/-- R45: the call stack is mutated only by CALL and RET. -/
def Obligations.CallStackChangesOnlyInCallAndRet : Prop :=
  ∀ (i : Instr) (s t : State), s.Inv → exec i s = .next t →
    (t.scp ≠ s.scp ∨ t.cstack ≠ s.cstack → (∃ a, i = .call a) ∨ ∃ f, i = .ret f) ∧
    (∀ k : Nat, t.cstack[k]? ≠ s.cstack[k]? → (∃ a, i = .call a) ∧ (k : Int) = s.scp + 1)

/-- R302: the only two moves on a queue, and the only queue each touches. -/
def Obligations.PortsChangeOnlyInPortInstructions : Prop :=
  ∀ (i : Instr) (s t : State) (p : Fin 16), exec i s = .next t → t.ports[p] ≠ s.ports[p] →
    (∃ f : Addr, i = .input f ∧ f.toNat = p.val ∧ ∃ v, s.ports[p] = v :: t.ports[p]) ∨
    (∃ f : Addr, i = .output f ∧ f.toNat = p.val ∧ t.ports[p] = s.ports[p] ++ [s.stack.getD s.sp.toNat 0])

/-- R48 and R95: what a launch fixes; no instruction writes program memory. -/
def Obligations.LaunchConstantsNeverChange : Prop :=
  ∀ s t : State, step s = .next t →
    t.prog = s.prog ∧ t.dmemWords = s.dmemWords ∧ t.overflow = s.overflow ∧ t.stackCap = s.stackCap ∧
      t.callCap = s.callCap

/-- R32 and R45: by exactly +1 or -1 per tick, by the SP and CSP fields. -/
def Obligations.PointersMoveByAtMostOne : Prop :=
  ∀ s t : State, takeTick s = some t →
    (t.sp - s.sp).natAbs ≤ 1 ∧ (t.scp - s.scp).natAbs ≤ 1 ∧ (t.sp = s.sp ∨ t.scp = s.scp)

/-- The call and return symmetry that R276 quotes. -/
def Obligations.CallThenRetReturns : Prop :=
  ∀ (addr f : Addr) (s : State), s.Running → -1 ≤ s.scp → s.scp < s.callCap - 1 →
    ∃ t u, exec (.call addr) s = .next t ∧ exec (.ret f) t = .next u ∧
      u.pc = s.pc + 1 ∧ u.scp = s.scp ∧ u.links = s.links ∧ u.sp = s.sp ∧ u.stack = s.stack ∧ u.Running

/-- R88: every port can be written and read back, oldest first. -/
def Obligations.OutputThenInputIsFifo : Prop :=
  ∀ (p : Addr) (s : State) (v : Word) (h : p.toNat < 16), s.Running → 0 ≤ s.sp → s.stack[s.sp.toNat]? = some v →
    ∃ t u, exec (.output p) s = .next t ∧ exec (.input p) t = .next u ∧ u.Running ∧ u.sp = s.sp ∧
      (s.ports[p.toNat] = [] → u.stack[s.sp.toNat]? = some v ∧ u.ports = s.ports) ∧
      (∀ w q, s.ports[p.toNat] = w :: q → u.stack[s.sp.toNat]? = some w ∧ u.ports[p.toNat] = q ++ [v])

/-- R93: a read returns the latest write. STORE leaves the address as the new top, where LOAD takes it. -/
def Obligations.StoreThenLoadReadsBack : Prop :=
  ∀ (f g : Addr) (s : State) (a v : Word), s.Running → s.dmem.wf → 1 ≤ s.sp →
    s.stack[s.sp.toNat - 1]? = some a → s.stack[s.sp.toNat]? = some v → 0 ≤ a.toInt → a.toInt < s.dmemWords →
    ∃ t u, exec (.store f) s = .next t ∧ exec (.load g) t = .next u ∧ u.Running ∧
      u.sp = s.sp - 1 ∧ u.stack[s.sp.toNat - 1]? = some v ∧ u.dmem = t.dmem

/-- R202 composed with itself. -/
def Obligations.SwapTwiceRestoresTheStack : Prop :=
  ∀ (f g : Addr) (s : State), s.Running → 1 ≤ s.sp → s.sp < s.stackCap →
    ∃ t u, exec (.swap f) s = .next t ∧ exec (.swap g) t = .next u ∧ u.Running ∧
      u.stack = s.stack ∧ u.sp = s.sp ∧ u.pc = s.pc + 2 ∧ u.tick = s.tick + 14

/-- R361 whole: LoadProgram, LoadData and LoadInput, for any parameters. Nothing is said of which reason a refused launch
reports (`LaunchRefusalReasons`, log entry 13). -/
def Obligations.LaunchLoadsTheImages : Prop :=
  ∀ (p : Params) (P Q : List Byte) (c : List Char),
    let word := fun (B : List Byte) (i : Nat) =>
      (B.getD (4 * i) 0).toNat + (B.getD (4 * i + 1) 0).toNat * 2 ^ 8 + (B.getD (4 * i + 2) 0).toNat * 2 ^ 16 +
        (B.getD (4 * i + 3) 0).toNat * 2 ^ 24
    let D := Q.length / 4
    let words := p.dmemWords.getD D
    let refused := P.length % 4 ≠ 0 ∨ P.length / 4 > 2 ^ 24 - 1 ∨ Q.length % 4 ≠ 0 ∨ words < D
    (refused → ∃ r, launch p P Q c = .refused r) ∧
    (¬refused →
      ∃ s, launch p P Q c = .next s ∧ s.prog.length = P.length / 4 ∧ s.dmemWords = words ∧
        (∀ i, i < P.length / 4 → s.prog[i]? = some (BitVec.ofNat 32 (word P i))) ∧
        (∀ a, a < D → s.dmem.read a = BitVec.ofNat 32 (word Q a)) ∧
        (∀ a, D ≤ a → s.dmem.read a = 0) ∧
        s.ports[0] = c.map (fun x => BitVec.ofNat 32 x.toNat) ∧
        (∀ k : Fin 16, k ≠ 0 → s.ports[k] = []))

/-- R367, R50 and R324 together, for every launch. -/
def Obligations.LaunchedStateIsCleanEntry : Prop :=
  ∀ (p : Params) (P Q : List Byte) (c : List Char) (s : State), p.wf → launch p P Q c = .next s →
    (∃ prog image, wordsOfFile P = some prog ∧ wordsOfFile Q = some image ∧ s.CleanEntry prog image (c.map codeOf)) ∧
    s.status = .running ∧ s.arg = 0 ∧ s.tos = 0 ∧ s.sr = 0 ∧ s.alu = 0 ∧
    s.stack = List.replicate p.stackCap 0 ∧ s.cstack = List.replicate p.callCap 0 ∧ s.overflow = p.overflow ∧ s.Inv

/-- The invariant at reset. The capacities of this one state are the model's choice (log entry 1). -/
def Obligations.ResetMeetsInvariant : Prop :=
  State.reset.Inv ∧ launch .conventional [] [] [] = .next State.reset ∧
    step State.reset = .next { State.reset with status := faultAt .pcRange 0 0 }

/-- Which reason a refused launch reports: DESIGN CHOICE, log entry 13. That it is refused is R361's
(`LaunchLoadsTheImages`). -/
def Obligations.LaunchRefusalReasons : Prop :=
  ∀ (p : Params) (P Q : List Byte) (c : List Char),
    (P.length % 4 ≠ 0 → launch p P Q c = .refused .programFileSize) ∧
    (P.length % 4 = 0 → P.length / 4 > 2 ^ 24 - 1 → launch p P Q c = .refused .programTooLong) ∧
    (P.length % 4 = 0 → P.length / 4 ≤ 2 ^ 24 - 1 →
      (Q.length % 4 ≠ 0 → launch p P Q c = .refused .dataFileSize) ∧
      (Q.length % 4 = 0 → p.dmemWords.getD (Q.length / 4) < Q.length / 4 →
        launch p P Q c = .refused .dataTooLarge))
end

