-- ==== Sys2Proof/Laws/Memory.lean ====
section
/-! SUPPORT. Data memory: reading after writing, and the canonical form that every memory operation keeps. -/

namespace Sys2Proof.Machine

@[simp] theorem Memory.read_nil (a : Nat) : Memory.read [] a = 0 := rfl

theorem Memory.read_cons (b : Nat) (v : Word) (m : Memory) (a : Nat) :
    Memory.read ((b, v) :: m) a = if a = b then v else m.read a := rfl

/-- An address below every listed one is unlisted. -/
theorem Memory.read_below {m : Memory} {a : Nat} (h : ∀ c ∈ m, a < c.1) : m.read a = 0 := by
  induction m with
  | nil => rfl
  | cons c m ih =>
    obtain ⟨b, v⟩ := c
    have hb : a < b := h (b, v) (by simp)
    rw [Memory.read_cons, if_neg (by omega), ih (fun c hc => h c (by simp [hc]))]

/-- Every pair of a written memory is the written one or an old one. -/
theorem Memory.mem_write {m : Memory} {a : Nat} {v : Word} {c : Nat × Word} (h : c ∈ m.write a v) :
    c = (a, v) ∧ v ≠ 0 ∨ c ∈ m := by
  induction m with
  | nil =>
    by_cases hv : v = 0
    · rw [Memory.write, if_pos hv] at h; cases h
    · rw [Memory.write, if_neg hv] at h; exact .inl ⟨List.mem_singleton.1 h, hv⟩
  | cons d m ih =>
    obtain ⟨b, w⟩ := d
    unfold Memory.write at h
    split at h
    · split at h
      · exact .inr h
      · rcases List.mem_cons.1 h with rfl | h
        · exact .inl ⟨rfl, ‹_›⟩
        · exact .inr h
    · split at h
      · split at h
        · exact .inr (List.mem_cons_of_mem _ h)
        · rcases List.mem_cons.1 h with rfl | h
          · exact .inl ⟨rfl, ‹_›⟩
          · exact .inr (List.mem_cons_of_mem _ h)
      · rcases List.mem_cons.1 h with rfl | h
        · exact .inr (by simp)
        · exact (ih h).imp id (List.mem_cons_of_mem _)

/-- A write keeps the canonical form. -/
theorem Memory.write_wf {m : Memory} (h : m.wf) (a : Nat) (v : Word) : (m.write a v).wf := by
  constructor
  · induction m with
    | nil => unfold Memory.write; split <;> simp
    | cons d m ih =>
      obtain ⟨b, w⟩ := d
      obtain ⟨hp, hz⟩ := h
      rw [List.pairwise_cons] at hp
      have hm : Memory.wf m := ⟨hp.2, fun c hc => hz c (List.mem_cons_of_mem _ hc)⟩
      unfold Memory.write
      split
      · split
        · exact List.pairwise_cons.2 hp
        · refine List.pairwise_cons.2 ⟨fun c hc => ?_, List.pairwise_cons.2 hp⟩
          rcases List.mem_cons.1 hc with rfl | hc
          · assumption
          · have := hp.1 c hc; simp only at this ⊢; omega
      · split
        · split
          · exact hp.2
          · exact List.pairwise_cons.2 ⟨fun c hc => by have := hp.1 c hc; simp only at this ⊢; omega, hp.2⟩
        · refine List.pairwise_cons.2 ⟨fun c hc => ?_, ih hm⟩
          rcases Memory.mem_write hc with ⟨rfl, -⟩ | hc
          · simp only; omega
          · exact hp.1 c hc
  · intro c hc
    rcases Memory.mem_write hc with ⟨rfl, hv⟩ | hc
    · exact hv
    · exact h.2 c hc

/-- Every pair stays inside data memory when a write does. -/
theorem Memory.write_inside {m : Memory} {n a : Nat} (h : ∀ c ∈ m, c.1 < n) (ha : a < n) (v : Word) :
    ∀ c ∈ m.write a v, c.1 < n := by
  intro c hc
  rcases Memory.mem_write hc with ⟨rfl, -⟩ | hc
  · exact ha
  · exact h c hc

/-- What a read gives after a write: the word written at its own address, the old word everywhere else. -/
theorem Memory.read_write {m : Memory} (h : m.wf) (a : Nat) (v : Word) (b : Nat) :
    (m.write a v).read b = if b = a then v else m.read b := by
  induction m with
  | nil =>
    unfold Memory.write
    by_cases hv : v = 0
    · rw [if_pos hv, hv]; simp
    · rw [if_neg hv, Memory.read_cons]
  | cons d m ih =>
    obtain ⟨c, w⟩ := d
    obtain ⟨hp, hz⟩ := h
    rw [List.pairwise_cons] at hp
    have hm : Memory.wf m := ⟨hp.2, fun c hc => hz c (List.mem_cons_of_mem _ hc)⟩
    have below : ∀ x, x ≤ c → Memory.read m x = 0 := fun x hx => Memory.read_below fun d hd => by
      have := hp.1 d hd; simp only at this; omega
    unfold Memory.write
    by_cases hac : a < c
    · rw [if_pos hac]
      by_cases hv : v = 0
      · rw [if_pos hv, Memory.read_cons]
        by_cases hb : b = a
        · rw [if_pos hb, if_neg (by omega), below b (by omega), hv]
        · rw [if_neg hb]
      · rw [if_neg hv, Memory.read_cons]
    · rw [if_neg hac]
      by_cases hac' : a = c
      · rw [if_pos hac']
        by_cases hv : v = 0
        · rw [if_pos hv, Memory.read_cons]
          by_cases hb : b = a
          · rw [if_pos hb, below b (by omega), hv]
          · rw [if_neg hb, if_neg (by omega)]
        · rw [if_neg hv, Memory.read_cons, Memory.read_cons]
          by_cases hb : b = a
          · rw [if_pos hb, if_pos hb]
          · rw [if_neg hb, if_neg hb, if_neg (by omega)]
      · rw [if_neg hac', Memory.read_cons, Memory.read_cons, ih hm]
        by_cases hb : b = c
        · rw [if_pos hb, if_neg (by omega), if_pos hb]
        · rw [if_neg hb, if_neg hb]

/-- Every pair of a loaded image lies at or above its first address and inside its length. -/
theorem Memory.mem_ofWords {ws : List Word} {a : Nat} {c : Nat × Word} (h : c ∈ Memory.ofWords a ws) :
    a ≤ c.1 ∧ c.1 < a + ws.length ∧ c.2 ≠ 0 := by
  induction ws generalizing a with
  | nil => simp [Memory.ofWords] at h
  | cons w ws ih =>
    unfold Memory.ofWords at h
    rw [List.length_cons]
    split at h
    · have := ih h
      exact ⟨by omega, by omega, this.2.2⟩
    · rcases List.mem_cons.1 h with rfl | h
      · exact ⟨le_refl _, by simp, ‹_›⟩
      · have := ih h
        exact ⟨by omega, by omega, this.2.2⟩

/-- A loaded image is in canonical form. -/
theorem Memory.ofWords_wf (a : Nat) (ws : List Word) : (Memory.ofWords a ws).wf := by
  refine ⟨?_, fun c hc => (Memory.mem_ofWords hc).2.2⟩
  induction ws generalizing a with
  | nil => simp [Memory.ofWords]
  | cons w ws ih =>
    unfold Memory.ofWords
    split
    · exact ih _
    · exact List.pairwise_cons.2 ⟨fun c hc => by have := (Memory.mem_ofWords hc).1; simp only; omega, ih _⟩

/-- What a read of a loaded image gives: the image's word, and 0 past its end. -/
theorem Memory.read_ofWords (ws : List Word) (a n : Nat) :
    (Memory.ofWords a ws).read (a + n) = ws.getD n 0 := by
  induction ws generalizing a n with
  | nil => simp [Memory.ofWords]
  | cons w ws ih =>
    unfold Memory.ofWords
    have tail : ∀ k, (Memory.ofWords (a + 1) ws).read (a + (k + 1)) = ws.getD k 0 := fun k => by
      have := ih (a + 1) k; rwa [show a + 1 + k = a + (k + 1) by omega] at this
    have low : (Memory.ofWords (a + 1) ws).read a = 0 :=
      Memory.read_below fun c hc => by have := (Memory.mem_ofWords hc).1; omega
    split
    · cases n with
      | zero => exact low.trans (by simp_all)
      | succ k => rw [tail k]; simp
    · rw [Memory.read_cons]
      cases n with
      | zero => simp
      | succ k => rw [if_neg (by omega), tail k]; simp

end Sys2Proof.Machine
end

