-- ==== Sys2Proof/Laws/State.lean ====
section
/-! SUPPORT. One lemma per field per named update of `State`, all true by definition, so that no proof unfolds a record
update. -/

namespace Sys2Proof.Machine

/-! ### `State.issue` -/

@[simp] theorem State.issue_pc (s : State) (a : Addr) (m : MicroAddr) : (s.issue a m).pc = s.pc := rfl
@[simp] theorem State.issue_mpc (s : State) (a : Addr) (m : MicroAddr) : (s.issue a m).mpc = m := rfl
@[simp] theorem State.issue_scp (s : State) (a : Addr) (m : MicroAddr) : (s.issue a m).scp = s.scp := rfl
@[simp] theorem State.issue_tick (s : State) (a : Addr) (m : MicroAddr) : (s.issue a m).tick = s.tick + 1 := rfl
@[simp] theorem State.issue_arg (s : State) (a : Addr) (m : MicroAddr) : (s.issue a m).arg = a := rfl
@[simp] theorem State.issue_status (s : State) (a : Addr) (m : MicroAddr) : (s.issue a m).status = s.status := rfl
@[simp] theorem State.issue_sp (s : State) (a : Addr) (m : MicroAddr) : (s.issue a m).sp = s.sp := rfl
@[simp] theorem State.issue_stack (s : State) (a : Addr) (m : MicroAddr) : (s.issue a m).stack = s.stack := rfl
@[simp] theorem State.issue_tos (s : State) (a : Addr) (m : MicroAddr) : (s.issue a m).tos = s.tos := rfl
@[simp] theorem State.issue_sr (s : State) (a : Addr) (m : MicroAddr) : (s.issue a m).sr = s.sr := rfl
@[simp] theorem State.issue_alu (s : State) (a : Addr) (m : MicroAddr) : (s.issue a m).alu = s.alu := rfl
@[simp] theorem State.issue_cstack (s : State) (a : Addr) (m : MicroAddr) : (s.issue a m).cstack = s.cstack := rfl
@[simp] theorem State.issue_dmem (s : State) (a : Addr) (m : MicroAddr) : (s.issue a m).dmem = s.dmem := rfl
@[simp] theorem State.issue_ports (s : State) (a : Addr) (m : MicroAddr) : (s.issue a m).ports = s.ports := rfl
@[simp] theorem State.issue_prog (s : State) (a : Addr) (m : MicroAddr) : (s.issue a m).prog = s.prog := rfl
@[simp] theorem State.issue_dmemWords (s : State) (a : Addr) (m : MicroAddr) : (s.issue a m).dmemWords = s.dmemWords := rfl
@[simp] theorem State.issue_overflow (s : State) (a : Addr) (m : MicroAddr) : (s.issue a m).overflow = s.overflow := rfl

/-! ### `State.toNext` -/

@[simp] theorem State.toNext_pc (s : State) : (s.toNext).pc = s.pc := rfl
@[simp] theorem State.toNext_mpc (s : State) : (s.toNext).mpc = s.mpc + 1 := rfl
@[simp] theorem State.toNext_scp (s : State) : (s.toNext).scp = s.scp := rfl
@[simp] theorem State.toNext_tick (s : State) : (s.toNext).tick = s.tick + 1 := rfl
@[simp] theorem State.toNext_arg (s : State) : (s.toNext).arg = s.arg := rfl
@[simp] theorem State.toNext_status (s : State) : (s.toNext).status = s.status := rfl
@[simp] theorem State.toNext_sp (s : State) : (s.toNext).sp = s.sp := rfl
@[simp] theorem State.toNext_stack (s : State) : (s.toNext).stack = s.stack := rfl
@[simp] theorem State.toNext_tos (s : State) : (s.toNext).tos = s.tos := rfl
@[simp] theorem State.toNext_sr (s : State) : (s.toNext).sr = s.sr := rfl
@[simp] theorem State.toNext_alu (s : State) : (s.toNext).alu = s.alu := rfl
@[simp] theorem State.toNext_cstack (s : State) : (s.toNext).cstack = s.cstack := rfl
@[simp] theorem State.toNext_dmem (s : State) : (s.toNext).dmem = s.dmem := rfl
@[simp] theorem State.toNext_ports (s : State) : (s.toNext).ports = s.ports := rfl
@[simp] theorem State.toNext_prog (s : State) : (s.toNext).prog = s.prog := rfl
@[simp] theorem State.toNext_dmemWords (s : State) : (s.toNext).dmemWords = s.dmemWords := rfl
@[simp] theorem State.toNext_overflow (s : State) : (s.toNext).overflow = s.overflow := rfl

/-! ### `State.retire` -/

@[simp] theorem State.retire_pc (s : State) (a : Addr) : (s.retire a).pc = a := rfl
@[simp] theorem State.retire_mpc (s : State) (a : Addr) : (s.retire a).mpc = 0 := rfl
@[simp] theorem State.retire_scp (s : State) (a : Addr) : (s.retire a).scp = s.scp := rfl
@[simp] theorem State.retire_tick (s : State) (a : Addr) : (s.retire a).tick = s.tick + 1 := rfl
@[simp] theorem State.retire_arg (s : State) (a : Addr) : (s.retire a).arg = s.arg := rfl
@[simp] theorem State.retire_status (s : State) (a : Addr) : (s.retire a).status = s.status := rfl
@[simp] theorem State.retire_sp (s : State) (a : Addr) : (s.retire a).sp = s.sp := rfl
@[simp] theorem State.retire_stack (s : State) (a : Addr) : (s.retire a).stack = s.stack := rfl
@[simp] theorem State.retire_tos (s : State) (a : Addr) : (s.retire a).tos = s.tos := rfl
@[simp] theorem State.retire_sr (s : State) (a : Addr) : (s.retire a).sr = s.sr := rfl
@[simp] theorem State.retire_alu (s : State) (a : Addr) : (s.retire a).alu = s.alu := rfl
@[simp] theorem State.retire_cstack (s : State) (a : Addr) : (s.retire a).cstack = s.cstack := rfl
@[simp] theorem State.retire_dmem (s : State) (a : Addr) : (s.retire a).dmem = s.dmem := rfl
@[simp] theorem State.retire_ports (s : State) (a : Addr) : (s.retire a).ports = s.ports := rfl
@[simp] theorem State.retire_prog (s : State) (a : Addr) : (s.retire a).prog = s.prog := rfl
@[simp] theorem State.retire_dmemWords (s : State) (a : Addr) : (s.retire a).dmemWords = s.dmemWords := rfl
@[simp] theorem State.retire_overflow (s : State) (a : Addr) : (s.retire a).overflow = s.overflow := rfl

/-! ### `State.endRun` -/

@[simp] theorem State.endRun_pc (s : State) (t : Terminal) : (s.endRun t).pc = s.pc := rfl
@[simp] theorem State.endRun_mpc (s : State) (t : Terminal) : (s.endRun t).mpc = s.mpc := rfl
@[simp] theorem State.endRun_scp (s : State) (t : Terminal) : (s.endRun t).scp = s.scp := rfl
@[simp] theorem State.endRun_tick (s : State) (t : Terminal) : (s.endRun t).tick = s.tick := rfl
@[simp] theorem State.endRun_arg (s : State) (t : Terminal) : (s.endRun t).arg = s.arg := rfl
@[simp] theorem State.endRun_status (s : State) (t : Terminal) : (s.endRun t).status = { outcome := t.outcome, faultCode := t.code, faultPc := s.pc, faultMpc := s.mpc } := rfl
@[simp] theorem State.endRun_sp (s : State) (t : Terminal) : (s.endRun t).sp = s.sp := rfl
@[simp] theorem State.endRun_stack (s : State) (t : Terminal) : (s.endRun t).stack = s.stack := rfl
@[simp] theorem State.endRun_tos (s : State) (t : Terminal) : (s.endRun t).tos = s.tos := rfl
@[simp] theorem State.endRun_sr (s : State) (t : Terminal) : (s.endRun t).sr = s.sr := rfl
@[simp] theorem State.endRun_alu (s : State) (t : Terminal) : (s.endRun t).alu = s.alu := rfl
@[simp] theorem State.endRun_cstack (s : State) (t : Terminal) : (s.endRun t).cstack = s.cstack := rfl
@[simp] theorem State.endRun_dmem (s : State) (t : Terminal) : (s.endRun t).dmem = s.dmem := rfl
@[simp] theorem State.endRun_ports (s : State) (t : Terminal) : (s.endRun t).ports = s.ports := rfl
@[simp] theorem State.endRun_prog (s : State) (t : Terminal) : (s.endRun t).prog = s.prog := rfl
@[simp] theorem State.endRun_dmemWords (s : State) (t : Terminal) : (s.endRun t).dmemWords = s.dmemWords := rfl
@[simp] theorem State.endRun_overflow (s : State) (t : Terminal) : (s.endRun t).overflow = s.overflow := rfl

/-! ### `State.withFetchWord` -/

@[simp] theorem State.withFetchWord_pc (s : State) (n w : Nat) : (s.withFetchWord n w).pc = s.pc := rfl
@[simp] theorem State.withFetchWord_mpc (s : State) (n w : Nat) : (s.withFetchWord n w).mpc = 0 := rfl
@[simp] theorem State.withFetchWord_scp (s : State) (n w : Nat) : (s.withFetchWord n w).scp = s.scp := rfl
@[simp] theorem State.withFetchWord_tick (s : State) (n w : Nat) : (s.withFetchWord n w).tick = s.tick := rfl
@[simp] theorem State.withFetchWord_arg (s : State) (n w : Nat) : (s.withFetchWord n w).arg = s.arg := rfl
@[simp] theorem State.withFetchWord_status (s : State) (n w : Nat) : (s.withFetchWord n w).status = .running := rfl
@[simp] theorem State.withFetchWord_sp (s : State) (n w : Nat) : (s.withFetchWord n w).sp = s.sp := rfl
@[simp] theorem State.withFetchWord_stack (s : State) (n w : Nat) : (s.withFetchWord n w).stack = s.stack := rfl
@[simp] theorem State.withFetchWord_tos (s : State) (n w : Nat) : (s.withFetchWord n w).tos = s.tos := rfl
@[simp] theorem State.withFetchWord_sr (s : State) (n w : Nat) : (s.withFetchWord n w).sr = s.sr := rfl
@[simp] theorem State.withFetchWord_alu (s : State) (n w : Nat) : (s.withFetchWord n w).alu = s.alu := rfl
@[simp] theorem State.withFetchWord_cstack (s : State) (n w : Nat) : (s.withFetchWord n w).cstack = s.cstack := rfl
@[simp] theorem State.withFetchWord_dmem (s : State) (n w : Nat) : (s.withFetchWord n w).dmem = s.dmem := rfl
@[simp] theorem State.withFetchWord_ports (s : State) (n w : Nat) : (s.withFetchWord n w).ports = s.ports := rfl
@[simp] theorem State.withFetchWord_prog (s : State) (n w : Nat) : (s.withFetchWord n w).prog = placeWord s.prog s.pc.toNat (BitVec.ofNat 32 (w % 2 ^ n)) := rfl
@[simp] theorem State.withFetchWord_dmemWords (s : State) (n w : Nat) : (s.withFetchWord n w).dmemWords = s.dmemWords := rfl
@[simp] theorem State.withFetchWord_overflow (s : State) (n w : Nat) : (s.withFetchWord n w).overflow = s.overflow := rfl

/-! ### The file sizes, which every named update keeps -/

theorem State.issue_stackCap (s : State) (a : Addr) (m : MicroAddr) : (s.issue a m).stackCap = s.stackCap := rfl
theorem State.issue_callCap (s : State) (a : Addr) (m : MicroAddr) : (s.issue a m).callCap = s.callCap := rfl
theorem State.toNext_stackCap (s : State) : (s.toNext).stackCap = s.stackCap := rfl
theorem State.toNext_callCap (s : State) : (s.toNext).callCap = s.callCap := rfl
theorem State.retire_stackCap (s : State) (a : Addr) : (s.retire a).stackCap = s.stackCap := rfl
theorem State.retire_callCap (s : State) (a : Addr) : (s.retire a).callCap = s.callCap := rfl
theorem State.endRun_stackCap (s : State) (t : Terminal) : (s.endRun t).stackCap = s.stackCap := rfl
theorem State.endRun_callCap (s : State) (t : Terminal) : (s.endRun t).callCap = s.callCap := rfl
theorem State.withFetchWord_stackCap (s : State) (n w : Nat) : (s.withFetchWord n w).stackCap = s.stackCap := rfl
theorem State.withFetchWord_callCap (s : State) (n w : Nat) : (s.withFetchWord n w).callCap = s.callCap := rfl

end Sys2Proof.Machine
end

