-- ==== Sys2Proof/Laws/Ops.lean ====
section
/-! SUPPORT. For each shared operation, what it can do: one lemma that a proof cites instead of unfolding it. -/

namespace Sys2Proof.Machine

/-! ### Running and ending -/

theorem whileRunning_running {s : State} (h : s.Running) (f : State → State) : whileRunning s f = .next (f s) :=
  if_pos h

theorem whileRunning_ended {s : State} (h : s.Ended) (f : State → State) : whileRunning s f = .fault .runEnded :=
  if_neg h

/-- A meaning answers a next state exactly when the run goes on, and then it is the one its tick sequence gives. -/
theorem whileRunning_eq_next {s t : State} {f : State → State} :
    whileRunning s f = .next t ↔ s.Running ∧ f s = t := by
  unfold whileRunning
  split
  · rename_i h
    exact ⟨fun e => ⟨h, by cases e; rfl⟩, fun e => e.2 ▸ rfl⟩
  · rename_i h
    exact ⟨fun e => (by cases e), fun e => absurd e.1 h⟩

@[simp] theorem State.attempt_ok {α : Type} (s : State) (a : α) (k : α → State) : s.attempt (.ok a) k = k a := rfl

@[simp] theorem State.attempt_error {α : Type} (s : State) (t : Terminal) (k : α → State) :
    s.attempt (.error t) k = s.endRun t := rfl

/-- An attempted access either ends the run or goes on with what the access gave. -/
theorem State.attempt_cases {α : Type} {s t : State} {r : Except Terminal α} {k : α → State}
    (h : s.attempt r k = t) : (∃ e, r = .error e ∧ t = s.endRun e) ∨ ∃ a, r = .ok a ∧ t = k a := by
  cases r with
  | error e => exact .inl ⟨e, rfl, h.symm⟩
  | ok a => exact .inr ⟨a, rfl, h.symm⟩

/-- The end of a run changes nothing but `status`, and leaves a run that has ended. -/
theorem State.endRun_ended (s : State) (t : Terminal) : (s.endRun t).Ended := by cases t <;> simp [Terminal.outcome]

/-! ### Pointers -/

theorem State.spNext_ok {s : State} {x : Int} : s.spNext = .ok x ↔ s.sp ≠ s.stackCap - 1 ∧ x = s.sp + 1 := by
  unfold State.spNext; split <;> simp_all [eq_comm]

theorem State.spNext_error {s : State} {t : Terminal} :
    s.spNext = .error t ↔ s.sp = s.stackCap - 1 ∧ t = .fault .stackOverflow := by
  unfold State.spNext; split <;> simp_all [eq_comm]

theorem State.spPrev_ok {s : State} {x : Int} : s.spPrev = .ok x ↔ s.sp ≠ -1 ∧ x = s.sp - 1 := by
  unfold State.spPrev; split <;> simp_all [eq_comm]

theorem State.spPrev_error {s : State} {t : Terminal} :
    s.spPrev = .error t ↔ s.sp = -1 ∧ t = .fault .stackUnderflow := by
  unfold State.spPrev; split <;> simp_all [eq_comm]

theorem State.scpNext_ok {s : State} {x : Int} : s.scpNext = .ok x ↔ s.scp ≠ s.callCap - 1 ∧ x = s.scp + 1 := by
  unfold State.scpNext; split <;> simp_all [eq_comm]

theorem State.scpNext_error {s : State} {t : Terminal} :
    s.scpNext = .error t ↔ s.scp = s.callCap - 1 ∧ t = .fault .callStackOverflow := by
  unfold State.scpNext; split <;> simp_all [eq_comm]

theorem State.scpPrev_ok {s : State} {x : Int} : s.scpPrev = .ok x ↔ s.scp ≠ -1 ∧ x = s.scp - 1 := by
  unfold State.scpPrev; split <;> simp_all [eq_comm]

theorem State.scpPrev_error {s : State} {t : Terminal} :
    s.scpPrev = .error t ↔ s.scp = -1 ∧ t = .fault .callStackUnderflow := by
  unfold State.scpPrev; split <;> simp_all [eq_comm]

/-! ### Slots and call-stack entries -/

theorem State.slot_ok {s : State} {v : Word} : s.slot = .ok v ↔ s.sp ≠ -1 ∧ v = s.stack.getD s.sp.toNat 0 := by
  unfold State.slot; split <;> simp_all [eq_comm]

theorem State.slot_error {s : State} {t : Terminal} : s.slot = .error t ↔ s.sp = -1 ∧ t = .fault .stackUnderflow := by
  unfold State.slot; split <;> simp_all [eq_comm]

theorem State.setSlot_ok {s : State} {w : Word} {st : List Word} :
    s.setSlot w = .ok st ↔ s.sp ≠ -1 ∧ st = s.stack.set s.sp.toNat w := by
  unfold State.setSlot; split <;> simp_all [eq_comm]

theorem State.setSlot_error {s : State} {w : Word} {t : Terminal} :
    s.setSlot w = .error t ↔ s.sp = -1 ∧ t = .fault .stackUnderflow := by
  unfold State.setSlot; split <;> simp_all [eq_comm]

theorem State.linked_ok {s : State} {cs : List Addr} :
    s.linked = .ok cs ↔ s.scp ≠ -1 ∧ cs = s.cstack.set s.scp.toNat (s.pc + 1) := by
  unfold State.linked; split <;> simp_all [eq_comm]

theorem State.linked_error {s : State} {t : Terminal} :
    s.linked = .error t ↔ s.scp = -1 ∧ t = .fault .callStackUnderflow := by
  unfold State.linked; split <;> simp_all [eq_comm]

theorem State.returnAddress_ok {s : State} {a : Addr} :
    s.returnAddress = .ok a ↔ s.scp ≠ -1 ∧ a = s.cstack.getD s.scp.toNat 0 := by
  unfold State.returnAddress; split <;> simp_all [eq_comm]

theorem State.returnAddress_error {s : State} {t : Terminal} :
    s.returnAddress = .error t ↔ s.scp = -1 ∧ t = .fault .callStackUnderflow := by
  unfold State.returnAddress; split <;> simp_all [eq_comm]

/-! ### Ports -/

/-- A port read gives the oldest entry and takes it out of its queue, for a port below 16 with an entry. -/
theorem State.portRead_ok {s : State} {p : Nat} {r : Word × Ports} :
    s.portRead p = .ok r ↔ ∃ (h : p < 16) (v : Word) (q : List Word),
      s.ports[p] = v :: q ∧ r = (v, s.ports.set p q) := by
  unfold State.portRead
  split
  · rename_i h
    cases hq : s.ports[p] with
    | nil => simp_all
    | cons v q =>
      constructor
      · intro e; cases e; exact ⟨h, v, q, hq, rfl⟩
      · rintro ⟨_, v', q', hq', rfl⟩; rw [hq] at hq'; cases hq'; rfl
  · simp_all

theorem State.portRead_error {s : State} {p : Nat} {t : Terminal} :
    s.portRead p = .error t ↔
      (16 ≤ p ∧ t = .fault .badPort) ∨ (∃ h : p < 16, s.ports[p] = [] ∧ t = .inputExhausted) := by
  unfold State.portRead
  split
  · rename_i h
    have hp : ¬ 16 ≤ p := by omega
    cases hq : s.ports[p] with
    | nil => exact ⟨fun e => by cases e; exact .inr ⟨h, hq, rfl⟩, fun e => by
        rcases e with ⟨h', -⟩ | ⟨_, -, rfl⟩
        · exact absurd h' hp
        · rfl⟩
    | cons v q => exact ⟨fun e => by (cases e), fun e => by
        rcases e with ⟨h', -⟩ | ⟨_, h', -⟩
        · exact absurd h' hp
        · rw [hq] at h'; cases h'⟩
  · rename_i h
    have hp : 16 ≤ p := by omega
    exact ⟨fun e => by cases e; exact .inl ⟨hp, rfl⟩, fun e => by
      rcases e with ⟨-, rfl⟩ | ⟨h', -⟩
      · rfl
      · exact absurd h' h⟩

/-- A port write appends the word to its queue, for a port below 16. -/
theorem State.portWrite_ok {s : State} {p : Nat} {w : Word} {ps : Ports} :
    s.portWrite p w = .ok ps ↔ ∃ h : p < 16, ps = s.ports.set p (s.ports[p] ++ [w]) := by
  unfold State.portWrite
  split
  · rename_i h; simp [h, eq_comm]
  · rename_i h; simp [h]

theorem State.portWrite_error {s : State} {p : Nat} {w : Word} {t : Terminal} :
    s.portWrite p w = .error t ↔ 16 ≤ p ∧ t = .fault .badPort := by
  unfold State.portWrite
  split
  · have hp : ¬ 16 ≤ p := by omega
    simp [hp]
  · have hp : 16 ≤ p := by omega
    simp [hp, eq_comm]

/-! ### Data memory -/

/-- A word names a data address exactly when, read as signed, it lies in 0 to `DMEM_WORDS` − 1. -/
theorem dataAddress_some {n : Nat} {w : Word} {a : Nat} :
    dataAddress n w = some a ↔ 0 ≤ w.toInt ∧ w.toInt < n ∧ a = w.toNat := by
  unfold dataAddress
  split
  · simp only [reduceCtorEq, false_iff]; omega
  · simp only [Option.some.injEq]; constructor <;> intro h <;> omega

theorem dataAddress_none {n : Nat} {w : Word} : dataAddress n w = none ↔ w.toInt < 0 ∨ w.toInt ≥ n := by
  unfold dataAddress; split <;> simp_all

/-- A word that names a data address names one below `DMEM_WORDS`. -/
theorem dataAddress_lt {n : Nat} {w : Word} {a : Nat} (h : dataAddress n w = some a) : a < n := by
  obtain ⟨h0, hn, rfl⟩ := dataAddress_some.1 h
  have := BitVec.toInt_eq_toNat_of_msb (x := w) (by
    by_contra hm
    have := BitVec.toInt_neg_of_msb_true (x := w) (by simpa using hm)
    omega)
  omega

theorem State.dataRead_ok {s : State} {a v : Word} :
    s.dataRead a = .ok v ↔ ∃ n, dataAddress s.dmemWords a = some n ∧ v = s.dmem.read n := by
  unfold State.dataRead
  cases dataAddress s.dmemWords a with
  | none => simp
  | some n => simp [eq_comm]

theorem State.dataRead_error {s : State} {a : Word} {t : Terminal} :
    s.dataRead a = .error t ↔ dataAddress s.dmemWords a = none ∧ t = .fault .dataAddress := by
  unfold State.dataRead
  cases dataAddress s.dmemWords a with
  | none => simp [eq_comm]
  | some n => simp

theorem State.dataWrite_ok {s : State} {m : Memory} :
    s.dataWrite = .ok m ↔
      ∃ a n, s.slot = .ok a ∧ dataAddress s.dmemWords a = some n ∧ m = s.dmem.write n s.tos := by
  unfold State.dataWrite
  cases s.slot with
  | error t => simp
  | ok a =>
    simp only [Except.ok.injEq, exists_and_left, exists_eq_left']
    cases dataAddress s.dmemWords a with
    | none => simp
    | some n => simp [eq_comm]

theorem State.dataWrite_error {s : State} {t : Terminal} :
    s.dataWrite = .error t ↔
      s.slot = .error t ∨ ∃ a, s.slot = .ok a ∧ dataAddress s.dmemWords a = none ∧ t = .fault .dataAddress := by
  unfold State.dataWrite
  cases s.slot with
  | error t => simp
  | ok a =>
    simp only [reduceCtorEq, Except.ok.injEq, exists_eq_left', false_or]
    cases dataAddress s.dmemWords a with
    | none => simp [eq_comm]
    | some n => simp

/-! ### The ALU -/

theorem narrow_wrap (x : Int) : narrow .wrap x = .ok (s32 x) := by unfold narrow; split <;> rfl

theorem narrow_inside (p : OverflowPolicy) {x : Int} (h : intMin ≤ x ∧ x ≤ intMax) : narrow p x = .ok (s32 x) :=
  if_pos h

theorem narrow_outside {x : Int} (h : ¬(intMin ≤ x ∧ x ≤ intMax)) :
    narrow .fault x = .error (.fault .arithOverflow) := if_neg h

/-- Every word the ALU gives is the exact result modulo 2^32. -/
theorem aluOp_ok {p : OverflowPolicy} {op : AluOp} {l r w : Word} (h : aluOp p op l r = .ok w) :
    ∃ x, aluExact op l.toInt r.toInt = .ok x ∧ w = s32 x := by
  unfold aluOp at h
  split at h
  · cases h
  · rename_i x hx
    refine ⟨x, hx, ?_⟩
    unfold narrow at h
    split at h
    · cases h; rfl
    · cases p <;> cases h; rfl

/-- The ALU ends a run only on a zero divisor or, under `FAULT`, on a result outside the word range. -/
theorem aluOp_error {p : OverflowPolicy} {op : AluOp} {l r : Word} {t : Terminal} (h : aluOp p op l r = .error t) :
    (op = .div ∧ r.toInt = 0 ∧ t = .fault .divByZero) ∨ (p = .fault ∧ t = .fault .arithOverflow) := by
  unfold aluOp at h
  split at h
  · rename_i e he
    cases h
    cases op <;> simp only [aluExact, reduceCtorEq] at he
    split at he
    · cases he; exact .inl ⟨rfl, ‹_›, rfl⟩
    · cases he
  · unfold narrow at h
    split at h
    · cases h
    · cases p <;> cases h; exact .inr ⟨rfl, rfl⟩

/-- A unary operation reads `tos` alone. -/
theorem State.aluResult_unary (s : State) {op : AluOp} (h : op = .inc ∨ op = .dec) :
    s.aluResult op = aluOp s.overflow op 0 s.tos := by
  rcases h with rfl | rfl <;> rfl

/-- A binary operation reads the slot on the left and `tos` on the right. -/
theorem State.aluResult_binary (s : State) {op : AluOp} (h : op ≠ .inc ∧ op ≠ .dec) :
    s.aluResult op = s.slot.bind fun l => aluOp s.overflow op l s.tos := by
  cases op <;> simp_all [State.aluResult] <;> cases s.slot <;> rfl

/-! ### Fetch and placing a word -/

/-- The placed word is the one fetched at its address. -/
theorem placeWord_get (prog : List Word) (a : Nat) (w : Word) : (placeWord prog a w)[a]? = some w := by
  unfold placeWord
  rw [List.getElem?_append_right (by simp), List.takeD_length]
  simp

theorem State.withFetchWord_fetch (s : State) (n w : Nat) :
    (s.withFetchWord n w).fetch = some (BitVec.ofNat 32 (w % 2 ^ n)) := placeWord_get _ _ _

/-- What a fetch of an instruction can give. -/
theorem fetchInstr_ok {s : State} {i : Instr} :
    fetchInstr s = .ok i ↔ ∃ w, s.fetch = some w ∧ decode w = .ok i := by
  unfold fetchInstr
  cases s.fetch with
  | none => simp
  | some w => simp only [Option.some.injEq, exists_eq_left']; cases decode w <;> simp

theorem fetchInstr_error {s : State} {t : Terminal} :
    fetchInstr s = .error t ↔ (s.fetch = none ∧ t = .fault .pcRange) ∨
      ∃ w e, s.fetch = some w ∧ decode w = .error e ∧ t = .fault .unknownOpcode := by
  unfold fetchInstr
  cases s.fetch with
  | none => simp [eq_comm]
  | some w =>
    simp only [reduceCtorEq, false_and, false_or, Option.some.injEq, exists_and_left, exists_eq_left']
    cases decode w <;> simp [eq_comm]

/-! ### The tick -/

theorem takeTick_running {s : State} (h : s.Running) : takeTick s = some (tickRunning s) := if_pos h

theorem takeTick_ended {s : State} (h : s.Ended) : takeTick s = none := if_neg h

@[simp] theorem runTicks_zero (s : State) : runTicks 0 s = s := rfl

theorem runTicks_succ_running {s : State} (h : s.Running) (n : Nat) :
    runTicks (n + 1) s = runTicks n (tickRunning s) := by
  rw [runTicks, takeTick_running h]

theorem runTicks_ended {s : State} (h : s.Ended) (n : Nat) : runTicks n s = s := by
  cases n with
  | zero => rfl
  | succ n => rw [runTicks, takeTick_ended h]

/-- What a committed tick has done: each group gave its value from the start-of-tick state, and the new state holds
exactly those values. -/
theorem commitSignals_ok {s s' : State} {g : Signals} (h : commitSignals s g = .ok s') :
    ∃ arg sp tos dmem ports stack alu scp cstack pc mpc,
      fetchLatch s = .ok arg ∧ evalSp s g.sp = .ok sp ∧ evalTos s g.tos = .ok tos ∧ evalDmw s g.dmw = .ok dmem ∧
      evalIow s g.iow tos.2 = .ok ports ∧ evalSlot s g.slot = .ok stack ∧ evalAlu s g.alu = .ok alu ∧
      evalCsp s g.csp = .ok scp ∧ evalCsl s g.csl = .ok cstack ∧ evalPc s g = .ok pc ∧ evalMpc s g.mpc = .ok mpc ∧
      s' = { s with
        arg := arg, sp := sp, tos := tos.1, dmem := dmem, ports := ports, sr := evalSrl s g.srl, stack := stack,
        alu := alu, scp := scp, cstack := cstack, pc := pc, mpc := mpc, tick := s.tick + 1 } := by
  unfold commitSignals at h
  simp only [bind, Except.bind] at h
  repeat' split at h
  all_goals first
    | (cases h; done)
    | (cases h; exact ⟨_, _, _, _, _, _, _, _, _, _, _, by assumption, by assumption, by assumption, by assumption,
        by assumption, by assumption, by assumption, by assumption, by assumption, by assumption, by assumption, rfl⟩)

/-- A running tick either ends the run, with only `status` changed, or commits the signals of the word at `mpc`. -/
theorem tickRunning_cases (s : State) :
    (∃ t, tickRunning s = s.endRun t) ∨
    ∃ g, currentSignals s = .ok g ∧ commitSignals s g = .ok (tickRunning s) := by
  unfold tickRunning
  cases hg : currentSignals s with
  | error t => exact .inl ⟨t, rfl⟩
  | ok g =>
    cases hc : commitSignals s g with
    | error t => exact .inl ⟨t, by simp [bind, Except.bind, hc]⟩
    | ok s' => exact .inr ⟨g, rfl, by simp [bind, Except.bind, hc]⟩

end Sys2Proof.Machine
end

