-- ==== Sys2Proof/Laws/ControlStore.lean ====
section
/-! SUPPORT. The signals each word of the control store asserts, written from the "asserted signals" column of
40_microcode.md R151 and checked against the hexadecimal words that `controlStore` holds. -/

namespace Sys2Proof.Machine

/-- The signals at a control address. -/
def signalsAt (m : MicroAddr) : Except Terminal Signals :=
  match controlStore[m.toNat]? with
  | none => .error (.fault .malformedControlWord)
  | some w =>
    match decodeControl w with
    | none => .error (.fault .malformedControlWord)
    | some g => .ok g

theorem currentSignals_eq (s : State) : currentSignals s = signalsAt s.mpc := rfl

@[simp] theorem signals_fetch : signalsAt 0#6 = .ok { mpc := .opc } := rfl
@[simp] theorem signals_push_0 : signalsAt 1#6 = .ok { sp := some .next, tos := some .arg, mpc := .next } := rfl
@[simp] theorem signals_push_1 : signalsAt 2#6 = .ok { slot := some .tos, pcl := true, mpc := .zero } := rfl
@[simp] theorem signals_pop_0 : signalsAt 3#6 = .ok { sp := some .prev, pcl := true, mpc := .zero } := rfl
@[simp] theorem signals_jmp_0 : signalsAt 4#6 = .ok { pcl := true, jmp := true, mpc := .zero } := rfl
@[simp] theorem signals_jz_0 : signalsAt 5#6 = .ok { tos := some .slot, mpc := .next } := rfl
@[simp] theorem signals_jz_1 : signalsAt 6#6 = .ok { pcl := true, cond := some .jz, mpc := .zero } := rfl
@[simp] theorem signals_jnz_0 : signalsAt 7#6 = .ok { tos := some .slot, mpc := .next } := rfl
@[simp] theorem signals_jnz_1 : signalsAt 8#6 = .ok { pcl := true, cond := some .jnz, mpc := .zero } := rfl
@[simp] theorem signals_js_0 : signalsAt 9#6 = .ok { tos := some .slot, mpc := .next } := rfl
@[simp] theorem signals_js_1 : signalsAt 10#6 = .ok { pcl := true, cond := some .js, mpc := .zero } := rfl
@[simp] theorem signals_jns_0 : signalsAt 11#6 = .ok { tos := some .slot, mpc := .next } := rfl
@[simp] theorem signals_jns_1 : signalsAt 12#6 = .ok { pcl := true, cond := some .jns, mpc := .zero } := rfl
@[simp] theorem signals_call_0 : signalsAt 13#6 = .ok { csp := some .next, mpc := .next } := rfl
@[simp] theorem signals_call_1 : signalsAt 14#6 = .ok { csl := true, pcl := true, jmp := true, mpc := .zero } := rfl
@[simp] theorem signals_ret_0 : signalsAt 15#6 = .ok { pcl := true, rta := true, mpc := .next } := rfl
@[simp] theorem signals_ret_1 : signalsAt 16#6 = .ok { csp := some .prev, mpc := .zero } := rfl
@[simp] theorem signals_input_0 : signalsAt 17#6 = .ok { sp := some .next, tos := some .port, mpc := .next } := rfl
@[simp] theorem signals_input_1 : signalsAt 18#6 = .ok { slot := some .tos, pcl := true, mpc := .zero } := rfl
@[simp] theorem signals_output_0 : signalsAt 19#6 = .ok { tos := some .slot, mpc := .next } := rfl
@[simp] theorem signals_output_1 : signalsAt 20#6 = .ok { sp := some .prev, iow := true, pcl := true, mpc := .zero } := rfl
@[simp] theorem signals_inc_0 : signalsAt 21#6 = .ok { tos := some .slot, mpc := .next } := rfl
@[simp] theorem signals_inc_1 : signalsAt 22#6 = .ok { alu := some .inc, mpc := .next } := rfl
@[simp] theorem signals_inc_2 : signalsAt 23#6 = .ok { tos := some .alu, mpc := .next } := rfl
@[simp] theorem signals_inc_3 : signalsAt 24#6 = .ok { slot := some .tos, pcl := true, mpc := .zero } := rfl
@[simp] theorem signals_dec_0 : signalsAt 25#6 = .ok { tos := some .slot, mpc := .next } := rfl
@[simp] theorem signals_dec_1 : signalsAt 26#6 = .ok { alu := some .dec, mpc := .next } := rfl
@[simp] theorem signals_dec_2 : signalsAt 27#6 = .ok { tos := some .alu, mpc := .next } := rfl
@[simp] theorem signals_dec_3 : signalsAt 28#6 = .ok { slot := some .tos, pcl := true, mpc := .zero } := rfl
@[simp] theorem signals_add_0 : signalsAt 29#6 = .ok { tos := some .slot, mpc := .next } := rfl
@[simp] theorem signals_add_1 : signalsAt 30#6 = .ok { sp := some .prev, mpc := .next } := rfl
@[simp] theorem signals_add_2 : signalsAt 31#6 = .ok { alu := some .add, mpc := .next } := rfl
@[simp] theorem signals_add_3 : signalsAt 32#6 = .ok { tos := some .alu, mpc := .next } := rfl
@[simp] theorem signals_add_4 : signalsAt 33#6 = .ok { slot := some .tos, pcl := true, mpc := .zero } := rfl
@[simp] theorem signals_sub_0 : signalsAt 34#6 = .ok { tos := some .slot, mpc := .next } := rfl
@[simp] theorem signals_sub_1 : signalsAt 35#6 = .ok { sp := some .prev, mpc := .next } := rfl
@[simp] theorem signals_sub_2 : signalsAt 36#6 = .ok { alu := some .sub, mpc := .next } := rfl
@[simp] theorem signals_sub_3 : signalsAt 37#6 = .ok { tos := some .alu, mpc := .next } := rfl
@[simp] theorem signals_sub_4 : signalsAt 38#6 = .ok { slot := some .tos, pcl := true, mpc := .zero } := rfl
@[simp] theorem signals_mul_0 : signalsAt 39#6 = .ok { tos := some .slot, mpc := .next } := rfl
@[simp] theorem signals_mul_1 : signalsAt 40#6 = .ok { sp := some .prev, mpc := .next } := rfl
@[simp] theorem signals_mul_2 : signalsAt 41#6 = .ok { alu := some .mul, mpc := .next } := rfl
@[simp] theorem signals_mul_3 : signalsAt 42#6 = .ok { tos := some .alu, mpc := .next } := rfl
@[simp] theorem signals_mul_4 : signalsAt 43#6 = .ok { slot := some .tos, pcl := true, mpc := .zero } := rfl
@[simp] theorem signals_div_0 : signalsAt 44#6 = .ok { tos := some .slot, mpc := .next } := rfl
@[simp] theorem signals_div_1 : signalsAt 45#6 = .ok { sp := some .prev, mpc := .next } := rfl
@[simp] theorem signals_div_2 : signalsAt 46#6 = .ok { alu := some .div, mpc := .next } := rfl
@[simp] theorem signals_div_3 : signalsAt 47#6 = .ok { tos := some .alu, mpc := .next } := rfl
@[simp] theorem signals_div_4 : signalsAt 48#6 = .ok { slot := some .tos, pcl := true, mpc := .zero } := rfl
@[simp] theorem signals_load_0 : signalsAt 49#6 = .ok { tos := some .slot, mpc := .next } := rfl
@[simp] theorem signals_load_1 : signalsAt 50#6 = .ok { tos := some .mem, mpc := .next } := rfl
@[simp] theorem signals_load_2 : signalsAt 51#6 = .ok { slot := some .tos, pcl := true, mpc := .zero } := rfl
@[simp] theorem signals_store_0 : signalsAt 52#6 = .ok { tos := some .slot, mpc := .next } := rfl
@[simp] theorem signals_store_1 : signalsAt 53#6 = .ok { sp := some .prev, mpc := .next } := rfl
@[simp] theorem signals_store_2 : signalsAt 54#6 = .ok { dmw := true, pcl := true, mpc := .zero } := rfl
@[simp] theorem signals_swap_0 : signalsAt 55#6 = .ok { tos := some .slot, mpc := .next } := rfl
@[simp] theorem signals_swap_1 : signalsAt 56#6 = .ok { sp := some .prev, srl := true, mpc := .next } := rfl
@[simp] theorem signals_swap_2 : signalsAt 57#6 = .ok { tos := some .slot, mpc := .next } := rfl
@[simp] theorem signals_swap_3 : signalsAt 58#6 = .ok { slot := some .sr, mpc := .next } := rfl
@[simp] theorem signals_swap_4 : signalsAt 59#6 = .ok { sp := some .next, mpc := .next } := rfl
@[simp] theorem signals_swap_5 : signalsAt 60#6 = .ok { slot := some .tos, pcl := true, mpc := .zero } := rfl

theorem controlStore_length : controlStore.length = 61 := by decide

/-- No address above 60 holds a word (R38). -/
theorem signalsAt_beyond {m : MicroAddr} (h : 60 < m.toNat) :
    signalsAt m = .error (.fault .malformedControlWord) := by
  have : controlStore[m.toNat]? = none := List.getElem?_eq_none (by rw [controlStore_length]; omega)
  simp only [signalsAt, this]

end Sys2Proof.Machine
end

