-- ==== Sys2Proof/Laws/PerInstr.lean ====
section
/-! SUPPORT. One lemma per instruction: the two fields of its word (30_encoding.md R110, R111). -/

namespace Sys2Proof.Laws.EncodingFields

/-- The word of an instruction holds its opcode in `[31:24]` and its argument field in `[23:0]`. -/
def Statement (i : Instr) : Prop := opcodeOf (encode i) = i.opcode ∧ fieldOf (encode i) = i.field

/-- An 8-bit opcode above a 24-bit field reads back as the two. -/
theorem of_append (o : BitVec 8) (a : Addr) : opcodeOf (o ++ a : Word) = o ∧ fieldOf (o ++ a : Word) = a :=
  ⟨BitVec.extractLsb'_append_eq_left, BitVec.extractLsb'_append_eq_right⟩

theorem push (a : Addr) : Statement (.push a) := of_append _ _
theorem pop (a : Addr) : Statement (.pop a) := of_append _ _
theorem jmp (a : Addr) : Statement (.jmp a) := of_append _ _
theorem jz (a : Addr) : Statement (.jz a) := of_append _ _
theorem jnz (a : Addr) : Statement (.jnz a) := of_append _ _
theorem js (a : Addr) : Statement (.js a) := of_append _ _
theorem jns (a : Addr) : Statement (.jns a) := of_append _ _
theorem call (a : Addr) : Statement (.call a) := of_append _ _
theorem ret (a : Addr) : Statement (.ret a) := of_append _ _
theorem input (a : Addr) : Statement (.input a) := of_append _ _
theorem output (a : Addr) : Statement (.output a) := of_append _ _
theorem inc (a : Addr) : Statement (.inc a) := of_append _ _
theorem dec (a : Addr) : Statement (.dec a) := of_append _ _
theorem add (a : Addr) : Statement (.add a) := of_append _ _
theorem sub (a : Addr) : Statement (.sub a) := of_append _ _
theorem mul (a : Addr) : Statement (.mul a) := of_append _ _
theorem div (a : Addr) : Statement (.div a) := of_append _ _
theorem load (a : Addr) : Statement (.load a) := of_append _ _
theorem store (a : Addr) : Statement (.store a) := of_append _ _
theorem swap (a : Addr) : Statement (.swap a) := of_append _ _
theorem hlt (a : Addr) : Statement (.hlt a) := of_append _ _

end Sys2Proof.Laws.EncodingFields
end

