-- ==== Sys2Proof/Laws/Ticks.lean ====
section
/-! SUPPORT. What one tick does, word by shared word: the control words that several sequences hold against the micro-steps
of Machine/Ops.lean, and the fetch tick. -/

namespace Sys2Proof.Machine

/-- A running tick from the signals at its control address. -/
theorem tickRunning_of_signals {s : State} {g : Signals} (h : signalsAt s.mpc = .ok g) :
    tickRunning s = s.attempt (commitSignals s g) id := by
  unfold tickRunning
  rw [currentSignals_eq, h]
  simp only [bind, Except.bind]
  cases commitSignals s g <;> rfl

/-- The simp lemmas that evaluate the signals of a known word are the definitions of the signal groups; this lemma is the
part of the evaluation that every word after the fetch shares. -/
theorem fetchLatch_inside {s : State} (h : s.mpc ≠ 0) : fetchLatch s = .ok s.arg := if_neg h

theorem evalMpc_next {s : State} (h : s.mpc.toNat < 60) : evalMpc s .next = .ok (s.mpc + 1) :=
  if_neg (by omega)

/-- The word `TOS=SLOT MPC=NEXT` (R151, R163). -/
theorem tick_loadTop {s : State} (h : signalsAt s.mpc = .ok { tos := some .slot, mpc := .next }) (h0 : s.mpc ≠ 0)
    (h60 : s.mpc.toNat < 60) : tickRunning s = s.loadTop id := by
  rw [tickRunning_of_signals h]
  cases hs : s.slot <;>
    simp [State.loadTop, commitSignals, fetchLatch_inside h0, evalMpc_next h60, evalSp, evalTos, evalDmw, evalIow, evalSrl,
      evalSlot, evalAlu, evalCsp, evalCsl, evalPc, hs, bind, Except.bind, pure, Except.pure, Except.map, State.toNext]

/-- The word `SP=PREV MPC=NEXT` (R151, R161). -/
theorem tick_lowerTop {s : State} (h : signalsAt s.mpc = .ok { sp := some .prev, mpc := .next }) (h0 : s.mpc ≠ 0)
    (h60 : s.mpc.toNat < 60) : tickRunning s = s.lowerTop id := by
  rw [tickRunning_of_signals h]
  cases hs : s.spPrev <;>
    simp [State.lowerTop, commitSignals, fetchLatch_inside h0, evalMpc_next h60, evalSp, evalTos, evalDmw, evalIow, evalSrl,
      evalSlot, evalAlu, evalCsp, evalCsl, evalPc, hs, bind, Except.bind, pure, Except.pure, State.toNext]

/-- The word `ALU=op MPC=NEXT` (R151, R175). -/
theorem tick_compute {s : State} {op : AluOp} (h : signalsAt s.mpc = .ok { alu := some op, mpc := .next })
    (h0 : s.mpc ≠ 0) (h60 : s.mpc.toNat < 60) : tickRunning s = s.compute op id := by
  rw [tickRunning_of_signals h]
  cases hs : s.aluResult op <;>
    simp [State.compute, commitSignals, fetchLatch_inside h0, evalMpc_next h60, evalSp, evalTos, evalDmw, evalIow, evalSrl,
      evalSlot, evalAlu, evalCsp, evalCsl, evalPc, hs, bind, Except.bind, pure, Except.pure, State.toNext]

/-- The word `TOS=ALU MPC=NEXT` (R151, R162). -/
theorem tick_takeAlu {s : State} (h : signalsAt s.mpc = .ok { tos := some .alu, mpc := .next }) (h0 : s.mpc ≠ 0)
    (h60 : s.mpc.toNat < 60) : tickRunning s = s.takeAlu id := by
  rw [tickRunning_of_signals h]
  simp [State.takeAlu, commitSignals, fetchLatch_inside h0, evalMpc_next h60, evalSp, evalTos, evalDmw, evalIow, evalSrl,
    evalSlot, evalAlu, evalCsp, evalCsl, evalPc, bind, Except.bind, pure, Except.pure, State.toNext]

/-- The word `SLOT=TOS PCL MPC=ZERO` (R151, R163, R172). -/
theorem tick_storeTop {s : State} (h : signalsAt s.mpc = .ok { slot := some .tos, pcl := true, mpc := .zero })
    (h0 : s.mpc ≠ 0) : tickRunning s = s.storeTop := by
  rw [tickRunning_of_signals h]
  cases hs : s.setSlot s.tos <;>
    simp [State.storeTop, commitSignals, fetchLatch_inside h0, evalMpc, evalSp, evalTos, evalDmw, evalIow, evalSrl, evalSlot,
      evalAlu, evalCsp, evalCsl, evalPc, takenOn, hs, bind, Except.bind, pure, Except.pure, State.retire]

/-- A word `PCL COND=c MPC=ZERO` (R151, R172, R173). -/
theorem tick_branch {s : State} {c : Cond} (h : signalsAt s.mpc = .ok { pcl := true, cond := some c, mpc := .zero })
    (h0 : s.mpc ≠ 0) : tickRunning s = s.branch c := by
  rw [tickRunning_of_signals h]
  cases hc : c.holds s.tos <;>
    simp [State.branch, commitSignals, fetchLatch_inside h0, evalMpc, evalSp, evalTos, evalDmw, evalIow, evalSrl, evalSlot,
      evalAlu, evalCsp, evalCsl, evalPc, takenOn, hc, bind, Except.bind, pure, Except.pure, State.retire]

/-- The fetch tick (R150, R170, R174): the field is latched and the lookup selects the entry point, or the run ends. -/
theorem tick_fetch {s : State} (h : s.mpc = 0) :
    tickRunning s =
      match s.fetch with
      | none => s.endRun (.fault .pcRange)
      | some w => s.attempt (lookup w) fun m => s.issue (fieldOf w) m := by
  rw [tickRunning_of_signals (g := { mpc := .opc }) (by rw [h]; exact signals_fetch)]
  cases hf : s.fetch with
  | none => simp [commitSignals, fetchLatch, h, hf, bind, Except.bind]
  | some w =>
    cases hl : lookup w <;>
      simp [commitSignals, fetchLatch, h, hf, hl, evalMpc, evalSp, evalTos, evalDmw, evalIow, evalSrl, evalSlot, evalAlu,
        evalCsp, evalCsl, evalPc, bind, Except.bind, pure, Except.pure, State.issue]

end Sys2Proof.Machine
end

