-- ==== Sys2Proof/Tests/Slice0.lean ====
section
/-! SUPPORT. The tests of this slice: the smoke test of the well-formedness checks, each constructor's decoding on a word
written out from the spec's encoding (R110, R116), vectors of 95_test_vectors.md on single instructions and words, and for
every statement with hypotheses a witness that they can be met. Expected values come from the spec, by name of its vector or
rule. -/

namespace Sys2Proof.Tests

open Sys2Proof.Machine

/-! ### WellFormed: each check refuses a term that is ill-formed by it alone (R126) -/

theorem test_wf_port_sixteen_refused : (Instr.input 16).wellFormed = false ∧ (Instr.output 16).wellFormed = false := by
  decide

theorem test_wf_ignored_field_refused : (Instr.pop 1).wellFormed = false ∧ (Instr.hlt 0x800000).wellFormed = false := by
  decide

theorem test_wf_accepted :
    (Instr.push 0xFFFFFF).wellFormed ∧ (Instr.jmp 0xFFFFFF).wellFormed ∧ (Instr.input 15).wellFormed ∧
      (Instr.pop 0).wellFormed := by decide

/-! ### Decode: words written out as opcode byte and argument field -/

theorem test_decode_push : decode 0x00FFFFFE = .ok (.push 0xFFFFFE) := by decide
theorem test_decode_pop : decode 0x0100002A = .ok (.pop 0x00002A) := by decide
theorem test_decode_jmp : decode 0x02FFFFFF = .ok (.jmp 0xFFFFFF) := by decide
theorem test_decode_jz : decode 0x0300000D = .ok (.jz 0x00000D) := by decide
theorem test_decode_jnz : decode 0x04123456 = .ok (.jnz 0x123456) := by decide
theorem test_decode_js : decode 0x05800000 = .ok (.js 0x800000) := by decide
theorem test_decode_jns : decode 0x067FFFFF = .ok (.jns 0x7FFFFF) := by decide
theorem test_decode_call : decode 0x0700000C = .ok (.call 0x00000C) := by decide
theorem test_decode_ret : decode 0x08000000 = .ok (.ret 0x000000) := by decide
theorem test_decode_input : decode 0x09000000 = .ok (.input 0x000000) := by decide
theorem test_decode_output : decode 0x0A00000F = .ok (.output 0x00000F) := by decide
theorem test_decode_inc : decode 0x0B000000 = .ok (.inc 0x000000) := by decide
theorem test_decode_dec : decode 0x0C000000 = .ok (.dec 0x000000) := by decide
theorem test_decode_add : decode 0x0D000000 = .ok (.add 0x000000) := by decide
theorem test_decode_sub : decode 0x0E000000 = .ok (.sub 0x000000) := by decide
theorem test_decode_mul : decode 0x0F000000 = .ok (.mul 0x000000) := by decide
theorem test_decode_div : decode 0x10000000 = .ok (.div 0x000000) := by decide
theorem test_decode_load : decode 0x11000000 = .ok (.load 0x000000) := by decide
theorem test_decode_store : decode 0x12000000 = .ok (.store 0x000000) := by decide
theorem test_decode_swap : decode 0x13000000 = .ok (.swap 0x000000) := by decide
theorem test_decode_hlt : decode 0x14000000 = .ok (.hlt 0x000000) := by decide

theorem test_decode_illegal :
    decode 0x15000000 = .error (.unknownOpcode 0x15) ∧ decode 0xFF123456 = .error (.unknownOpcode 0xFF) := by decide

theorem test_decodeTableWord : decodeTableWord 32 0x0A00000F = some (.output 15) ∧ decodeTableWord 32 0x15000000 = none := by
  decide

/-- N14: `push 8388608` has no encoding; N5: `push -8388608` has one. -/
theorem test_encodeArgument_edges :
    encodeArgument .literal 8388608 = none ∧ encodeArgument .literal (-8388608) = some 0x800000 ∧
      encodeArgument .port 16 = none ∧ encodeArgument .address (-1) = none := by decide

/-! ### Control words (W1 to W11) -/

theorem test_control_words :
    decodeControl 0x800000 = some { mpc := .opc } ∧
    decodeControl 0x400011 = some { sp := some .next, tos := some .arg, mpc := .next } ∧
    decodeControl 0x010100 = some { slot := some .tos, pcl := true, mpc := .zero } ∧
    decodeControl 0x0D0000 = some { pcl := true, cond := some .jz, mpc := .zero } ∧
    decodeControl 0x610000 = some { pcl := true, rta := true, mpc := .next } ∧
    decodeControl 0x038000 = some { csl := true, pcl := true, jmp := true, mpc := .zero } ∧
    decodeControl 0x400082 = some { sp := some .prev, srl := true, mpc := .next } ∧
    decodeControl 0x010042 = some { sp := some .prev, iow := true, pcl := true, mpc := .zero } := by decide

theorem test_malformed_control_words :
    decodeControl 0xC00000 = none ∧ decodeControl 0x400058 = none ∧ decodeControl 0x0C0000 = none := by decide

/-! ### Small states -/

/-- A reset machine with a stack of capacity `cap` that holds `xs`, bottom first, and data memory of two words. -/
def withStack (cap : Nat) (xs : List Word) : State :=
  { State.reset with
    sp := xs.length - 1, stack := xs ++ List.replicate (cap - xs.length) 0, dmemWords := 2, dmem := [(1, 9)] }

/-- That machine about to fetch `i` at address 0. -/
def ready (i : Instr) (cap : Nat) (xs : List Word) : State := { withStack cap xs with prog := [encode i] }

/-- The state an answer lands in. -/
def landed : Result → Option State
  | .next t => some t
  | _ => none

/-- What most vectors name: the stack, the address, the ticks and the outcome after `i` on the stack `xs`. -/
def after (i : Instr) (xs : List Word) : Option (List Word × Addr × BitVec 64 × RunOutcome) :=
  (landed (exec i (withStack 8 xs))).map fun t => (t.operands, t.pc, t.tick, t.status.outcome)

/-- The fault vectors: the code, the control address and the ticks of the fault that `i` meets on the stack `xs`. -/
def faultOf (cap : Nat) (i : Instr) (xs : List Word) : Option (BitVec 4 × MicroAddr × BitVec 64) :=
  (landed (exec i (withStack cap xs))).map fun t => (t.status.faultCode, t.status.faultMpc, t.tick)

theorem ready_aboutToFetch (i : Instr) (cap : Nat) (xs : List Word) : (ready i cap xs).AboutToFetch i := ⟨rfl, rfl, rfl⟩

theorem ready_inv (i : Instr) {cap : Nat} {xs : List Word} (h : xs.length ≤ cap) (hc : 1 ≤ cap) : (ready i cap xs).Inv := by
  have hlen : (ready i cap xs).stack.length = cap := by simp [ready, withStack]; omega
  refine ⟨?_, ?_, (by decide : (-1 : Int) ≤ -1), (by decide : (-1 : Int) < 4), (by decide : 0 ≤ 60), ?_,
    (by decide : 1 ≤ 4), (by decide : 1 ≤ 2 ^ 24 - 1), ?_, ?_, ?_⟩
  · show -1 ≤ (xs.length : Int) - 1
    omega
  · show (xs.length : Int) - 1 < ((ready i cap xs).stack.length : Int)
    omega
  · show 1 ≤ (ready i cap xs).stack.length
    omega
  · show Memory.wf [(1, 9)]
    decide
  · show ∀ c ∈ [((1 : Nat), (9 : Word))], c.1 < 2
    decide
  · exact ⟨fun _ => rfl, fun _ => rfl, fun e => (by cases e)⟩

/-! ### One instruction each: the vectors S, A, M, C and I -/

/-- S1, S2. -/
theorem test_push : after (.push 72) [] = some ([72], 1, 3, .running) ∧
    after (.push 0x800000) [] = some ([-8388608], 1, 3, .running) := by decide

/-- S3: STACK_OVERFLOW is code 1. -/
theorem test_push_full : faultOf 1 (.push 1) [6] = some (1, 1, 1) := by decide

/-- S4, S5. -/
theorem test_pop : after (.pop 0) [4, 9] = some ([4], 1, 2, .running) ∧ after (.pop 0x2A) [5] = some ([], 1, 2, .running) := by decide

/-- S6. -/
theorem test_pop_empty : faultOf 8 (.pop 0) [] = some (2, 3, 1) := by decide

/-- S7, with `tos` and `sr`. -/
theorem test_swap : after (.swap 0) [1, 4] = some ([4, 1], 1, 7, .running) ∧
    (landed (exec (.swap 0) (withStack 2 [1, 4]))).map (fun t => (t.tos, t.sr, t.operands)) = some (1, 4, [4, 1]) := by decide

/-- S9, S10. -/
theorem test_swap_short : faultOf 8 (.swap 0) [7] = some (2, 57, 3) ∧ faultOf 8 (.swap 0) [] = some (2, 55, 1) := by decide

/-- A1, A2, A23 under WRAP. -/
theorem test_inc : after (.inc 0) [41] = some ([42], 1, 5, .running) ∧ after (.inc 0) [-1] = some ([0], 1, 5, .running) ∧
    after (.inc 0) [2147483647] = some ([-2147483648], 1, 5, .running) := by decide

/-- A3, A4, A24 under WRAP. -/
theorem test_dec : after (.dec 0) [3] = some ([2], 1, 5, .running) ∧ after (.dec 0) [0] = some ([-1], 1, 5, .running) ∧
    after (.dec 0) [-2147483648] = some ([2147483647], 1, 5, .running) := by decide

/-- A22, and A23 under FAULT: ARITH_OVERFLOW is code 8. -/
theorem test_inc_faults : faultOf 8 (.inc 0) [] = some (2, 21, 1) ∧
    (landed (exec (.inc 0) { withStack 8 [2147483647] with overflow := .fault })).map
      (fun t => (t.status.faultCode, t.status.faultMpc, t.tick, t.operands)) = some (8, 22, 2, [2147483647]) := by decide

/-- A24 under FAULT. -/
theorem test_dec_fault : (landed (exec (.dec 0) { withStack 8 [-2147483648] with overflow := .fault })).map
      (fun t => (t.status.faultCode, t.status.faultMpc, t.tick)) = some (8, 26, 2) := by decide

/-- A5, A25 under WRAP. -/
theorem test_add : after (.add 0) [7, 2] = some ([9], 1, 6, .running) ∧
    after (.add 0) [2147483647, 1] = some ([-2147483648], 1, 6, .running) := by decide

/-- A20, with what it leaves. -/
theorem test_add_short : faultOf 8 (.add 0) [3] = some (2, 31, 3) ∧
    (landed (exec (.add 0) (withStack 8 [3]))).map (fun t => (t.sp, t.tos)) = some (-1, 3) := by decide

/-- A6, A7, A27. -/
theorem test_sub : after (.sub 0) [7, 2] = some ([5], 1, 6, .running) ∧ after (.sub 0) [2, 7] = some ([-5], 1, 6, .running) ∧
    after (.sub 0) [0, -2147483648] = some ([-2147483648], 1, 6, .running) := by decide

/-- A9, A29, A30. -/
theorem test_mul : after (.mul 0) [-4, 3] = some ([-12], 1, 6, .running) ∧ after (.mul 0) [46341, 46341] = some ([-2147479015], 1, 6, .running) ∧
    after (.mul 0) [-2147483648, -1] = some ([-2147483648], 1, 6, .running) := by decide

/-- A21. -/
theorem test_mul_empty : faultOf 8 (.mul 0) [] = some (2, 39, 1) := by decide

/-- A10 to A16. -/
theorem test_div : after (.div 0) [7, 2] = some ([3], 1, 6, .running) ∧
    after (.div 0) [-7, 2] = some ([-4], 1, 6, .running) ∧
    after (.div 0) [7, -2] = some ([-4], 1, 6, .running) ∧
    after (.div 0) [-7, -2] = some ([3], 1, 6, .running) ∧
    after (.div 0) [0, -5] = some ([0], 1, 6, .running) ∧
    after (.div 0) [15, -2] = some ([-8], 1, 6, .running) := ⟨by decide, by decide, by decide, by decide, by decide, by decide⟩

/-- A18, A19, and A31 under both policies: DIV_BY_ZERO is code 7. -/
theorem test_div_faults : faultOf 8 (.div 0) [5, 0] = some (7, 46, 3) ∧ faultOf 8 (.div 0) [0, 0] = some (7, 46, 3) ∧
    after (.div 0) [-2147483648, -1] = some ([-2147483648], 1, 6, .running) ∧
    (landed (exec (.div 0) { withStack 8 [-2147483648, -1] with overflow := .fault })).map
      (fun t => (t.status.faultCode, t.status.faultMpc, t.tick)) = some (8, 46, 3) := by decide

/-- M1, M2. -/
theorem test_load : after (.load 0) [1] = some ([9], 1, 4, .running) ∧ after (.load 0) [0] = some ([0], 1, 4, .running) := by decide

/-- M3, M4, M5: DATA_ADDRESS is code 6. -/
theorem test_load_faults : faultOf 8 (.load 0) [2] = some (6, 50, 2) ∧ faultOf 8 (.load 0) [-1] = some (6, 50, 2) ∧ faultOf 8 (.load 0) [] = some (2, 49, 1) := by decide

/-- M6, M7, and a stored 0 leaving no cell. -/
theorem test_store : (landed (exec (.store 0) (withStack 8 [0, -3]))).map (fun t => (t.operands, t.dmem, t.tick)) = some ([0], [(0, -3), (1, 9)], 4) ∧
    (landed (exec (.store 0) (withStack 8 [1, 0]))).map (fun t => (t.operands, t.dmem, t.tick)) = some ([1], [], 4) := by decide

/-- M8, M9, M10. -/
theorem test_store_faults : faultOf 8 (.store 0) [2, 5] = some (6, 54, 3) ∧ faultOf 8 (.store 0) [9] = some (2, 54, 3) ∧ faultOf 8 (.store 0) [] = some (2, 52, 1) := by decide

/-- C11. -/
theorem test_jmp : after (.jmp 5) [] = some ([], 5, 2, .running) := by decide

/-- C1, C2. -/
theorem test_jz : after (.jz 5) [0] = some ([0], 5, 3, .running) ∧ after (.jz 5) [1] = some ([1], 1, 3, .running) := by decide

/-- C10. -/
theorem test_jz_empty : faultOf 8 (.jz 5) [] = some (2, 5, 1) := by decide

/-- C3, C4. -/
theorem test_jnz : after (.jnz 5) [-3] = some ([-3], 5, 3, .running) ∧ after (.jnz 5) [0] = some ([0], 1, 3, .running) := by decide

/-- C5, C6, C9. -/
theorem test_js : after (.js 5) [-1] = some ([-1], 5, 3, .running) ∧ after (.js 5) [0] = some ([0], 1, 3, .running) ∧
    after (.js 5) [-2147483648] = some ([-2147483648], 5, 3, .running) := by decide

/-- C7, C8, C9. -/
theorem test_jns : after (.jns 5) [0] = some ([0], 5, 3, .running) ∧ after (.jns 5) [-1] = some ([-1], 1, 3, .running) ∧
    after (.jns 5) [-2147483648] = some ([-2147483648], 1, 3, .running) := by decide

/-- C13, at address 2. -/
theorem test_call : (landed (exec (.call 5) { withStack 8 [] with pc := 2 })).map (fun t => (t.pc, t.scp, t.links, t.tick)) =
    some (5, 0, [3], 3) := by decide

/-- C14: CALL_STACK_OVERFLOW is code 3. -/
theorem test_call_full : (landed (exec (.call 5) { withStack 8 [] with scp := 3 })).map
    (fun t => (t.status.faultCode, t.status.faultMpc, t.tick)) = some (3, 13, 1) := by decide

/-- C15. -/
theorem test_ret : (landed (exec (.ret 0) { withStack 8 [] with scp := 0, cstack := [3, 0, 0, 0] })).map
    (fun t => (t.pc, t.scp, t.tick)) = some (3, -1, 3) := by decide

/-- C16: CALL_STACK_UNDERFLOW is code 4. -/
theorem test_ret_empty : faultOf 8 (.ret 0) [] = some (4, 15, 1) := by decide

/-- C17, at address 2 and tick 5. -/
theorem test_hlt : (landed (exec (.hlt 0) { withStack 8 [] with pc := 2, tick := 5 })).map
    (fun t => (t.status, t.pc, t.tick)) = some (⟨.halted, 0, 2, 0⟩, 2, 5) := by decide

/-- I1, I2. -/
theorem test_input : (landed (exec (.input 0) { withStack 8 [] with ports := (Vector.replicate 16 []).set 0 [97, 98] })).map
      (fun t => (t.operands, t.ports[0], t.tick)) = some ([97], [98], 3) ∧
    (landed (exec (.input 3) (withStack 8 []))).map (fun t => (t.status, t.tick)) = some (⟨.inputExhausted, 0, 0, 17⟩, 1) := by decide

/-- I3, I4: BAD_PORT is code 5, and STACK_OVERFLOW comes first. -/
theorem test_input_faults : faultOf 8 (.input 16) [] = some (5, 17, 1) ∧ faultOf 1 (.input 16) [1] = some (1, 17, 1) := by decide

/-- I5, I9. -/
theorem test_output : (landed (exec (.output 1) (withStack 8 [72]))).map (fun t => (t.operands, t.ports[1], t.tick)) = some ([], [72], 3) ∧
    (landed (exec (.output 1) (withStack 8 [-1]))).map (fun t => (t.operands, t.ports[1], t.tick)) = some ([], [-1], 3) := by decide

/-- I7, I8. -/
theorem test_output_faults : faultOf 8 (.output 16) [5] = some (5, 20, 2) ∧ faultOf 8 (.output 1) [] = some (2, 19, 1) := by decide

/-! ### The tick level on the same vectors, and the launch -/

/-- S7 by its seven ticks. -/
theorem test_ticks_swap : (runTicks 7 (ready (.swap 0) 2 [1, 4])).operands = [4, 1] ∧ (runTicks 7 (ready (.swap 0) 2 [1, 4])).mpc = 0 := by decide

/-- C13 by its three ticks. -/
theorem test_ticks_call : (runTicks 3 (ready (.call 5) 1 [])).pc = 5 ∧ (runTicks 3 (ready (.call 5) 1 [])).links = [1] := by decide

/-- R1: PC_RANGE is code 10. -/
theorem test_reset_fetch : (landed (step State.reset)).map (fun t => (t.status, t.tick)) = some (⟨.fault, 10, 0, 0⟩, 0) := by decide

/-- R4 and R5. -/
theorem test_launch_words : wordsOfFile [0x48, 0, 0, 0, 0x01, 0, 0, 0x0A, 0, 0, 0, 0x14] = some [0x00000048, 0x0A000001, 0x14000000] ∧
    wordsOfFile [0xFE, 0xFF, 0xFF, 0xFF, 3, 0, 0, 0] = some [-2, 3] ∧ wordsOfFile [1, 2, 3, 4, 5] = none := by decide

/-- R7. -/
theorem test_launch_input : (landed (launch .conventional [] [] ['a', 'b'])).map (fun t => t.ports[0]) = some [97, 98] := by decide

/-- `withFetchWord` on the state after reset, for the word of `push 72`. -/
theorem test_placed_word : (landed (step (State.reset.withFetchWord 32 0x00000048))).map (fun t => (t.operands, t.pc)) = some ([72], 1) := by decide

/-! ### Witnesses: states and operands that meet the hypotheses of each statement, one for each clause -/

/-- The short form of a witness for a statement about an instruction: the state runs and is about to fetch it. -/
theorem ready_running (i : Instr) (cap : Nat) (xs : List Word) :
    (ready i cap xs).Running ∧ (ready i cap xs).AboutToFetch i := ⟨rfl, ready_aboutToFetch i cap xs⟩

theorem witness_EncodeOfDecode : decode 0x14FFFFFF = .ok (.hlt 0xFFFFFF) := by decide

theorem witness_EncodingArithmetic :
    (Instr.push 0xFFFFFF).field = fieldOfArgument (-1) ∧ encodeArgument .none 0 = some 0 := by decide

theorem witness_ToolchainArgumentRanges :
    encodeArgument .literal (-8388608) = some 0x800000 ∧ encodeArgument .literal 8388607 = some 0x7FFFFF ∧
      encodeArgument .address 0 = some 0 ∧ encodeArgument .address 16777215 = some 0xFFFFFF ∧
      encodeArgument .port 0 = some 0 ∧ encodeArgument .port 15 = some 15 ∧ encodeArgument .none 0 = some 0 := by decide

theorem witness_StepRunsTheDecodedInstruction :
    let s := ready (.push 72) 1 []
    s.Running ∧ s.mpc = 0 ∧ s.prog[s.pc.toNat]? = some 0x00000048 ∧ decode 0x00000048 = .ok (.push 72) := by decide

/-- A word placed among the program's words, with one kept on each side of it, and one placed two addresses past its end. -/
theorem witness_PlacedWordRuns :
    let s : State := { State.reset with prog := [0x02000001, 0x14000000, 0x01000000], pc := 1 }
    let t : State := { s with pc := 5 }
    decode 0x00000048 = .ok (.push 72) ∧
    ((0 < s.prog.length ∧ 0 ≠ s.pc.toNat) ∧ 2 < s.prog.length ∧ 2 ≠ s.pc.toNat) ∧
    (s.prog.length ≤ 3 ∧ s.pc.toNat < 3) ∧
    ((t.prog.length ≤ 3 ∧ 3 < t.pc.toNat) ∧ t.prog.length ≤ 4 ∧ 4 < t.pc.toNat) ∧
    t.prog.length ≤ 6 ∧ t.pc.toNat < 6 := by decide

theorem witness_FetchBeyondProgramFaults :
    let s : State := { ready (.push 72) 1 [] with pc := 1 }
    s.Running ∧ s.mpc = 0 ∧ s.prog.length ≤ s.pc.toNat := by decide

theorem witness_IllegalOpcodeFaults :
    let s : State := { State.reset with prog := [0x15000000] }
    let t : State := { State.reset with prog := [0xFFFFFFFF] }
    (0x15 ≤ (opcodeOf 0x15000000).toNat ∧ s.Running ∧ s.mpc = 0 ∧ s.fetch = some 0x15000000) ∧
      0x15 ≤ (opcodeOf 0xFFFFFFFF).toNat ∧ t.Running ∧ t.mpc = 0 ∧ t.fetch = some 0xFFFFFFFF := by decide

/-- The last address of the longest program: 2^24 − 2 of 2^24 − 1 words. -/
theorem witness_FetchedPcNeverWraps :
    let s : State := { ready (.push 72) 1 [] with prog := List.replicate (2 ^ 24 - 1) 0x14000000, pc := 0xFFFFFE }
    s.Inv ∧ s.fetch = some 0x14000000 := by
  refine ⟨?_, ?_⟩
  · have h := ready_inv (.push 72) (cap := 1) (xs := []) (by decide) (by decide)
    exact ⟨h.sp_low, h.sp_high, h.scp_low, h.scp_high, h.mpc_valid, h.stackCap_pos, h.callCap_pos,
      le_of_eq List.length_replicate, h.dmem_wf, h.dmem_inside, h.status_legal⟩
  · exact List.getElem?_replicate_of_lt (by decide)

/-! #### The instructions: each clause of each rule -/

theorem witness_PushRule :
    let s := ready (.push (fieldOfArgument (-8388608))) 1 [5]
    let t := ready (.push (fieldOfArgument 8388607)) 2 [5]
    let u := ready (.push 0) 1 []
    s.sp = s.stackCap - 1 ∧ (-1 ≤ t.sp ∧ t.sp < t.stackCap - 1) ∧ -1 ≤ u.sp ∧ u.sp < u.stackCap - 1 := by decide

theorem witness_PopRule : (ready (.pop 7) 1 []).sp = -1 ∧ 0 ≤ (ready (.pop 0) 1 [5]).sp := by decide

/-- The three depths that SWAP, the binary operations and STORE tell apart, and what each finds in its slots. -/
theorem witness_depths (i : Instr) (a b : Word) :
    (ready i 2 []).sp = -1 ∧ ((ready i 2 [b]).sp = 0 ∧ (ready i 2 [b]).stack[0]? = some b) ∧
      1 ≤ (ready i 2 [a, b]).sp ∧ (ready i 2 [a, b]).stack[(ready i 2 [a, b]).sp.toNat - 1]? = some a ∧
      (ready i 2 [a, b]).stack[(ready i 2 [a, b]).sp.toNat]? = some b :=
  ⟨rfl, ⟨rfl, rfl⟩, (by decide : (1 : Int) ≤ 2 - 1), rfl, rfl⟩

theorem witness_SwapRule :
    (ready (.swap 0) 2 []).sp = -1 ∧ (ready (.swap 0) 2 [7]).sp = 0 ∧ 1 ≤ (ready (.swap 0) 2 [1, 4]).sp :=
  ⟨rfl, rfl, (witness_depths (.swap 0) 1 4).2.2.1⟩

/-- Both results of the ALU that `UnaryRule` tells apart, at the edges of the word range. -/
theorem witness_IncRule :
    let s : State := { ready (.inc 0) 1 [2147483647] with overflow := .fault }
    let t := ready (.inc 0) 1 [2147483647]
    (ready (.inc 0) 1 []).sp = -1 ∧
    (0 ≤ s.sp ∧ s.stack[s.sp.toNat]? = some 2147483647 ∧
      aluOp s.overflow .inc 0 2147483647 = .error (.fault .arithOverflow)) ∧
    (0 ≤ t.sp ∧ t.stack[t.sp.toNat]? = some 2147483647 ∧ aluOp t.overflow .inc 0 2147483647 = .ok (-2147483648)) ∧
    (2147483647 : Word).toInt = intMax ∧ (2147483646 : Word).toInt ≠ intMax := by
  refine ⟨by decide, by decide, by decide, by decide, by decide⟩

theorem witness_DecRule :
    let s : State := { ready (.dec 0) 1 [-2147483648] with overflow := .fault }
    let t := ready (.dec 0) 1 [-2147483648]
    (ready (.dec 0) 1 []).sp = -1 ∧
    (0 ≤ s.sp ∧ s.stack[s.sp.toNat]? = some (-2147483648) ∧
      aluOp s.overflow .dec 0 (-2147483648) = .error (.fault .arithOverflow)) ∧
    (0 ≤ t.sp ∧ t.stack[t.sp.toNat]? = some (-2147483648) ∧ aluOp t.overflow .dec 0 (-2147483648) = .ok 2147483647) ∧
    (-2147483648 : Word).toInt = intMin ∧ (-2147483647 : Word).toInt ≠ intMin := by
  refine ⟨by decide, by decide, by decide, by decide, by decide⟩

/-- With `witness_depths`: operands one step outside and just inside the word range. -/
theorem witness_AddRule :
    (intMax < (2147483647 : Word).toInt + (1 : Word).toInt ∧
      aluOp .fault .add 2147483647 1 = .error (.fault .arithOverflow)) ∧
    (-2147483648 : Word).toInt + (-1 : Word).toInt < intMin ∧
    (intMin ≤ (2147483646 : Word).toInt + (1 : Word).toInt ∧ (2147483646 : Word).toInt + (1 : Word).toInt ≤ intMax ∧
      aluOp .wrap .add 2147483646 1 = .ok 2147483647) := by
  refine ⟨by decide, by decide, by decide⟩

theorem witness_SubRule :
    ((-2147483648 : Word).toInt - (1 : Word).toInt < intMin ∧
      aluOp .fault .sub (-2147483648) 1 = .error (.fault .arithOverflow)) ∧
    intMax < (0 : Word).toInt - (-2147483648 : Word).toInt ∧
    (intMin ≤ (-2147483648 : Word).toInt - (0 : Word).toInt ∧ (-2147483648 : Word).toInt - (0 : Word).toInt ≤ intMax ∧
      aluOp .wrap .sub (-2147483648) 0 = .ok (-2147483648)) := by
  refine ⟨by decide, by decide, by decide⟩

theorem witness_MulRule :
    (intMax < (46341 : Word).toInt * (46341 : Word).toInt ∧
      aluOp .fault .mul 46341 46341 = .error (.fault .arithOverflow)) ∧
    (-2147483648 : Word).toInt * (2 : Word).toInt < intMin ∧
    (intMin ≤ (65536 : Word).toInt * (-32768 : Word).toInt ∧ (65536 : Word).toInt * (-32768 : Word).toInt ≤ intMax ∧
      aluOp .wrap .mul 65536 (-32768) = .ok (-2147483648)) := by
  refine ⟨by decide, by decide, by decide⟩

theorem witness_DivRule :
    aluOp .wrap .div 5 0 = .error (.fault .divByZero) ∧
    ((-2147483648 : Word).toInt = intMin ∧ (-1 : Word).toInt = -1) ∧
    ((-1 : Word) ≠ 0 ∧ ¬((-2147483647 : Word).toInt = intMin ∧ (-1 : Word).toInt = -1) ∧
      aluOp .wrap .div (-2147483647) (-1) = .ok 2147483647) := by
  refine ⟨by decide, by decide, by decide⟩

/-- Data addresses −1 and 2 lie outside, 0 and 1 inside, a data memory of two words. -/
theorem witness_LoadRule :
    (ready (.load 0) 1 []).sp = -1 ∧
    (∀ a : Word, 0 ≤ (ready (.load 0) 1 [a]).sp ∧
      (ready (.load 0) 1 [a]).stack[(ready (.load 0) 1 [a]).sp.toNat]? = some a) ∧
    (-1 : Word).toInt < 0 ∧ (2 : Word).toInt ≥ (ready (.load 0) 1 [2]).dmemWords ∧ 0 ≤ (0 : Word).toInt ∧
    (1 : Word).toInt < (ready (.load 0) 1 [1]).dmemWords := by
  refine ⟨by decide, fun _ => ⟨(by decide : (0 : Int) ≤ 1 - 1), rfl⟩, by decide, by decide, by decide, by decide⟩

/-- With `witness_depths`: the same addresses beneath a value, and a memory in canonical form. -/
theorem witness_StoreRule :
    let s := ready (.store 0) 2 [1, 9]
    (-1 : Word).toInt < 0 ∧ (2 : Word).toInt ≥ s.dmemWords ∧ 0 ≤ (0 : Word).toInt ∧ (1 : Word).toInt < s.dmemWords ∧
      s.dmem.wf := by
  refine ⟨by decide, by decide, by decide, by decide, by decide⟩

theorem witness_JmpRule :
    (ready (.jmp 1) 1 []).prog.length ≤ (1 : Addr).toNat ∧ (ready (.jmp 0xFFFFFF) 1 []).Running := by decide

/-- The four conditions: an empty stack, and for each a word that takes the jump and one that does not. -/
theorem witness_ConditionalRules :
    (ready (.jz 5) 1 []).sp = -1 ∧
    (∀ v : Word, 0 ≤ (ready (.jz 5) 1 [v]).sp ∧
      (ready (.jz 5) 1 [v]).stack[(ready (.jz 5) 1 [v]).sp.toNat]? = some v) ∧
    ((0 : Word).toInt = 0 ∧ ¬(1 : Word).toInt = 0) ∧ ((1 : Word).toInt ≠ 0 ∧ ¬(0 : Word).toInt ≠ 0) ∧
    ((-1 : Word).toInt < 0 ∧ ¬(0 : Word).toInt < 0) ∧ ((0 : Word).toInt ≥ 0 ∧ ¬(-1 : Word).toInt ≥ 0) := by
  refine ⟨by decide, fun _ => ⟨(by decide : (0 : Int) ≤ 1 - 1), rfl⟩, by decide, by decide, by decide, by decide⟩

theorem witness_CallRule :
    let s : State := { ready (.call 5) 1 [] with scp := 3 }
    let t : State := { ready (.call 5) 1 [] with scp := 2 }
    s.scp = s.callCap - 1 ∧ (-1 ≤ t.scp ∧ t.scp < t.callCap - 1) ∧ -1 ≤ (ready (.call 5) 1 []).scp := by decide

theorem witness_RetRule :
    let s : State := { ready (.ret 0) 1 [] with scp := 0, cstack := [3, 0, 0, 0] }
    (ready (.ret 0) 1 []).scp = -1 ∧ 0 ≤ s.scp ∧ s.cstack[s.scp.toNat]? = some 3 := by decide

theorem witness_HltRule :
    let s := ready (.hlt 0) 1 []
    let t : State := { ready (.hlt 0) 1 [] with pc := 1 }
    (s.Running ∧ s.mpc = 0) ∧ t.Running ∧ t.mpc = 0 ∧ t.prog.length ≤ t.pc.toNat := by decide

theorem witness_InputRule :
    let s := ready (.input 16) 1 []
    let t : State := { ready (.input 15) 1 [] with ports := (Vector.replicate 16 []).set 15 [97, 98] }
    (ready (.input 16) 1 [1]).sp = (ready (.input 16) 1 [1]).stackCap - 1 ∧
    (-1 ≤ s.sp ∧ s.sp < s.stackCap - 1 ∧ 16 ≤ (16 : Addr).toNat) ∧ (s.ports[0] = [] ∧ s.ports[15] = []) ∧
    (-1 ≤ t.sp ∧ t.sp < t.stackCap - 1 ∧ (15 : Addr).toNat < 16 ∧ t.ports[15] = [97, 98]) := by
  refine ⟨by decide, by decide, by decide, by decide⟩

theorem witness_OutputRule :
    let s := ready (.output 16) 1 [72]
    (ready (.output 16) 1 []).sp = -1 ∧ (0 ≤ s.sp ∧ s.stack[s.sp.toNat]? = some 72 ∧ 16 ≤ (16 : Addr).toNat) ∧
    (0 ≤ (ready (.output 15) 1 [72]).sp ∧ (15 : Addr).toNat < 16) := by
  refine ⟨by decide, by decide, by decide⟩

/-! #### The machine as a whole -/

theorem witness_AluFunction :
    (0 : Word).toInt = 0 ∧ ¬(AluOp.div = .div ∧ (1 : Word).toInt = 0) ∧
    (-2147483648 ≤ (2147483646 : Word).toInt + 1 ∧ (2147483646 : Word).toInt + 1 ≤ 2147483647) ∧
    2147483647 < (2147483647 : Word).toInt + 1 ∧ (-2147483648 : Word).toInt - 1 < -2147483648 := by
  refine ⟨by decide, by decide, by decide, by decide, by decide⟩

theorem witness_DivisionRoundsDown :
    (aluOp .fault .div (-2147483648) 1 = .ok (-2147483648) ∧ 0 < (1 : Word).toInt) ∧
    aluOp .fault .div (-2147483647) (-1) = .ok 2147483647 ∧ (-1 : Word).toInt < 0 ∧
    ¬((-2147483647 : Word).toInt = intMin ∧ (-1 : Word).toInt = -1) := by
  refine ⟨by decide, by decide, by decide, by decide⟩

theorem witness_InstructionIsItsTicks : (ready (.swap 0) 2 [1, 4]).AboutToFetch (.swap 0) := ready_aboutToFetch _ _ _

theorem witness_SequentialOrderGivesTheSameTick : (ready (.call 5) 1 []).Running := rfl

theorem witness_ControlStoreIsWellFormed : (0x00 : BitVec 8).toNat < 0x14 ∧ 0x14 ≤ (0x14 : BitVec 8).toNat := by decide

/-- An invariant state with a next state, at an instruction's start and inside one. -/
theorem witness_StepKeepsInvariant :
    (ready (.push 72) 1 []).Inv ∧ ∃ t, step (ready (.push 72) 1 []) = .next t :=
  ⟨ready_inv _ (by decide) (by decide), _, rfl⟩

theorem witness_TickKeepsInvariant :
    (ready (.push 72) 1 []).Inv ∧ ∃ t, takeTick (ready (.push 72) 1 []) = some t :=
  ⟨ready_inv _ (by decide) (by decide), _, rfl⟩

/-- A tick that completes, and one that ends the run. -/
theorem witness_TerminalTickChangesOnlyStatus :
    ((takeTick (ready (.pop 0) 1 [])).map fun t => decide t.Running) = some true ∧
    ((takeTick State.reset).map fun t => decide t.Running) = some false := by decide

theorem witness_EndedRunTakesNoFurtherTick : (State.reset.endRun .halted).Ended := by decide

/-- Two different states that agree on everything architectural. -/
theorem witness_MicroarchitecturalStateIsUnobservable :
    let s := ready (.add 0) 2 [7]
    let t : State := { s with tos := 1, sr := 2, alu := 3, arg := 4, stack := [7, 8], cstack := [1, 2, 3, 4] }
    s.Inv ∧ s.Running ∧ s.mpc = 0 ∧ s.SameArchitectural t ∧ s ≠ t := by
  refine ⟨ready_inv _ (by decide) (by decide), rfl, rfl, ?_, by decide⟩
  constructor <;> rfl

/-- An instruction that completes, one that ends the run in its own ticks, and one that ends it in its fetch. -/
theorem witness_TickCounts :
    (landed (exec (.push 72) (ready (.push 72) 1 []))).map (fun t => t.status.outcome) = some .running ∧
    (landed (exec (.pop 0) (ready (.pop 0) 1 []))).map (fun t => t.status.outcome) = some .fault ∧
    (landed (exec (.hlt 0) (ready (.hlt 0) 1 []))).map (fun t => t.status.outcome) = some .halted ∧
    entryPoint (Instr.pop 0).opcode = some 3 ∧ entryPoint (Instr.hlt 0).opcode = none := by
  refine ⟨by decide, by decide, by decide, by decide, by decide⟩

/-- SWAP on a full stack of three changes the slots 1 and 2, and PUSH the slot above the top. -/
theorem witness_StackDepthChange :
    ((ready (.swap 0) 3 [6, 1, 4]).Inv ∧
      ∃ t, exec (.swap 0) (ready (.swap 0) 3 [6, 1, 4]) = .next t ∧ t.Running ∧
        t.stack[1]? ≠ (ready (.swap 0) 3 [6, 1, 4]).stack[1]? ∧ t.stack[2]? ≠ (ready (.swap 0) 3 [6, 1, 4]).stack[2]?) ∧
    (ready (.push 72) 1 []).Inv ∧
      ∃ t, exec (.push 72) (ready (.push 72) 1 []) = .next t ∧ t.Running ∧
        t.stack[0]? ≠ (ready (.push 72) 1 []).stack[0]? :=
  ⟨⟨ready_inv _ (by decide) (by decide), _, rfl, rfl, by decide, by decide⟩,
    ready_inv _ (by decide) (by decide), _, rfl, rfl, by decide⟩

theorem witness_TerminalConditionsPerInstruction :
    (ready (.input 16) 1 []).Inv ∧ ∃ t, exec (.input 16) (ready (.input 16) 1 []) = .next t ∧ t.Ended :=
  ⟨ready_inv _ (by decide) (by decide), _, rfl, by decide⟩

theorem witness_OnlyStoreWritesDataMemory :
    (ready (.store 0) 2 [0, 5]).Inv ∧
    ∃ t, exec (.store 0) (ready (.store 0) 2 [0, 5]) = .next t ∧
      t.dmem.read 0 ≠ (ready (.store 0) 2 [0, 5]).dmem.read 0 :=
  ⟨ready_inv _ (by decide) (by decide), _, rfl, by decide⟩

theorem witness_CallStackChangesOnlyInCallAndRet :
    (ready (.call 5) 1 []).Inv ∧
    ∃ t, exec (.call 5) (ready (.call 5) 1 []) = .next t ∧ t.scp ≠ (ready (.call 5) 1 []).scp ∧
      t.cstack[0]? ≠ (ready (.call 5) 1 []).cstack[0]? :=
  ⟨ready_inv _ (by decide) (by decide), _, rfl, by decide, by decide⟩

theorem witness_PortsChangeOnlyInPortInstructions :
    ∃ t, exec (.output 15) (ready (.output 15) 1 [72]) = .next t ∧
      t.ports[(15 : Fin 16)] ≠ (ready (.output 15) 1 [72]).ports[(15 : Fin 16)] :=
  ⟨_, rfl, by decide⟩

theorem witness_LaunchConstantsNeverChange : ∃ t, step (ready (.push 72) 1 []) = .next t := ⟨_, rfl⟩

theorem witness_PointersMoveByAtMostOne :
    (takeTick { ready (.push 72) 1 [] with mpc := 1 }).map (fun t => t.sp) = some 0 ∧
    (takeTick { ready (.call 5) 1 [] with mpc := 13 }).map (fun t => t.scp) = some 0 := by decide

theorem witness_CallThenRetReturns :
    let s : State := { ready (.call 5) 1 [] with scp := 2 }
    s.Running ∧ -1 ≤ s.scp ∧ s.scp < s.callCap - 1 := by decide

theorem witness_OutputThenInputIsFifo :
    let s := ready (.output 15) 1 [72]
    let t : State := { s with ports := (Vector.replicate 16 []).set 15 [97, 98] }
    (15 : Addr).toNat < 16 ∧ s.Running ∧ 0 ≤ s.sp ∧ s.stack[s.sp.toNat]? = some 72 ∧ s.ports[15] = [] ∧
      t.ports[15] = [97, 98] := by
  refine ⟨by decide, by decide, by decide, by decide, by decide, by decide⟩

theorem witness_StoreThenLoadReadsBack :
    let s := ready (.store 0) 2 [1, 0]
    s.Running ∧ s.dmem.wf ∧ 1 ≤ s.sp ∧ s.stack[s.sp.toNat - 1]? = some 1 ∧ s.stack[s.sp.toNat]? = some 0 ∧
      0 ≤ (1 : Word).toInt ∧ (1 : Word).toInt < s.dmemWords := by
  refine ⟨by decide, by decide, by decide, by decide, by decide, by decide, by decide⟩

theorem witness_SwapTwiceRestoresTheStack :
    let s := ready (.swap 0) 2 [1, 4]
    s.Running ∧ 1 ≤ s.sp ∧ s.sp < s.stackCap := by decide

/-- One launch for each ground of refusal alone, and two with none: a data memory just large enough, and the default. -/
theorem witness_LaunchLoadsTheImages :
    let P0 : List Byte := [1]
    let P2 : List Byte := [0, 0, 0, 0x14]
    let Q1 : List Byte := [1, 2, 3, 4, 5]
    let Q2 : List Byte := [9, 0, 0, 0]
    P0.length % 4 ≠ 0 ∧ (2 ^ 26 / 4 > 2 ^ 24 - 1 ∧ (List.replicate (2 ^ 26) (0 : Byte)).length = 2 ^ 26) ∧
    Q1.length % 4 ≠ 0 ∧ (some 0).getD (Q2.length / 4) < Q2.length / 4 ∧
    ∀ words ∈ [some 1, none],
      ¬(P2.length % 4 ≠ 0 ∨ P2.length / 4 > 2 ^ 24 - 1 ∨ Q2.length % 4 ≠ 0 ∨
        words.getD (Q2.length / 4) < Q2.length / 4) := by
  refine ⟨by decide, ⟨by decide, List.length_replicate⟩, by decide, by decide, by decide⟩

/-- The premises of each clause, on launches that have a later ground as well. -/
theorem witness_LaunchRefusalReasons :
    let P0 : List Byte := [1]
    let P2 : List Byte := [0, 0, 0, 0x14]
    let Q1 : List Byte := [1, 2, 3, 4, 5]
    let Q2 : List Byte := [9, 0, 0, 0]
    (P0.length % 4 ≠ 0 ∧ Q1.length % 4 ≠ 0) ∧
    ((List.replicate (2 ^ 26) (0 : Byte)).length = 2 ^ 26 ∧ 2 ^ 26 % 4 = 0 ∧ 2 ^ 26 / 4 > 2 ^ 24 - 1) ∧
    (P2.length % 4 = 0 ∧ P2.length / 4 ≤ 2 ^ 24 - 1) ∧
    (Q1.length % 4 ≠ 0 ∧ (some 0).getD (Q1.length / 4) < Q1.length / 4) ∧
    Q2.length % 4 = 0 ∧ (some 0).getD (Q2.length / 4) < Q2.length / 4 := by
  refine ⟨by decide, ⟨List.length_replicate, by decide, by decide⟩, by decide, by decide, by decide⟩

theorem witness_LaunchedStateIsCleanEntry :
    Params.conventional.wf ∧
    ∃ s, launch .conventional [0, 0, 0, 0x14] [9, 0, 0, 0] ['a'] = .next s := ⟨by decide, _, rfl⟩

end Sys2Proof.Tests
end

section
/-! Noninterference (10_state.md R47): two states that agree on the architectural state go on agreeing through every
micro-step of every instruction. -/

namespace Sys2Proof.Machine

/-! ### A step, by where it starts and what the fetch gives -/

theorem step_ended {s : State} (h : s.Ended) : step s = .fault .runEnded := if_pos h

theorem step_inside {s : State} (hr : s.Running) (h0 : s.mpc ≠ 0) : step s = .next (tickRunning s) := by
  rw [step, if_neg (not_not_intro hr), if_neg h0]

theorem step_fetch_ok {s : State} {i : Instr} (hr : s.Running) (h0 : s.mpc = 0) (hf : fetchInstr s = .ok i) :
    step s = exec i s := by
  simp only [step, ne_eq, hr, not_true_eq_false, if_false, h0, if_true, hf]

theorem step_fetch_error {s : State} {x : Terminal} (hr : s.Running) (h0 : s.mpc = 0) (hf : fetchInstr s = .error x) :
    step s = .next (s.endRun x) := by
  simp only [step, ne_eq, hr, not_true_eq_false, if_false, h0, if_true, hf]

/-! ### Register files that agree below a depth -/

/-- Two register files of one size that hold the same in every entry below `d`. -/
structure SameBelow {α : Type} (d : Int) (xs ys : List α) : Prop where
  length : xs.length = ys.length
  entry : ∀ k : Nat, (k : Int) < d → xs[k]? = ys[k]?

/-- The live part of a file, as `State.operands` and `State.links` write it. -/
theorem SameBelow.of_take {α : Type} {d : Int} {xs ys : List α} (hl : xs.length = ys.length)
    (h : xs.take d.toNat = ys.take d.toNat) : SameBelow d xs ys where
  length := hl
  entry k hk := by
    have hk' : k < d.toNat := by omega
    rw [← List.getElem?_take_of_lt hk', h, List.getElem?_take_of_lt hk']

theorem SameBelow.take_eq {α : Type} {d n : Int} {xs ys : List α} (h : SameBelow d xs ys) (hn : n ≤ d) :
    xs.take n.toNat = ys.take n.toNat := by
  refine List.ext_getElem? fun k => ?_
  by_cases hk : k < n.toNat
  · rw [List.getElem?_take_of_lt hk, List.getElem?_take_of_lt hk, h.entry k (by omega)]
  · rw [List.getElem?_eq_none (by simp; omega), List.getElem?_eq_none (by simp; omega)]

theorem SameBelow.getD_eq {α : Type} {d p : Int} {xs ys : List α} (h : SameBelow d xs ys) (h0 : 0 ≤ p) (hp : p < d)
    (a : α) : xs.getD p.toNat a = ys.getD p.toNat a := by
  rw [List.getD_eq_getElem?_getD, List.getD_eq_getElem?_getD, h.entry p.toNat (by omega)]

/-- A common write makes the written entry agree: the agreement reaches one further when the write is just above it. -/
theorem SameBelow.set {α : Type} {d d' p : Int} {xs ys : List α} (h : SameBelow d xs ys) (h0 : 0 ≤ p)
    (hd : d' ≤ d ∨ p = d ∧ d' = d + 1) (v : α) : SameBelow d' (xs.set p.toNat v) (ys.set p.toNat v) where
  length := by simp [h.length]
  entry k hk := by
    by_cases hkp : p.toNat = k
    · simp [List.getElem?_set, hkp, h.length]
    · rw [List.getElem?_set_ne hkp, List.getElem?_set_ne hkp, h.entry k (by omega)]

/-! ### The relation between two runs inside a micro-sequence -/

/-- A state without the two register files and the scratch registers `tos`, `sr` and `alu`. -/
def State.visible (s : State) : State := { s with stack := [], cstack := [], tos := 0, sr := 0, alu := 0 }

/-- Two states inside a micro-sequence that started with the depths `d` and `e`: they agree on everything but `tos`, `sr`,
`alu` and the entries at or above those depths, and both pointers stand inside them. After the fetch tick `arg` is equal
too. -/
structure State.Alike (d e : Int) (s t : State) : Prop where
  visible : s.visible = t.visible
  slots : SameBelow d s.stack t.stack
  entries : SameBelow e s.cstack t.cstack
  sp_low : -1 ≤ s.sp
  sp_live : s.sp < d
  scp_low : -1 ≤ s.scp
  scp_live : s.scp < e

section
variable {d e : Int} {s t : State}

theorem State.Alike.pc_eq (h : s.Alike d e t) : s.pc = t.pc := (congrArg State.pc h.visible :)
theorem State.Alike.sp_eq (h : s.Alike d e t) : s.sp = t.sp := (congrArg State.sp h.visible :)
theorem State.Alike.scp_eq (h : s.Alike d e t) : s.scp = t.scp := (congrArg State.scp h.visible :)
theorem State.Alike.arg_eq (h : s.Alike d e t) : s.arg = t.arg := (congrArg State.arg h.visible :)
theorem State.Alike.dmem_eq (h : s.Alike d e t) : s.dmem = t.dmem := (congrArg State.dmem h.visible :)
theorem State.Alike.ports_eq (h : s.Alike d e t) : s.ports = t.ports := (congrArg State.ports h.visible :)
theorem State.Alike.dmemWords_eq (h : s.Alike d e t) : s.dmemWords = t.dmemWords := (congrArg State.dmemWords h.visible :)
theorem State.Alike.overflow_eq (h : s.Alike d e t) : s.overflow = t.overflow := (congrArg State.overflow h.visible :)

theorem State.Alike.nextPc_eq (h : s.Alike d e t) : s.pc + 1 = t.pc + 1 := by rw [h.pc_eq]

/-- Two states that are alike agree on everything architectural. -/
theorem State.Alike.same (h : s.Alike d e t) : s.SameArchitectural t where
  pc := h.pc_eq
  mpc := (congrArg State.mpc h.visible :)
  sp := h.sp_eq
  scp := h.scp_eq
  tick := (congrArg State.tick h.visible :)
  status := (congrArg State.status h.visible :)
  operands := by rw [State.operands, State.operands, ← h.sp_eq]; exact h.slots.take_eq h.sp_live
  stackCap := h.slots.length
  links := by rw [State.links, State.links, ← h.scp_eq]; exact h.entries.take_eq h.scp_live
  callCap := h.entries.length
  dmem := h.dmem_eq
  ports := h.ports_eq
  prog := (congrArg State.prog h.visible :)
  dmemWords := h.dmemWords_eq
  overflow := h.overflow_eq

theorem State.SameArchitectural.running (h : s.SameArchitectural t) (hr : s.Running) : t.Running := by
  rw [State.Running, ← h.status]
  exact hr

/-- The end of a run records the start-of-tick `pc` and `mpc`, which are architectural. -/
theorem State.SameArchitectural.endRun (h : s.SameArchitectural t) (x : Terminal) :
    (s.endRun x).SameArchitectural (t.endRun x) :=
  { h with status := by simp [h.pc, h.mpc] }

/-- The fetch tick makes `arg` equal, so two states that agree on everything architectural start a sequence alike. -/
theorem State.SameArchitectural.issue (h : s.SameArchitectural t) (hs : s.Inv) (f : Addr) (m : MicroAddr) :
    (s.issue f m).Alike (s.sp + 1) (s.scp + 1) (t.issue f m) where
  visible := by
    simp [State.visible, State.issue, h.pc, h.sp, h.scp, h.tick, h.status, h.dmem, h.ports, h.prog, h.dmemWords, h.overflow]
  slots := .of_take h.stackCap (by have := h.operands; rwa [State.operands, State.operands, ← h.sp] at this)
  entries := .of_take h.callCap (by have := h.links; rwa [State.links, State.links, ← h.scp] at this)
  sp_low := hs.sp_low
  sp_live := Int.lt_succ s.sp
  scp_low := hs.scp_low
  scp_live := Int.lt_succ s.scp

/-! ### What each write of a micro-step does to the relation -/

theorem State.Alike.toNext (h : s.Alike d e t) : s.toNext.Alike d e t.toNext :=
  { h with visible := congrArg State.toNext h.visible }

theorem State.Alike.retire (h : s.Alike d e t) {a b : Addr} (hab : a = b) : (s.retire a).Alike d e (t.retire b) :=
  { h with visible := hab ▸ congrArg (State.retire · a) h.visible }

theorem State.Alike.setTos (h : s.Alike d e t) (v w : Word) : { s with tos := v }.Alike d e { t with tos := w } := { h with }

theorem State.Alike.setSr (h : s.Alike d e t) (v w : Word) : { s with sr := v }.Alike d e { t with sr := w } := { h with }

theorem State.Alike.setAlu (h : s.Alike d e t) (v w : Word) : { s with alu := v }.Alike d e { t with alu := w } := { h with }

theorem State.Alike.setPc (h : s.Alike d e t) (a : Addr) : { s with pc := a }.Alike d e { t with pc := a } :=
  { h with visible := congrArg (fun u : State => { u with pc := a }) h.visible }

theorem State.Alike.setDmem (h : s.Alike d e t) (m : Memory) : { s with dmem := m }.Alike d e { t with dmem := m } :=
  { h with visible := congrArg (fun u : State => { u with dmem := m }) h.visible }

theorem State.Alike.setPorts (h : s.Alike d e t) (ps : Ports) : { s with ports := ps }.Alike d e { t with ports := ps } :=
  { h with visible := congrArg (fun u : State => { u with ports := ps }) h.visible }

/-- A pointer may move anywhere inside the depth the sequence started with. -/
theorem State.Alike.setSp (h : s.Alike d e t) {p : Int} (h1 : -1 ≤ p) (hd : p < d) :
    { s with sp := p }.Alike d e { t with sp := p } :=
  { h with visible := congrArg (fun u : State => { u with sp := p }) h.visible, sp_low := h1, sp_live := hd }

theorem State.Alike.setScp (h : s.Alike d e t) {p : Int} (h1 : -1 ≤ p) (hd : p < e) :
    { s with scp := p }.Alike d e { t with scp := p } :=
  { h with visible := congrArg (fun u : State => { u with scp := p }) h.visible, scp_low := h1, scp_live := hd }

theorem State.Alike.setStack (h : s.Alike d e t) {xs ys : List Word} (hxy : SameBelow d xs ys) :
    { s with stack := xs }.Alike d e { t with stack := ys } := { h with slots := hxy }

/-! ### Every access gives the same in two states that are alike -/

theorem State.Alike.spNext_eq (h : s.Alike d e t) : s.spNext = t.spNext := by
  simp [State.spNext, h.sp_eq, h.slots.length]

theorem State.Alike.spPrev_eq (h : s.Alike d e t) : s.spPrev = t.spPrev := by simp [State.spPrev, h.sp_eq]

theorem State.Alike.scpNext_eq (h : s.Alike d e t) : s.scpNext = t.scpNext := by
  simp [State.scpNext, h.scp_eq, h.entries.length]

theorem State.Alike.scpPrev_eq (h : s.Alike d e t) : s.scpPrev = t.scpPrev := by simp [State.scpPrev, h.scp_eq]

theorem State.Alike.slot_eq (h : s.Alike d e t) : s.slot = t.slot := by
  unfold State.slot
  rw [← h.sp_eq]
  split
  · rfl
  · rw [h.slots.getD_eq (by have := h.sp_low; omega) h.sp_live]

theorem State.Alike.returnAddress_eq (h : s.Alike d e t) : s.returnAddress = t.returnAddress := by
  unfold State.returnAddress
  rw [← h.scp_eq]
  split
  · rfl
  · rw [h.entries.getD_eq (by have := h.scp_low; omega) h.scp_live]

theorem State.Alike.portRead_eq (h : s.Alike d e t) (p : Nat) : s.portRead p = t.portRead p := by
  simp only [State.portRead, h.ports_eq]

theorem State.Alike.portWrite_eq (h : s.Alike d e t) (p : Nat) (w : Word) : s.portWrite p w = t.portWrite p w := by
  simp only [State.portWrite, h.ports_eq]

theorem State.Alike.dataRead_eq (h : s.Alike d e t) (a : Word) : s.dataRead a = t.dataRead a := by
  simp only [State.dataRead, h.dmem_eq, h.dmemWords_eq]

theorem State.Alike.dataWrite_eq (h : s.Alike d e t) (htos : s.tos = t.tos) : s.dataWrite = t.dataWrite := by
  simp only [State.dataWrite, h.slot_eq, h.dmem_eq, h.dmemWords_eq, htos]

theorem State.Alike.aluResult_eq (h : s.Alike d e t) (htos : s.tos = t.tos) (op : AluOp) :
    s.aluResult op = t.aluResult op := by
  cases op <;> simp only [State.aluResult, h.slot_eq, h.overflow_eq, htos]

/-! ### The micro-steps, as rules for two runs side by side -/

/-- Two runs that attempt the same access both end, with the same terminal condition, or both go on with its value. -/
theorem State.attempt_same {α : Type} {r r' : Except Terminal α} {k k' : α → State} (h : s.SameArchitectural t)
    (hr : r = r') (hk : ∀ a, r = .ok a → (k a).SameArchitectural (k' a)) :
    (s.attempt r k).SameArchitectural (t.attempt r' k') := by
  subst hr
  cases r with
  | error x => exact h.endRun x
  | ok a => exact hk a rfl

theorem State.Alike.loadTop (h : s.Alike d e t) {k : State → State}
    (hk : ∀ s' t' : State, s'.Alike d e t' → s'.tos = t'.tos → (k s').SameArchitectural (k t')) :
    (s.loadTop k).SameArchitectural (t.loadTop k) :=
  attempt_same h.same h.slot_eq fun v _ => hk _ _ (h.setTos v v).toNext rfl

/-- `SP = PREV` stays inside the depth the sequence started with. -/
theorem State.Alike.spPrev (h : s.Alike d e t) {k k' : Int → State}
    (hk : ∀ p < s.sp, { s with sp := p }.Alike d e { t with sp := p } → (k p).SameArchitectural (k' p)) :
    (s.attempt s.spPrev k).SameArchitectural (t.attempt t.spPrev k') := by
  refine attempt_same h.same h.spPrev_eq fun p hp => ?_
  obtain ⟨hne, rfl⟩ := State.spPrev_ok.1 hp
  have hlow := h.sp_low
  have hlive := h.sp_live
  exact hk _ (by omega) (h.setSp (by omega) (by omega))

theorem State.Alike.lowerTop (h : s.Alike d e t) (htos : s.tos = t.tos) {k : State → State}
    (hk : ∀ s' t' : State, s'.Alike d e t' → s'.tos = t'.tos → (k s').SameArchitectural (k t')) :
    (s.lowerTop k).SameArchitectural (t.lowerTop k) :=
  h.spPrev fun _ _ hp => hk _ _ hp.toNext htos

theorem State.Alike.compute (h : s.Alike d e t) (htos : s.tos = t.tos) {op : AluOp} {k : State → State}
    (hk : ∀ s' t' : State, s'.Alike d e t' → s'.alu = t'.alu → (k s').SameArchitectural (k t')) :
    (s.compute op k).SameArchitectural (t.compute op k) :=
  attempt_same h.same (h.aluResult_eq htos op) fun x _ => hk _ _ (h.setAlu x x).toNext rfl

/-- A write of the same word into the slot at `sp`. -/
theorem State.Alike.setSlot (h : s.Alike d e t) {v w : Word} (hvw : v = w) {k k' : List Word → State}
    (hk : ∀ xs ys, { s with stack := xs }.Alike d e { t with stack := ys } → (k xs).SameArchitectural (k' ys)) :
    (s.attempt (s.setSlot v) k).SameArchitectural (t.attempt (t.setSlot w) k') := by
  subst hvw
  by_cases hp : s.sp = -1
  · rw [State.setSlot_error.2 ⟨hp, rfl⟩, State.setSlot_error.2 ⟨h.sp_eq ▸ hp, rfl⟩]
    exact h.same.endRun _
  · rw [State.setSlot_ok.2 ⟨hp, rfl⟩, State.setSlot_ok.2 ⟨h.sp_eq ▸ hp, rfl⟩, ← h.sp_eq]
    exact hk _ _ (h.setStack (h.slots.set (by have := h.sp_low; omega) (.inl le_rfl) v))

theorem State.Alike.storeTop (h : s.Alike d e t) (htos : s.tos = t.tos) : s.storeTop.SameArchitectural t.storeTop :=
  h.setSlot htos fun _ _ h' => (h'.retire h.nextPc_eq).same

/-- The tick that takes the result into `tos`, and the one that puts it into the slot. -/
theorem State.Alike.storeAlu (h : s.Alike d e t) (halu : s.alu = t.alu) :
    (s.takeAlu State.storeTop).SameArchitectural (t.takeAlu State.storeTop) :=
  (h.setTos s.alu t.alu).toNext.storeTop halu

/-- A raised stack pointer reaches a slot that may differ, but the sequence's last tick overwrites it with the same word:
the end of `PUSH` and of `INPUT`. -/
theorem State.Alike.pushTop (h : s.Alike d e t) (hd : d = s.sp + 1) (v : Word) :
    { s with sp := d, tos := v }.toNext.storeTop.SameArchitectural { t with sp := d, tos := v }.toNext.storeTop := by
  have hlow := h.sp_low
  have hp : d ≠ -1 := by omega
  rw [State.storeTop, State.storeTop, State.setSlot_ok.2 ⟨hp, rfl⟩, State.setSlot_ok.2 ⟨hp, rfl⟩]
  have h' : { s with sp := d, stack := s.stack.set d.toNat v }.Alike (d + 1) e
      { t with sp := d, stack := t.stack.set d.toNat v } :=
    { h with
      visible := congrArg (fun u : State => { u with sp := d }) h.visible
      slots := h.slots.set (by omega) (.inr ⟨rfl, rfl⟩) v
      sp_low := by show -1 ≤ d; omega
      sp_live := Int.lt_succ d }
  exact ((h'.setTos v v).toNext.retire h.nextPc_eq).same

/-- The two ticks `SWAP.2` and `SWAP.3` that exchange the slot and the word saved in `sr`. -/
theorem State.Alike.exchange (h : s.Alike d e t) (hsr : s.sr = t.sr) {k : State → List Word → State}
    (hk : ∀ (s' t' : State) xs ys, { s' with stack := xs }.Alike d e { t' with stack := ys } → s'.tos = t'.tos →
      s'.sp = s.sp → (k s' xs).SameArchitectural (k t' ys)) :
    (s.loadTop fun s => s.attempt (s.setSlot s.sr) (k s)).SameArchitectural
      (t.loadTop fun t => t.attempt (t.setSlot t.sr) (k t)) :=
  attempt_same h.same h.slot_eq fun v _ =>
    (h.setTos v v).toNext.setSlot hsr fun _ _ hst => hk _ _ _ _ hst rfl rfl

theorem State.Alike.branch (h : s.Alike d e t) (htos : s.tos = t.tos) (c : Cond) :
    (s.branch c).Alike d e (t.branch c) :=
  h.retire (by rw [htos, h.arg_eq, h.pc_eq])

/-! ### The sequences -/

section
variable (h : s.SameArchitectural t) (hs : s.Inv)
include h hs

theorem unary_same (op : AluOp) (f : Addr) (E : MicroAddr) : (unary op f E s).SameArchitectural (unary op f E t) :=
  (h.issue hs f E).loadTop fun _ _ h htos => h.compute htos fun _ _ h halu => h.storeAlu halu

theorem binary_same (op : AluOp) (f : Addr) (E : MicroAddr) : (binary op f E s).SameArchitectural (binary op f E t) :=
  (h.issue hs f E).loadTop fun _ _ h htos => h.lowerTop htos fun _ _ h htos => h.compute htos fun _ _ h halu =>
    h.storeAlu halu

theorem conditional_same (c : Cond) (f : Addr) (E : MicroAddr) :
    (conditional c f E s).SameArchitectural (conditional c f E t) :=
  (h.issue hs f E).loadTop fun _ _ h htos => (h.branch htos c).same

end

/-- Both answer a next state, and the two agree on everything architectural. -/
def SameAnswer (r r' : Result) : Prop := ∃ s' t', r = .next s' ∧ r' = .next t' ∧ s'.SameArchitectural t'

theorem SameAnswer.of_running (h : s.SameArchitectural t) (hr : s.Running) {f f' : State → State}
    (hf : (f s).SameArchitectural (f' t)) : SameAnswer (whileRunning s f) (whileRunning t f') :=
  ⟨f s, f' t, whileRunning_running hr f, whileRunning_running (h.running hr) f', hf⟩

theorem execHlt_same (h : s.SameArchitectural t) (hr : s.Running) (f : Addr) :
    SameAnswer (execHlt f s) (execHlt f t) := by
  refine .of_running h hr ?_
  exact h.endRun .halted

section
variable (h : s.SameArchitectural t) (hs : s.Inv) (hr : s.Running)
include h hs hr

theorem execPush_same (a : Addr) : SameAnswer (execPush a s) (execPush a t) := by
  refine .of_running h hr ?_
  have hi := h.issue hs a 1
  refine State.attempt_same hi.same hi.spNext_eq fun p hp => ?_
  obtain ⟨-, rfl⟩ := State.spNext_ok.1 hp
  exact hi.pushTop rfl (literalOperand a)

/-- The new entry may differ until it is linked, and the link writes the same return address into both. -/
theorem execCall_same (a : Addr) : SameAnswer (execCall a s) (execCall a t) := by
  refine .of_running h hr ?_
  have hi := h.issue hs a 13
  refine State.attempt_same hi.same hi.scpNext_eq fun p hp => ?_
  obtain ⟨-, rfl⟩ := State.scpNext_ok.1 hp
  have hlow := hs.scp_low
  have hne : s.scp + 1 ≠ -1 := by omega
  simp only [State.issue_scp]
  rw [State.linked_ok.2 ⟨hne, rfl⟩, State.linked_ok.2 ⟨hne, rfl⟩]
  have hl : { s.issue a 13 with scp := s.scp + 1, cstack := s.cstack.set (s.scp + 1).toNat (s.pc + 1) }.Alike (s.sp + 1)
      (s.scp + 1 + 1)
      { t.issue a 13 with scp := s.scp + 1, cstack := t.cstack.set (s.scp + 1).toNat (t.pc + 1) } :=
    { hi with
      visible := congrArg (fun u : State => { u with scp := s.scp + 1 }) hi.visible
      entries := h.pc ▸ hi.entries.set (by omega) (.inr ⟨rfl, rfl⟩) (s.pc + 1)
      scp_low := by show -1 ≤ s.scp + 1; omega
      scp_live := Int.lt_succ _ }
  exact (hl.toNext.retire rfl).same

theorem execRet_same (f : Addr) : SameAnswer (execRet f s) (execRet f t) := by
  refine .of_running h hr ?_
  have hi := h.issue hs f 15
  refine State.attempt_same hi.same hi.returnAddress_eq fun a _ => ?_
  have ha := (hi.setPc a).toNext
  refine State.attempt_same ha.same ha.scpPrev_eq fun p hp => ?_
  obtain ⟨hne, rfl⟩ := State.scpPrev_ok.1 hp
  have hlow := ha.scp_low
  have hlive := ha.scp_live
  exact ((ha.setScp (by omega) (by omega)).retire rfl).same

theorem execInput_same (f : Addr) : SameAnswer (execInput f s) (execInput f t) := by
  refine .of_running h hr ?_
  have hi := h.issue hs f 17
  refine State.attempt_same hi.same hi.spNext_eq fun p hp => ?_
  obtain ⟨-, rfl⟩ := State.spNext_ok.1 hp
  exact State.attempt_same hi.same (hi.portRead_eq _) fun r _ => (hi.setPorts r.2).pushTop rfl r.1

theorem execOutput_same (f : Addr) : SameAnswer (execOutput f s) (execOutput f t) := by
  refine .of_running h hr <| (h.issue hs f 19).loadTop fun s t h htos => h.spPrev fun p _ hp => ?_
  refine State.attempt_same h.same ?_ fun ps _ => ((hp.setPorts ps).retire h.nextPc_eq).same
  rw [h.portWrite_eq, h.arg_eq, htos]

theorem execLoad_same (f : Addr) : SameAnswer (execLoad f s) (execLoad f t) := by
  refine .of_running h hr <| (h.issue hs f 49).loadTop fun s t h htos => ?_
  refine State.attempt_same h.same ?_ fun v _ => (h.setTos v v).toNext.storeTop rfl
  rw [h.dataRead_eq, htos]

theorem execStore_same (f : Addr) : SameAnswer (execStore f s) (execStore f t) :=
  .of_running h hr <| (h.issue hs f 52).loadTop fun _ _ h htos => h.lowerTop htos fun _ _ h htos =>
    State.attempt_same h.same (h.dataWrite_eq htos) fun m _ => ((h.setDmem m).retire h.nextPc_eq).same

/-- `SWAP.4` raises the stack pointer back to a slot of the original depth, which no tick before has made differ. -/
theorem execSwap_same (f : Addr) : SameAnswer (execSwap f s) (execSwap f t) := by
  refine .of_running h hr ?_
  refine (h.issue hs f 55).loadTop fun s t h htos => h.spPrev fun p hlt hp => ?_
  have hlive := h.sp_live
  refine (hp.setSr s.tos t.tos).toNext.exchange htos fun s t xs ys h htos hsp => ?_
  refine State.attempt_same h.toNext.same h.toNext.spNext_eq fun q hq => ?_
  obtain ⟨-, rfl⟩ := State.spNext_ok.1 hq
  have hlow : -1 ≤ s.sp := h.sp_low
  simp only [State.toNext_sp] at hsp ⊢
  exact (h.toNext.setSp (p := s.sp + 1) (by omega) (by omega)).toNext.storeTop htos

theorem execPop_same (f : Addr) : SameAnswer (execPop f s) (execPop f t) := by
  refine .of_running h hr ?_
  have hi := h.issue hs f 3
  exact hi.spPrev fun p _ hp => (hp.retire hi.nextPc_eq).same

theorem execJmp_same (a : Addr) : SameAnswer (execJmp a s) (execJmp a t) := by
  refine .of_running h hr ?_
  exact ((h.issue hs a 4).retire rfl).same

/-- The meaning of every instruction keeps the agreement on everything architectural. -/
theorem exec_same (i : Instr) : SameAnswer (exec i s) (exec i t) := by
  cases i with
  | push a => exact execPush_same h hs hr a
  | pop f => exact execPop_same h hs hr f
  | jmp a => exact execJmp_same h hs hr a
  | jz a => exact .of_running h hr (conditional_same h hs .jz a 5)
  | jnz a => exact .of_running h hr (conditional_same h hs .jnz a 7)
  | js a => exact .of_running h hr (conditional_same h hs .js a 9)
  | jns a => exact .of_running h hr (conditional_same h hs .jns a 11)
  | call a => exact execCall_same h hs hr a
  | ret f => exact execRet_same h hs hr f
  | input p => exact execInput_same h hs hr p
  | output p => exact execOutput_same h hs hr p
  | inc f => exact .of_running h hr (unary_same h hs .inc f 21)
  | dec f => exact .of_running h hr (unary_same h hs .dec f 25)
  | add f => exact .of_running h hr (binary_same h hs .add f 29)
  | sub f => exact .of_running h hr (binary_same h hs .sub f 34)
  | mul f => exact .of_running h hr (binary_same h hs .mul f 39)
  | div f => exact .of_running h hr (binary_same h hs .div f 44)
  | load f => exact execLoad_same h hs hr f
  | store f => exact execStore_same h hs hr f
  | swap f => exact execSwap_same h hs hr f
  | hlt f => exact execHlt_same h hr f

end

theorem State.SameArchitectural.fetchInstr_eq (h : s.SameArchitectural t) : fetchInstr s = fetchInstr t := by
  simp only [fetchInstr, State.fetch, h.pc, h.prog]

/-- A step at an instruction's start keeps the agreement: both fetch the same instruction, or end for the same reason. -/
theorem step_same (h : s.SameArchitectural t) (hs : s.Inv) (hr : s.Running) (h0 : s.mpc = 0) :
    SameAnswer (step s) (step t) := by
  cases hf : fetchInstr s with
  | error x =>
    exact ⟨_, _, step_fetch_error hr h0 hf,
      step_fetch_error (h.running hr) (h.mpc ▸ h0) (h.fetchInstr_eq ▸ hf), h.endRun x⟩
  | ok i =>
    rw [step_fetch_ok hr h0 hf, step_fetch_ok (h.running hr) (h.mpc ▸ h0) (h.fetchInstr_eq ▸ hf)]
    exact exec_same h hs hr i

end

/-- Settles O42: the relation between two runs is kept by every micro-step. -/
theorem microarchitecturalStateIsUnobservable : Obligations.MicroarchitecturalStateIsUnobservable :=
  fun _ _ hs hr h0 h => ⟨step_same h hs hr h0, exec_same h hs hr⟩

end Sys2Proof.Machine
end

section
/-! What an instruction can do to the two stacks, their pointers and the constants of a launch (10_state.md R33, R34, R45,
R48): one postcondition over all instructions, proved from one rule per micro-step. -/

namespace Sys2Proof.Machine

/-! ### The constants of a launch -/

/-- What a launch fixes is in `t` as it is in `s` (R48, R95). -/
structure State.LaunchKept (s t : State) : Prop where
  prog : t.prog = s.prog
  dmemWords : t.dmemWords = s.dmemWords
  overflow : t.overflow = s.overflow
  stackCap : t.stackCap = s.stackCap
  callCap : t.callCap = s.callCap

/-- A write of a slot or of a call-stack entry keeps the size of its file. -/
theorem evalSlot_length {s : State} {g : Option SlotSource} {st : List Word} (h : evalSlot s g = .ok st) :
    st.length = s.stack.length := by
  cases g with
  | none => cases h; rfl
  | some g => cases g <;> obtain ⟨-, rfl⟩ := State.setSlot_ok.1 h <;> exact List.length_set

theorem evalCsl_length {s : State} {csl : Bool} {cs : List Addr} (h : evalCsl s csl = .ok cs) :
    cs.length = s.cstack.length := by
  cases csl with
  | false => cases h; rfl
  | true => obtain ⟨-, rfl⟩ := State.linked_ok.1 h; exact List.length_set

/-- A tick at any control address keeps the constants. -/
theorem tickRunning_launchKept (s : State) : s.LaunchKept (tickRunning s) := by
  obtain ⟨x, hx⟩ | ⟨g, -, hg⟩ := tickRunning_cases s
  · rw [hx]; exact ⟨rfl, rfl, rfl, rfl, rfl⟩
  · obtain ⟨_, _, _, _, _, _, _, _, _, _, _, -, -, -, -, -, hst, -, -, hcs, -, -, ht⟩ := commitSignals_ok hg
    rw [ht]
    exact ⟨rfl, rfl, rfl, evalSlot_length hst, evalCsl_length hcs⟩

/-! ### What an instruction can do, and what holds on its way -/

/-- The instruction is a `CALL` or a `RET`. -/
abbrev UsesCallStack (i : Instr) : Prop := (∃ a, i = .call a) ∨ ∃ f, i = .ret f

/-- In a stack file that an instruction leaves, only the slots of `writtenSlots` differ. Below the range of `sp` the model
reaches slot 0 (log entry 8), so this is said for a pointer in range. -/
def SlotsKept (i : Instr) (s : State) (st : List Word) : Prop :=
  -1 ≤ s.sp → ∀ k : Nat, st[k]? ≠ s.stack[k]? → (k : Int) ∈ writtenSlots i s.sp

/-- What every path of `i` from `s` has done to the stacks, their pointers and the constants when it ends in `t`. -/
structure Effect (i : Instr) (s t : State) : Prop where
  launch : s.LaunchKept t
  depth : t.Running → t.sp = s.sp + depthChange i
  slots : SlotsKept i s t.stack
  calls : t.scp ≠ s.scp ∨ t.cstack ≠ s.cstack → UsesCallStack i
  entries : -1 ≤ s.scp → ∀ k : Nat, t.cstack[k]? ≠ s.cstack[k]? → (∃ a, i = .call a) ∧ (k : Int) = s.scp + 1

/-- The elements of state that `Effect` speaks of, the pointer `sp` apart. -/
def State.watched (u : State) : List Word × Nat × OverflowPolicy × List Word × Int × List Addr :=
  (u.prog, u.dmemWords, u.overflow, u.stack, u.scp, u.cstack)

/-- What holds of each state `u` inside the micro-sequence of `i` from `s`, as long as no tick uses the call stack. -/
structure Midway (i : Instr) (s u : State) : Prop where
  prog : u.prog = s.prog
  dmemWords : u.dmemWords = s.dmemWords
  overflow : u.overflow = s.overflow
  stackCap : u.stackCap = s.stackCap
  scp : u.scp = s.scp
  cstack : u.cstack = s.cstack
  slots : SlotsKept i s u.stack

section
variable {i : Instr} {s u : State}

theorem SlotsKept.refl (i : Instr) (s : State) : SlotsKept i s s.stack := fun _ _ h => absurd rfl h

theorem SlotsKept.set {st : List Word} (h : SlotsKept i s st) {n : Nat} (hn : -1 ≤ s.sp → (n : Int) ∈ writtenSlots i s.sp)
    (w : Word) : SlotsKept i s (st.set n w) := by
  intro hlow k hk
  by_cases hnk : n = k
  · exact hnk ▸ hn hlow
  · rw [List.getElem?_set_ne hnk] at hk
    exact h hlow k hk

theorem Midway.refl (i : Instr) (s : State) : Midway i s s := ⟨rfl, rfl, rfl, rfl, rfl, rfl, .refl i s⟩

/-- A write of any other element keeps it. -/
theorem Midway.congr (h : Midway i s u) {v : State} (hv : v.watched = u.watched := by rfl) : Midway i s v := by
  simp only [State.watched, Prod.mk.injEq] at hv
  obtain ⟨hprog, hwords, hoverflow, hstack, hscp, hcstack⟩ := hv
  exact ⟨hprog.trans h.prog, hwords.trans h.dmemWords, hoverflow.trans h.overflow,
    (congrArg List.length hstack).trans h.stackCap, hscp.trans h.scp, hcstack.trans h.cstack, hstack ▸ h.slots⟩

theorem Midway.issue (i : Instr) (s : State) (f : Addr) (m : MicroAddr) : Midway i s (s.issue f m) :=
  (Midway.refl i s).congr

/-! ### One rule per micro-step: from what holds before it to the effect of the whole instruction -/

/-- A sequence may end in a state on its way once the depth is right. -/
theorem Midway.effect (h : Midway i s u) (hd : u.Running → u.sp = s.sp + depthChange i) : Effect i s u where
  launch := ⟨h.prog, h.dmemWords, h.overflow, h.stackCap, congrArg List.length h.cstack⟩
  depth := hd
  slots := h.slots
  calls hc := hc.elim (absurd h.scp) (absurd h.cstack)
  entries _ k hk := absurd (by rw [h.cstack]) hk

theorem Midway.endRun (h : Midway i s u) (x : Terminal) : Effect i s (u.endRun x) :=
  Midway.effect h.congr fun hr => absurd hr (State.endRun_ended u x)

theorem Midway.retire (h : Midway i s u) (hd : u.sp = s.sp + depthChange i) (a : Addr) : Effect i s (u.retire a) :=
  Midway.effect h.congr fun _ => hd

theorem Midway.attempt (h : Midway i s u) {α : Type} {r : Except Terminal α} {k : α → State}
    (hk : ∀ a, r = .ok a → Effect i s (k a)) : Effect i s (u.attempt r k) := by
  cases r with
  | error x => exact h.endRun x
  | ok a => exact hk a rfl

theorem Midway.loadTop (h : Midway i s u) {k : State → State}
    (hk : ∀ u' : State, Midway i s u' → u'.sp = u.sp → Effect i s (k u')) : Effect i s (u.loadTop k) :=
  h.attempt fun _ _ => hk _ h.congr rfl

theorem Midway.spPrev (h : Midway i s u) {k : Int → State} (hk : u.sp ≠ -1 → Effect i s (k (u.sp - 1))) :
    Effect i s (u.attempt u.spPrev k) :=
  h.attempt fun p hp => by
    obtain ⟨hne, rfl⟩ := State.spPrev_ok.1 hp
    exact hk hne

theorem Midway.spNext (h : Midway i s u) {k : Int → State} (hk : Effect i s (k (u.sp + 1))) :
    Effect i s (u.attempt u.spNext k) :=
  h.attempt fun p hp => by
    obtain ⟨-, rfl⟩ := State.spNext_ok.1 hp
    exact hk

theorem Midway.lowerTop (h : Midway i s u) {k : State → State}
    (hk : ∀ u' : State, Midway i s u' → u.sp ≠ -1 → u'.sp = u.sp - 1 → Effect i s (k u')) : Effect i s (u.lowerTop k) :=
  h.spPrev fun hne => hk _ h.congr hne rfl

theorem Midway.compute (h : Midway i s u) {op : AluOp} {k : State → State}
    (hk : ∀ u' : State, Midway i s u' → u'.sp = u.sp → Effect i s (k u')) : Effect i s (u.compute op k) :=
  h.attempt fun _ _ => hk _ h.congr rfl

theorem Midway.setSlot (h : Midway i s u) {w : Word} {k : List Word → State} (hp : u.sp ∈ writtenSlots i s.sp)
    (hlow : -1 ≤ s.sp → -1 ≤ u.sp) (hk : ∀ st, Midway i s { u with stack := st } → Effect i s (k st)) :
    Effect i s (u.attempt (u.setSlot w) k) :=
  h.attempt fun st hst => by
    obtain ⟨hne, rfl⟩ := State.setSlot_ok.1 hst
    have hn : -1 ≤ s.sp → (u.sp.toNat : Int) ∈ writtenSlots i s.sp := fun h1 => by
      have := hlow h1
      rwa [Int.toNat_of_nonneg (by omega)]
    exact hk _ { h with stackCap := List.length_set.trans h.stackCap, slots := h.slots.set hn w }

theorem Midway.storeTop (h : Midway i s u) (hd : u.sp = s.sp + depthChange i) (hp : u.sp ∈ writtenSlots i s.sp)
    (hlow : -1 ≤ s.sp → -1 ≤ u.sp) : Effect i s u.storeTop :=
  h.setSlot hp hlow fun _ h => h.retire hd _

theorem Midway.storeAlu (h : Midway i s u) (hd : u.sp = s.sp + depthChange i) (hp : u.sp ∈ writtenSlots i s.sp)
    (hlow : -1 ≤ s.sp → -1 ≤ u.sp) : Effect i s (u.takeAlu State.storeTop) :=
  Midway.storeTop h.congr hd hp hlow

/-- An instruction that leaves the operand stack alone and writes, of the call stack, at most the entry above the old top,
and that only as a `CALL`. -/
theorem Effect.of_callStack {t : State} (hi : UsesCallStack i) (hp : t.prog = s.prog) (hm : t.dmemWords = s.dmemWords)
    (ho : t.overflow = s.overflow) (hsp : t.sp = s.sp) (hst : t.stack = s.stack)
    (hcs : t.cstack = s.cstack ∨ (∃ a, i = .call a) ∧ ∃ a, t.cstack = s.cstack.set (s.scp + 1).toNat a) :
    Effect i s t where
  launch := by
    refine ⟨hp, hm, ho, congrArg List.length hst, ?_⟩
    obtain hcs | ⟨-, a, hcs⟩ := hcs
    · exact congrArg List.length hcs
    · exact (congrArg List.length hcs).trans List.length_set
  depth _ := by
    have hd : depthChange i = 0 := by obtain ⟨a, rfl⟩ | ⟨f, rfl⟩ := hi <;> rfl
    rw [hsp, hd, Int.add_zero]
  slots := hst ▸ .refl i s
  calls _ := hi
  entries hlow k hk := by
    obtain hcs | ⟨hcall, a, hcs⟩ := hcs
    · exact absurd (by rw [hcs]) hk
    · refine ⟨hcall, ?_⟩
      by_contra hne
      exact hk (by rw [hcs, List.getElem?_set_ne (by omega)])

end

/-! ### The instructions -/

/-- What holds of the state a sequence gives holds of the next state its meaning answers. -/
theorem whileRunning_post {s t : State} {f : State → State} {P : State → Prop} (h : whileRunning s f = .next t)
    (hf : P (f s)) : P t :=
  (whileRunning_eq_next.1 h).2 ▸ hf

section
variable (s : State)

theorem unary_effect {i : Instr} (hd : depthChange i = 0) (hw : writtenSlots i s.sp = [s.sp]) (op : AluOp) (f : Addr)
    (E : MicroAddr) : Effect i s (unary op f E s) := by
  refine (Midway.issue i s f E).loadTop fun _ h h1 => h.compute fun u h h2 => ?_
  have hsp : u.sp = s.sp := h2.trans h1
  exact h.storeAlu (by rw [hsp, hd, Int.add_zero]) (by simp [hsp, hw]) (by rw [hsp]; exact id)

theorem binary_effect {i : Instr} (hd : depthChange i = -1) (hw : writtenSlots i s.sp = [s.sp - 1]) (op : AluOp)
    (f : Addr) (E : MicroAddr) : Effect i s (binary op f E s) := by
  refine (Midway.issue i s f E).loadTop fun v h h1 => h.lowerTop fun _ h hne h2 => h.compute fun u h h3 => ?_
  have hv : v.sp = s.sp := h1
  have hsp : u.sp = s.sp - 1 := by rw [h3, h2, hv]
  exact h.storeAlu (by rw [hsp, hd]; rfl) (by simp [hsp, hw]) (by omega)

theorem conditional_effect {i : Instr} (hd : depthChange i = 0) (c : Cond) (f : Addr) (E : MicroAddr) :
    Effect i s (conditional c f E s) :=
  (Midway.issue i s f E).loadTop fun u h h1 => h.retire (by rw [h1, hd, Int.add_zero]; rfl) _

end

section
variable {s t : State}

theorem execPush_effect {a : Addr} (h : execPush a s = .next t) : Effect (.push a) s t := by
  refine whileRunning_post h ?_
  have hi := Midway.issue (.push a) s a 1
  exact hi.spNext (Midway.storeTop hi.congr rfl (List.mem_singleton_self _) (Int.le_add_one ·))

theorem execPop_effect {f : Addr} (h : execPop f s = .next t) : Effect (.pop f) s t := by
  refine whileRunning_post h ?_
  have hi := Midway.issue (.pop f) s f 3
  exact hi.spPrev fun _ => Midway.retire hi.congr rfl _

theorem execJmp_effect {a : Addr} (h : execJmp a s = .next t) : Effect (.jmp a) s t := by
  refine whileRunning_post h ?_
  exact (Midway.issue (.jmp a) s a 4).retire (Int.add_zero _).symm _

theorem execCall_effect {a : Addr} (h : execCall a s = .next t) : Effect (.call a) s t := by
  refine whileRunning_post h ?_
  refine (Midway.issue (.call a) s a 13).attempt fun p hp => ?_
  obtain ⟨-, rfl⟩ := State.scpNext_ok.1 hp
  obtain ⟨x, -, hx⟩ | ⟨cs, hcs, hx⟩ := State.attempt_cases rfl
  · rw [hx]
    exact .of_callStack (.inl ⟨a, rfl⟩) rfl rfl rfl rfl rfl (.inl rfl)
  · obtain ⟨-, rfl⟩ := State.linked_ok.1 hcs
    rw [hx]
    exact .of_callStack (.inl ⟨a, rfl⟩) rfl rfl rfl rfl rfl (.inr ⟨⟨a, rfl⟩, _, rfl⟩)

theorem execRet_effect {f : Addr} (h : execRet f s = .next t) : Effect (.ret f) s t := by
  refine whileRunning_post h ?_
  have hi := Midway.issue (.ret f) s f 15
  refine hi.attempt fun a _ => Midway.attempt hi.congr fun p hp => ?_
  exact .of_callStack (.inr ⟨f, rfl⟩) rfl rfl rfl rfl rfl (.inl rfl)

theorem execHlt_effect {f : Addr} (h : execHlt f s = .next t) : Effect (.hlt f) s t := by
  refine whileRunning_post h ?_
  exact (Midway.refl (.hlt f) s).endRun .halted

theorem execInput_effect {p : Addr} (h : execInput p s = .next t) : Effect (.input p) s t := by
  refine whileRunning_post h ?_
  have hi := Midway.issue (.input p) s p 17
  exact hi.spNext <| hi.attempt fun r _ => Midway.storeTop hi.congr rfl (List.mem_singleton_self _) (Int.le_add_one ·)

theorem execOutput_effect {p : Addr} (h : execOutput p s = .next t) : Effect (.output p) s t := by
  refine whileRunning_post h ?_
  refine (Midway.issue (.output p) s p 19).loadTop fun u h hu => h.spPrev fun _ => h.attempt fun ps _ => ?_
  exact Midway.retire h.congr (congrArg (· - 1) hu) _

theorem execLoad_effect {f : Addr} (h : execLoad f s = .next t) : Effect (.load f) s t := by
  refine whileRunning_post h ?_
  refine (Midway.issue (.load f) s f 49).loadTop fun u h hu => h.attempt fun v _ => ?_
  have hsp : u.sp = s.sp := hu
  exact Midway.storeTop h.congr (by simp [depthChange, hsp]) (by simp [writtenSlots, hsp]) (hsp.symm ▸ id)

theorem execStore_effect {f : Addr} (h : execStore f s = .next t) : Effect (.store f) s t := by
  refine whileRunning_post h ?_
  refine (Midway.issue (.store f) s f 52).loadTop fun v h h1 => h.lowerTop fun u h _ h2 => h.attempt fun m _ => ?_
  have hsp : u.sp = s.sp - 1 := h2.trans (congrArg (· - 1) h1)
  refine Midway.retire h.congr ?_ _
  exact hsp

theorem execSwap_effect {f : Addr} (h : execSwap f s = .next t) : Effect (.swap f) s t := by
  refine whileRunning_post h ?_
  refine (Midway.issue (.swap f) s f 55).loadTop fun u h hu => h.spPrev fun hne => ?_
  have hu : u.sp = s.sp := hu
  refine Midway.loadTop h.congr fun v h hv => ?_
  have hv : v.sp = s.sp - 1 := hu ▸ hv
  refine h.setSlot (by simp [writtenSlots, hv]) (by omega) fun st h => Midway.spNext h.congr ?_
  have hup : v.sp + 1 = s.sp := by omega
  exact Midway.storeTop h.congr (by simp [depthChange, hup]) (by simp [writtenSlots, hup])
    fun hlow => by simpa [hup] using hlow

/-- Every instruction, on every path. -/
theorem exec_effect {i : Instr} (h : exec i s = .next t) : Effect i s t := by
  cases i with
  | push a => exact execPush_effect h
  | pop f => exact execPop_effect h
  | jmp a => exact execJmp_effect h
  | jz a => exact whileRunning_post h (conditional_effect s rfl .jz a 5)
  | jnz a => exact whileRunning_post h (conditional_effect s rfl .jnz a 7)
  | js a => exact whileRunning_post h (conditional_effect s rfl .js a 9)
  | jns a => exact whileRunning_post h (conditional_effect s rfl .jns a 11)
  | call a => exact execCall_effect h
  | ret f => exact execRet_effect h
  | input p => exact execInput_effect h
  | output p => exact execOutput_effect h
  | inc f => exact whileRunning_post h (unary_effect s rfl rfl .inc f 21)
  | dec f => exact whileRunning_post h (unary_effect s rfl rfl .dec f 25)
  | add f => exact whileRunning_post h (binary_effect s rfl rfl .add f 29)
  | sub f => exact whileRunning_post h (binary_effect s rfl rfl .sub f 34)
  | mul f => exact whileRunning_post h (binary_effect s rfl rfl .mul f 39)
  | div f => exact whileRunning_post h (binary_effect s rfl rfl .div f 44)
  | load f => exact execLoad_effect h
  | store f => exact execStore_effect h
  | swap f => exact execSwap_effect h
  | hlt f => exact execHlt_effect h

/-- A step of any kind keeps the constants: a whole instruction, a fetch that ends the run, or one tick inside a
micro-sequence. -/
theorem step_launchKept (h : step s = .next t) : s.LaunchKept t := by
  by_cases hr : s.Running
  · by_cases h0 : s.mpc = 0
    · cases hf : fetchInstr s with
      | error x =>
        rw [step_fetch_error hr h0 hf] at h
        cases h
        exact ⟨rfl, rfl, rfl, rfl, rfl⟩
      | ok i =>
        rw [step_fetch_ok hr h0 hf] at h
        exact (exec_effect h).launch
    · rw [step_inside hr h0] at h
      cases h
      exact tickRunning_launchKept s
  · rw [step_ended hr] at h
    cases h

end

/-- Settles O44, from the effect of every instruction. -/
theorem stackDepthChange : Obligations.StackDepthChange := fun _ _ _ hs h =>
  have he := exec_effect h
  ⟨he.depth, he.slots hs.sp_low, he.launch.stackCap⟩

/-- Settles O47, from the effect of every instruction. -/
theorem callStackChangesOnlyInCallAndRet : Obligations.CallStackChangesOnlyInCallAndRet := fun _ _ _ hs h =>
  have he := exec_effect h
  ⟨he.calls, he.entries hs.scp_low⟩

/-- Settles O49, by the three kinds of step. -/
theorem launchConstantsNeverChange : Obligations.LaunchConstantsNeverChange := fun _ _ h =>
  have hk := step_launchKept h
  ⟨hk.prog, hk.dmemWords, hk.overflow, hk.stackCap, hk.callCap⟩

end Sys2Proof.Machine
end

section
/-! The ranges of the program counter, of the two pointers and of the state after reset (10_state.md R32, R35, R45, R50). -/

namespace Sys2Proof.Machine

/-! ### The program counter of a fetch -/

theorem State.fetch_pc_lt {s : State} {w : Word} (h : s.fetch = some w) : s.pc.toNat < s.prog.length :=
  (List.getElem?_eq_some_iff.1 h).1

/-- Settles O10: a word stands at `pc`, and a program has at most 2^24 - 1 words. -/
theorem fetchedPcNeverWraps : Obligations.FetchedPcNeverWraps := by
  intro s w hs hf
  have hlt := State.fetch_pc_lt hf
  have hlen := hs.prog_short
  have hpc : s.pc.toNat ≤ 2 ^ 24 - 2 := by omega
  exact ⟨hpc, by rw [BitVec.toNat_add, Nat.mod_eq_of_lt (by simp; omega)]; rfl⟩

/-! ### The pointers in one tick -/

/-- The `SP` field moves `sp` by one, and leaves it where it is not asserted. -/
theorem evalSp_ok {s : State} {m : Option Move} {x : Int} (h : evalSp s m = .ok x) :
    (x - s.sp).natAbs ≤ 1 ∧ (m = none → x = s.sp) := by
  cases m with
  | none => cases h; simp
  | some m =>
    cases m with
    | next => obtain ⟨-, rfl⟩ := State.spNext_ok.1 h; simp
    | prev => obtain ⟨-, rfl⟩ := State.spPrev_ok.1 h; simp

/-- The `CSP` field moves `scp` by one, and leaves it where it is not asserted. -/
theorem evalCsp_ok {s : State} {m : Option Move} {x : Int} (h : evalCsp s m = .ok x) :
    (x - s.scp).natAbs ≤ 1 ∧ (m = none → x = s.scp) := by
  cases m with
  | none => cases h; simp
  | some m =>
    cases m with
    | next => obtain ⟨-, rfl⟩ := State.scpNext_ok.1 h; simp
    | prev => obtain ⟨-, rfl⟩ := State.scpPrev_ok.1 h; simp

/-- Whether a word that is well-formed leaves one of the two pointer fields unasserted. -/
def movesOnePointer : Except Terminal Signals → Bool
  | .error _ => true
  | .ok g => g.sp.isNone || g.csp.isNone

/-- No word of the control store asserts both `SP` and `CSP` (R151). -/
theorem signalsAt_movesOnePointer : ∀ m : MicroAddr, movesOnePointer (signalsAt m) = true := by decide

theorem sp_or_csp_none {s : State} {g : Signals} (h : currentSignals s = .ok g) : g.sp = none ∨ g.csp = none := by
  have hm := signalsAt_movesOnePointer s.mpc
  rw [← currentSignals_eq, h] at hm
  simpa [movesOnePointer] using hm

/-- Settles O50: a tick ends the run, or moves the pointers by the `SP` and `CSP` fields of its word. -/
theorem pointersMoveByAtMostOne : Obligations.PointersMoveByAtMostOne := by
  intro s t h
  obtain ⟨-, ht⟩ := Option.ite_none_right_eq_some.1 h
  cases ht
  obtain ⟨x, hx⟩ | ⟨g, hg, hc⟩ := tickRunning_cases s
  · rw [hx]; simp
  · obtain ⟨_, sp, _, _, _, _, _, scp, _, _, _, -, hsp, -, -, -, -, -, hcsp, -, -, -, ht⟩ := commitSignals_ok hc
    obtain ⟨hsp1, hsp0⟩ := evalSp_ok hsp
    obtain ⟨hcsp1, hcsp0⟩ := evalCsp_ok hcsp
    rw [ht]
    exact ⟨hsp1, hcsp1, (sp_or_csp_none hg).imp hsp0 hcsp0⟩

/-! ### The state after reset -/

theorem reset_inv : State.reset.Inv where
  sp_low := by decide
  sp_high := by decide
  scp_low := by decide
  scp_high := by decide
  mpc_valid := by decide
  stackCap_pos := by decide
  callCap_pos := by decide
  prog_short := by decide
  dmem_wf := by decide
  dmem_inside := by decide
  status_legal := ⟨fun _ => rfl, fun _ => rfl, fun h => by cases h⟩

/-- Settles O57. The launch of two empty files is `State.reset`; its program holds no word, so the first fetch faults. -/
theorem resetMeetsInvariant : Obligations.ResetMeetsInvariant := by
  have hf : fetchInstr State.reset = .error (.fault .pcRange) := fetchInstr_error.2 (.inl ⟨rfl, rfl⟩)
  exact ⟨reset_inv, rfl, step_fetch_error rfl rfl hf⟩

end Sys2Proof.Machine
end

section
/-! Data memory and the port queues (20_memory.md R83, R86, R88, R93): what LOAD, STORE, INPUT and OUTPUT do when no terminal
condition holds, what a read gives after the matching write, and the frame of data memory over all instructions. -/

namespace Sys2Proof.Machine

/-! ### The shared micro-steps where no terminal condition holds: each goes on to the rest of the sequence -/

section
variable {s t : State} {k : State → State}

/-- The slot at a pointer inside the stack. -/
theorem State.slot_of_getElem? {v : Word} (h0 : 0 ≤ s.sp) (hv : s.stack[s.sp.toNat]? = some v) : s.slot = .ok v :=
  State.slot_ok.2 ⟨by omega, by rw [List.getD_eq_getElem?_getD, hv, Option.getD_some]⟩

theorem State.attempt_next {α : Type} {r : Except Terminal α} {a : α} {k : α → State} (hr : r = .ok a) (hk : k a = t) :
    s.attempt r k = t := by
  rw [hr, State.attempt_ok, hk]

theorem State.loadTop_next {v : Word} (h0 : 0 ≤ s.sp) (hv : s.stack[s.sp.toNat]? = some v)
    (hk : k { s with tos := v }.toNext = t) : s.loadTop k = t :=
  State.attempt_next (State.slot_of_getElem? h0 hv) hk

theorem State.lowerTop_next (h0 : 0 ≤ s.sp) (hk : k { s with sp := s.sp - 1 }.toNext = t) : s.lowerTop k = t :=
  State.attempt_next (State.spPrev_ok.2 ⟨by omega, rfl⟩) hk

theorem State.storeTop_next (h0 : 0 ≤ s.sp)
    (hk : { s with stack := s.stack.set s.sp.toNat s.tos }.retire (s.pc + 1) = t) : s.storeTop = t :=
  State.attempt_next (State.setSlot_ok.2 ⟨by omega, rfl⟩) hk

end

/-! ### The four instructions where no terminal condition holds (R250, R251, R300, R301) -/

section
variable {s : State} {v : Word}

theorem execLoad_next (f : Addr) {n : Nat} (hr : s.Running) (h0 : 0 ≤ s.sp) (hv : s.stack[s.sp.toNat]? = some v)
    (hn : dataAddress s.dmemWords v = some n) :
    execLoad f s = .next { s with
      arg := f, stack := s.stack.set s.sp.toNat (s.dmem.read n), tos := s.dmem.read n, pc := s.pc + 1, mpc := 0,
      tick := s.tick + 4 } := by
  refine whileRunning_eq_next.2 ⟨hr, State.loadTop_next h0 hv ?_⟩
  refine State.attempt_next (State.dataRead_ok.2 ⟨n, hn, rfl⟩) (State.storeTop_next h0 ?_)
  simp [State.retire, State.toNext, State.issue, BitVec.add_assoc]

theorem execStore_next (f : Addr) {a : Word} {n : Nat} (hr : s.Running) (h1 : 1 ≤ s.sp)
    (ha : s.stack[s.sp.toNat - 1]? = some a) (hv : s.stack[s.sp.toNat]? = some v)
    (hn : dataAddress s.dmemWords a = some n) :
    execStore f s = .next { s with
      arg := f, sp := s.sp - 1, dmem := s.dmem.write n v, tos := v, pc := s.pc + 1, mpc := 0, tick := s.tick + 4 } := by
  have h0 : 0 ≤ s.sp := by omega
  have hlow : 0 ≤ s.sp - 1 := by omega
  have ha : s.stack[(s.sp - 1).toNat]? = some a := by rwa [show (s.sp - 1).toNat = s.sp.toNat - 1 by omega]
  refine whileRunning_eq_next.2 ⟨hr, State.loadTop_next h0 hv <| State.lowerTop_next h0 ?_⟩
  refine State.attempt_next (State.dataWrite_ok.2 ⟨a, n, State.slot_of_getElem? hlow ha, hn, rfl⟩) ?_
  simp [State.retire, State.toNext, State.issue, BitVec.add_assoc]

theorem execOutput_next {p : Addr} (hr : s.Running) (h0 : 0 ≤ s.sp) (hv : s.stack[s.sp.toNat]? = some v)
    (hp : p.toNat < 16) :
    execOutput p s = .next { s with
      arg := p, sp := s.sp - 1, tos := v, ports := s.ports.set p.toNat (s.ports[p.toNat] ++ [v]), pc := s.pc + 1,
      mpc := 0, tick := s.tick + 3 } := by
  have hne : s.sp ≠ -1 := by omega
  refine whileRunning_eq_next.2 ⟨hr, State.loadTop_next h0 hv ?_⟩
  refine State.attempt_next (State.spPrev_ok.2 ⟨hne, rfl⟩) <| State.attempt_next (State.portWrite_ok.2 ⟨hp, rfl⟩) ?_
  simp [State.retire, State.toNext, State.issue, BitVec.add_assoc, portOperand]

theorem execInput_next {p : Addr} {q : List Word} (hr : s.Running) (hlow : -1 ≤ s.sp) (hroom : s.sp < s.stackCap - 1)
    (hp : p.toNat < 16) (hq : s.ports[p.toNat] = v :: q) :
    execInput p s = .next { s with
      arg := p, sp := s.sp + 1, stack := s.stack.set (s.sp + 1).toNat v, tos := v, ports := s.ports.set p.toNat q,
      pc := s.pc + 1, mpc := 0, tick := s.tick + 3 } := by
  have hne : s.sp ≠ s.stackCap - 1 := by omega
  have h0 : 0 ≤ s.sp + 1 := by omega
  refine whileRunning_eq_next.2 ⟨hr, State.attempt_next (State.spNext_ok.2 ⟨hne, rfl⟩) ?_⟩
  refine State.attempt_next (State.portRead_ok.2 ⟨hp, v, q, hq, rfl⟩) (State.storeTop_next h0 ?_)
  simp [State.retire, State.toNext, State.issue, BitVec.add_assoc, portOperand]

end

/-! ### A read after the matching write -/

/-- Settles O53: STORE leaves the address as the new top, LOAD reads data memory there, and `Memory.read_write` gives the
word just written. -/
theorem storeThenLoadReadsBack : Obligations.StoreThenLoadReadsBack := by
  intro f g s a v hr hwf h1 ha hv h0 hlt
  have hn : dataAddress s.dmemWords a = some a.toNat := dataAddress_some.2 ⟨h0, hlt, rfl⟩
  have hdown : (s.sp - 1).toNat = s.sp.toNat - 1 := by omega
  have hin : s.sp.toNat - 1 < s.stack.length := (List.getElem?_eq_some_iff.1 ha).1
  have ha' : s.stack[(s.sp - 1).toNat]? = some a := by rw [hdown, ha]
  refine ⟨_, _, execStore_next f hr h1 ha hv hn, execLoad_next g hr ?_ ha' hn, hr, rfl, ?_, rfl⟩
  · show 0 ≤ s.sp - 1
    omega
  · show (s.stack.set (s.sp - 1).toNat ((s.dmem.write a.toNat v).read a.toNat))[s.sp.toNat - 1]? = some v
    rw [Memory.read_write hwf, if_pos rfl, hdown, List.getElem?_set_self hin]

/-- OUTPUT and then INPUT of one port: the entry that comes back is the oldest of the queue with `v` appended. -/
theorem execOutput_then_execInput {s : State} {p : Addr} {v w : Word} {q : List Word} (hp : p.toNat < 16)
    (hr : s.Running) (h0 : 0 ≤ s.sp) (hv : s.stack[s.sp.toNat]? = some v) (hq : s.ports[p.toNat] ++ [v] = w :: q) :
    ∃ t u, execOutput p s = .next t ∧ execInput p t = .next u ∧ u.Running ∧ u.sp = s.sp ∧
      u.stack[s.sp.toNat]? = some w ∧ u.ports = s.ports.set p.toNat q := by
  have hin : s.sp.toNat < s.stack.length := (List.getElem?_eq_some_iff.1 hv).1
  have hup : s.sp - 1 + 1 = s.sp := by omega
  refine ⟨_, _, execOutput_next hr h0 hv hp, execInput_next (v := w) (q := q) ?_ ?_ ?_ hp ?_, hr, hup, ?_, ?_⟩
  · exact hr
  · show -1 ≤ s.sp - 1
    omega
  · show s.sp - 1 < s.stack.length - 1
    omega
  · show (s.ports.set p.toNat (s.ports[p.toNat] ++ [v]))[p.toNat] = w :: q
    rw [Vector.getElem_set_self, hq]
  · show (s.stack.set (s.sp - 1 + 1).toNat w)[s.sp.toNat]? = some w
    rw [hup, List.getElem?_set_self hin]
  · show (s.ports.set p.toNat (s.ports[p.toNat] ++ [v])).set p.toNat q = s.ports.set p.toNat q
    exact Vector.set_set _ hp

/-- Settles O52: the queue is empty, and the word written is its oldest entry, or it has an oldest entry already. -/
theorem outputThenInputIsFifo : Obligations.OutputThenInputIsFifo := by
  intro p s v hp hr h0 hv
  cases hq : s.ports[p.toNat] with
  | nil =>
    obtain ⟨t, u, ht, hu, hur, hsp, hstack, hports⟩ :=
      execOutput_then_execInput (w := v) (q := []) hp hr h0 hv (by simp [hq])
    have hsame : u.ports = s.ports := by rw [hports, ← hq, Vector.set_getElem_self]
    exact ⟨t, u, ht, hu, hur, hsp, fun _ => ⟨hstack, hsame⟩, nofun⟩
  | cons w q =>
    obtain ⟨t, u, ht, hu, hur, hsp, hstack, hports⟩ :=
      execOutput_then_execInput (w := w) (q := q ++ [v]) hp hr h0 hv (by simp [hq])
    refine ⟨t, u, ht, hu, hur, hsp, nofun, fun w' q' h => ?_⟩
    obtain ⟨rfl, rfl⟩ := List.cons.inj h
    exact ⟨hstack, by simp [hports]⟩

/-! ### The frame of data memory -/

section
variable {s t : State}

/-- The end of a run keeps data memory, so an attempt keeps it when what follows does. -/
theorem State.attempt_dmem {α : Type} {r : Except Terminal α} {k : α → State} (hk : ∀ a, (k a).dmem = s.dmem) :
    (s.attempt r k).dmem = s.dmem := by
  cases r with
  | error x => rfl
  | ok a => exact hk a

section
variable {k : State → State} (hk : ∀ u, (k u).dmem = u.dmem)
include hk

theorem State.loadTop_dmem : (s.loadTop k).dmem = s.dmem := State.attempt_dmem fun _ => hk _

theorem State.lowerTop_dmem : (s.lowerTop k).dmem = s.dmem := State.attempt_dmem fun _ => hk _

theorem State.compute_dmem {op : AluOp} : (s.compute op k).dmem = s.dmem := State.attempt_dmem fun _ => hk _

end

theorem State.storeTop_dmem (s : State) : s.storeTop.dmem = s.dmem := State.attempt_dmem fun _ => rfl

theorem State.storeAlu_dmem (s : State) : (s.takeAlu State.storeTop).dmem = s.dmem := State.storeTop_dmem _

theorem unary_dmem (op : AluOp) (f : Addr) (E : MicroAddr) (s : State) : (unary op f E s).dmem = s.dmem :=
  State.loadTop_dmem (s := s.issue f E) fun _ => State.compute_dmem State.storeAlu_dmem

theorem binary_dmem (op : AluOp) (f : Addr) (E : MicroAddr) (s : State) : (binary op f E s).dmem = s.dmem :=
  State.loadTop_dmem (s := s.issue f E) fun _ => State.lowerTop_dmem fun _ => State.compute_dmem State.storeAlu_dmem

theorem conditional_dmem (c : Cond) (a : Addr) (E : MicroAddr) (s : State) : (conditional c a E s).dmem = s.dmem :=
  State.loadTop_dmem (s := s.issue a E) fun _ => rfl

/-- A meaning whose sequence keeps data memory keeps it. -/
theorem whileRunning_dmem {f : State → State} (h : whileRunning s f = .next t) (hf : (f s).dmem = s.dmem) :
    t.dmem = s.dmem :=
  whileRunning_post (P := fun t => t.dmem = s.dmem) h hf

theorem execPush_dmem {a : Addr} (h : execPush a s = .next t) : t.dmem = s.dmem :=
  whileRunning_dmem h <| State.attempt_dmem (s := s.issue a 1) fun _ => State.storeTop_dmem _

theorem execPop_dmem {f : Addr} (h : execPop f s = .next t) : t.dmem = s.dmem :=
  whileRunning_dmem h <| State.attempt_dmem (s := s.issue f 3) fun _ => rfl

theorem execJmp_dmem {a : Addr} (h : execJmp a s = .next t) : t.dmem = s.dmem := whileRunning_dmem h rfl

theorem execHlt_dmem {f : Addr} (h : execHlt f s = .next t) : t.dmem = s.dmem := whileRunning_dmem h rfl

theorem execCall_dmem {a : Addr} (h : execCall a s = .next t) : t.dmem = s.dmem :=
  whileRunning_dmem h <| State.attempt_dmem (s := s.issue a 13) fun _ => State.attempt_dmem fun _ => rfl

theorem execRet_dmem {f : Addr} (h : execRet f s = .next t) : t.dmem = s.dmem :=
  whileRunning_dmem h <| State.attempt_dmem (s := s.issue f 15) fun _ => State.attempt_dmem fun _ => rfl

theorem execInput_dmem {p : Addr} (h : execInput p s = .next t) : t.dmem = s.dmem :=
  whileRunning_dmem h <| State.attempt_dmem (s := s.issue p 17) fun _ => State.attempt_dmem fun _ => State.storeTop_dmem _

theorem execOutput_dmem {p : Addr} (h : execOutput p s = .next t) : t.dmem = s.dmem :=
  whileRunning_dmem h <| State.loadTop_dmem (s := s.issue p 19) fun _ =>
    State.attempt_dmem fun _ => State.attempt_dmem fun _ => rfl

theorem execLoad_dmem {f : Addr} (h : execLoad f s = .next t) : t.dmem = s.dmem :=
  whileRunning_dmem h <| State.loadTop_dmem (s := s.issue f 49) fun _ => State.attempt_dmem fun _ => State.storeTop_dmem _

theorem execSwap_dmem {f : Addr} (h : execSwap f s = .next t) : t.dmem = s.dmem :=
  whileRunning_dmem h <| State.loadTop_dmem (s := s.issue f 55) fun _ => State.attempt_dmem fun _ =>
    State.loadTop_dmem fun _ => State.attempt_dmem fun _ => State.attempt_dmem fun _ => State.storeTop_dmem _

/-- STORE keeps data memory, where a tick ends the run, or writes one word at the address the entry beneath the top names
(R251). -/
theorem execStore_dmem {f : Addr} (h : execStore f s = .next t) :
    t.dmem = s.dmem ∨ ∃ n v, dataAddress s.dmemWords (s.stack.getD (s.sp - 1).toNat 0) = some n ∧
      t.dmem = s.dmem.write n v := by
  obtain ⟨-, ht⟩ := whileRunning_eq_next.1 h
  obtain ⟨x, -, rfl⟩ | ⟨v, -, ht⟩ := State.attempt_cases ht
  · exact .inl rfl
  obtain ⟨x, -, rfl⟩ | ⟨p, hp, ht⟩ := State.attempt_cases ht.symm
  · exact .inl rfl
  obtain ⟨x, -, rfl⟩ | ⟨m, hm, rfl⟩ := State.attempt_cases ht.symm
  · exact .inl rfl
  obtain ⟨-, rfl⟩ := State.spPrev_ok.1 hp
  obtain ⟨a, n, ha, hn, rfl⟩ := State.dataWrite_ok.1 hm
  obtain ⟨-, rfl⟩ := State.slot_ok.1 ha
  exact .inr ⟨n, v, hn, rfl⟩

/-- Every instruction but STORE keeps data memory (R83). -/
theorem exec_dmem {i : Instr} (hi : ∀ f, i ≠ .store f) (h : exec i s = .next t) : t.dmem = s.dmem := by
  cases i with
  | push a => exact execPush_dmem h
  | pop f => exact execPop_dmem h
  | jmp a => exact execJmp_dmem h
  | jz a => exact whileRunning_dmem h (conditional_dmem .jz a 5 s)
  | jnz a => exact whileRunning_dmem h (conditional_dmem .jnz a 7 s)
  | js a => exact whileRunning_dmem h (conditional_dmem .js a 9 s)
  | jns a => exact whileRunning_dmem h (conditional_dmem .jns a 11 s)
  | call a => exact execCall_dmem h
  | ret f => exact execRet_dmem h
  | input p => exact execInput_dmem h
  | output p => exact execOutput_dmem h
  | inc f => exact whileRunning_dmem h (unary_dmem .inc f 21 s)
  | dec f => exact whileRunning_dmem h (unary_dmem .dec f 25 s)
  | add f => exact whileRunning_dmem h (binary_dmem .add f 29 s)
  | sub f => exact whileRunning_dmem h (binary_dmem .sub f 34 s)
  | mul f => exact whileRunning_dmem h (binary_dmem .mul f 39 s)
  | div f => exact whileRunning_dmem h (binary_dmem .div f 44 s)
  | load f => exact execLoad_dmem h
  | store f => exact absurd rfl (hi f)
  | swap f => exact execSwap_dmem h
  | hlt f => exact execHlt_dmem (f := f) h

end

/-- Settles O46: only STORE reaches data memory, and its write shows at its own address alone. -/
theorem onlyStoreWritesDataMemory : Obligations.OnlyStoreWritesDataMemory := by
  intro i s t n hs h hne
  by_cases hi : ∃ f, i = .store f
  · refine ⟨hi, ?_⟩
    obtain ⟨f, rfl⟩ := hi
    obtain hsame | ⟨m, v, hm, hw⟩ := execStore_dmem h
    · exact absurd (by rw [hsame]) hne
    · by_cases hnm : n = m
      · exact hnm ▸ hm
      · exact absurd (by rw [hw, Memory.read_write hs.dmem_wf, if_neg hnm]) hne
  · exact absurd (by rw [exec_dmem (fun f hf => hi ⟨f, hf⟩) h]) hne

end Sys2Proof.Machine
end

section
/-! The encoding (30_encoding.md R110 to R119, R126): what the decoder can answer for any word, the encoder as its inverse,
the fields of integer arguments, and the end of a run at an illegal opcode. -/

namespace Sys2Proof

/-! ### The two fields of a word (R110, R111) -/

theorem opcodeOf_append_fieldOf (w : Word) : (opcodeOf w ++ fieldOf w : Word) = w :=
  (BitVec.extractLsb'_append_extractLsb'_eq_extractLsb' rfl).trans BitVec.extractLsb'_eq_self

theorem opcodeOf_toNat (w : Word) : (opcodeOf w).toNat = w.toNat / 2 ^ 24 := by
  have hw : w.toNat < 2 ^ 32 := w.isLt
  rw [opcodeOf, BitVec.extractLsb'_toNat, Nat.shiftRight_eq_div_pow]
  omega

theorem fieldOf_toNat (w : Word) : (fieldOf w).toNat = w.toNat % 2 ^ 24 := BitVec.extractLsb'_toNat ..

theorem opcodeOf_encode (i : Instr) : opcodeOf (encode i) = i.opcode := (Laws.EncodingFields.of_append ..).1

theorem fieldOf_encode (i : Instr) : fieldOf (encode i) = i.field := (Laws.EncodingFields.of_append ..).2

theorem encode_toNat (i : Instr) : (encode i).toNat = i.opcode.toNat <<< 24 ||| i.field.toNat := BitVec.toNat_append ..

/-! ### What the decoder can answer (R116, R118) -/

theorem Instr.opcode_toNat_le (i : Instr) : i.opcode.toNat ≤ 0x14 := by
  cases i <;> simp [Instr.opcode]

/-- A word decodes to an instruction that has both of its fields, or its opcode is illegal. -/
theorem decode_cases (w : Word) :
    (∃ i, decode w = .ok i ∧ opcodeOf w = i.opcode ∧ fieldOf w = i.field) ∨
      (0x15 ≤ (opcodeOf w).toNat ∧ decode w = .error (.unknownOpcode (opcodeOf w))) := by
  unfold decode
  split
  case h_22 =>
    refine .inr ⟨?_, rfl⟩
    simp only [imp_false] at *
    omega
  all_goals exact .inl ⟨_, rfl, BitVec.eq_of_toNat_eq ‹_›, rfl⟩

theorem decode_illegal {w : Word} (h : 0x15 ≤ (opcodeOf w).toNat) : decode w = .error (.unknownOpcode (opcodeOf w)) := by
  obtain ⟨i, -, hop, -⟩ | ⟨-, hw⟩ := decode_cases w
  · exact absurd i.opcode_toNat_le (by rw [← hop]; omega)
  · exact hw

/-- The decoder reads a word as `i` exactly where the word's two fields are those of `i`. -/
theorem decode_eq_ok_iff {w : Word} {i : Instr} : decode w = .ok i ↔ opcodeOf w = i.opcode ∧ fieldOf w = i.field := by
  constructor
  · intro h
    obtain ⟨j, hj, hfields⟩ | ⟨-, he⟩ := decode_cases w
    · obtain rfl : j = i := Except.ok.inj (hj.symm.trans h)
      exact hfields
    · cases he.symm.trans h
  · rintro ⟨hop, hfield⟩
    unfold decode
    rw [hop, hfield]
    cases i <;> rfl

/-- Settles O1: the encoder's word has the fields of its instruction. -/
theorem decodeOfEncode : Obligations.DecodeOfEncode := fun i =>
  decode_eq_ok_iff.2 ⟨opcodeOf_encode i, fieldOf_encode i⟩

/-- Settles O2: the two fields are the whole word. -/
theorem encodeOfDecode : Obligations.EncodeOfDecode := by
  intro w i h
  obtain ⟨hop, hfield⟩ := decode_eq_ok_iff.1 h
  rw [encode, ← hop, ← hfield, opcodeOf_append_fieldOf]

/-! ### Integer arguments (R111 to R115, R126) -/

/-- The integer arguments that R126 lets the toolchain give an opcode of each form. -/
def ArgForm.Takes : ArgForm → Int → Prop
  | .literal, n => -8388608 ≤ n ∧ n ≤ 8388607
  | .address, n => 0 ≤ n ∧ n ≤ 16777215
  | .port, n => 0 ≤ n ∧ n ≤ 15
  | .none, n => n = 0

theorem encodeArgument_eq_some {f : ArgForm} {n : Int} {a : Addr} :
    encodeArgument f n = some a ↔ f.Takes n ∧ a = fieldOfArgument n := by
  cases f <;> simp [encodeArgument, ArgForm.Takes, eq_comm (a := a)]

theorem takes_iff_encodes {f : ArgForm} {n : Int} : f.Takes n ↔ ∃ a, encodeArgument f n = some a := by
  simp [encodeArgument_eq_some]

theorem fieldOfArgument_toNat (n : Int) : (fieldOfArgument n).toNat = (n % 2 ^ 24).toNat := BitVec.toNat_ofInt ..

/-- `zext_24` undoes the reduction modulo 2^24 on the unsigned 24-bit integers (R113, R114). -/
theorem fieldOfArgument_toNat_of_range {n : Int} (h0 : 0 ≤ n) (h1 : n ≤ 16777215) :
    ((fieldOfArgument n).toNat : Int) = n := by
  rw [fieldOfArgument_toNat]
  omega

/-- `sext_24` undoes the reduction modulo 2^24 on the signed 24-bit integers (R112). -/
theorem literalOperand_fieldOfArgument {n : Int} (h : ArgForm.literal.Takes n) :
    (Machine.literalOperand (fieldOfArgument n)).toInt = n := by
  obtain ⟨hlow, hhigh⟩ := h
  rw [Machine.literalOperand, BitVec.toInt_signExtend_of_le (by decide), fieldOfArgument]
  exact BitVec.toInt_ofInt_eq_self (by decide) (by omega) (by omega)

/-- Settles O3: the word is its two fields appended, and the field of an integer is its residue modulo 2^24. -/
theorem encodingArithmetic : Obligations.EncodingArithmetic := by
  refine ⟨fun i n hn => ?_, fun n a h => ?_, fun w => ⟨opcodeOf_toNat w, fieldOf_toNat w⟩⟩
  · rw [encode_toNat, hn, fieldOfArgument_toNat]
  · obtain ⟨rfl, rfl⟩ := encodeArgument_eq_some.1 h
    rfl

/-- Settles O4: the ranges are those the assembler accepts, and on them each reading undoes the reduction modulo 2^24. -/
theorem toolchainArgumentRanges : Obligations.ToolchainArgumentRanges := by
  refine ⟨fun n => ⟨takes_iff_encodes (f := .literal), fun a h => ?_⟩,
    fun n => ⟨takes_iff_encodes (f := .address), fun a h => ?_⟩,
    fun n => ⟨takes_iff_encodes (f := .port), fun a h => ?_⟩, fun n a => ?_⟩
  · obtain ⟨hn, rfl⟩ := encodeArgument_eq_some.1 h
    exact literalOperand_fieldOfArgument hn
  · obtain ⟨⟨h0, h1⟩, rfl⟩ := encodeArgument_eq_some.1 h
    exact fieldOfArgument_toNat_of_range h0 h1
  · obtain ⟨⟨h0, h1⟩, rfl⟩ := encodeArgument_eq_some.1 h
    exact fieldOfArgument_toNat_of_range h0 (by omega)
  · rw [encodeArgument_eq_some]
    exact and_congr_right fun hn => by rw [show n = 0 from hn]; rfl

/-- Settles O5: fixed words, which the decoder evaluates. -/
theorem sampleWordsDecode : Obligations.SampleWordsDecode := by
  unfold Obligations.SampleWordsDecode
  decide

end Sys2Proof

namespace Sys2Proof.Machine

/-! ### The end of a run at an illegal opcode (R118, R174) -/

/-- `HLT` and the illegal opcodes are the ones without an entry point (R152). -/
theorem entryPoint_eq_none_iff {o : BitVec 8} : entryPoint o = none ↔ 0x14 ≤ o.toNat := by
  unfold entryPoint
  split
  case h_21 =>
    refine iff_of_true rfl ?_
    simp only [imp_false] at *
    omega
  all_goals exact iff_of_false nofun (by omega)

theorem lookup_illegal {w : Word} (h : 0x15 ≤ (opcodeOf w).toNat) : lookup w = .error (.fault .unknownOpcode) := by
  have hhlt : opcodeOf w ≠ 0x14 := by bv_omega
  rw [lookup, if_neg hhlt, entryPoint_eq_none_iff.2 (by omega)]

theorem State.endRun_fault_at_fetch {s : State} (h0 : s.mpc = 0) (r : FaultReason) :
    s.endRun (.fault r) = { s with status := faultAt r s.pc 0 } := by
  rw [← h0]
  rfl

/-- Settles O9: the decoder and the opcode lookup both fail, and the fetch of either level ends the run. -/
theorem illegalOpcodeFaults : Obligations.IllegalOpcodeFaults := by
  intro s w h
  refine ⟨decode_illegal h, entryPoint_eq_none_iff.2 (by omega), fun hr h0 hf => ?_⟩
  have hstep : step s = .next (s.endRun (.fault .unknownOpcode)) :=
    step_fetch_error hr h0 (fetchInstr_error.2 (.inr ⟨w, _, hf, decode_illegal h, rfl⟩))
  have htick : takeTick s = some (s.endRun (.fault .unknownOpcode)) := by
    rw [takeTick_running hr, tick_fetch h0, hf]
    simp only [lookup_illegal h, State.attempt_error]
  rw [State.endRun_fault_at_fetch h0] at hstep htick
  exact ⟨hstep, htick⟩

end Sys2Proof.Machine
end

section
/-! The control store and the two levels of description (40_microcode.md): the conditions of R160 and R122 on the store, the
fetch, and every instruction as the ticks of its micro-sequence (R178). -/

namespace Sys2Proof.Machine

/-! ### The control store (R151, R152, R160) -/

/-- Settles O36: R160's conditions evaluated on the 61 words; at word 14, `CSL` reads the `pc` that `PCL` writes. -/
theorem hazardSetsOfTheControlStore : Obligations.HazardSetsOfTheControlStore := by
  unfold Obligations.HazardSetsOfTheControlStore
  decide

theorem entryPoint_of_lt {o : BitVec 8} (h : o.toNat < 0x14) : ∃ m, entryPoint o = some m ∧ 1 ≤ m.toNat ∧ m.toNat ≤ 60 := by
  unfold entryPoint
  split
  case h_21 =>
    simp only [imp_false] at *
    omega
  all_goals exact ⟨_, rfl, by decide, by decide⟩

theorem controlStore_wellFormed : ∀ w ∈ controlStore, (decodeControl w).isSome :=
  List.all_eq_true.1 (show (controlStore.all fun w => (decodeControl w).isSome) = true by decide)

/-- Settles O37: the words are evaluated, the entry points read off their map. -/
theorem controlStoreIsWellFormed : Obligations.ControlStoreIsWellFormed :=
  ⟨controlStore_length, controlStore_wellFormed, fun _ => entryPoint_of_lt, fun _ => entryPoint_eq_none_iff.2⟩

/-- A word with `MPC=ZERO` or `MPC=NEXT` is not the fetch word, and the address after an `MPC=NEXT` is in the store. -/
def sequencesInside (m : MicroAddr) : Bool :=
  match signalsAt m with
  | .error _ => true
  | .ok g =>
    match g.mpc with
    | .zero => m != 0
    | .next => m != 0 && decide (m.toNat < 60)
    | .opc => true

theorem signalsAt_sequencesInside : ∀ m : MicroAddr, sequencesInside m = true := by decide

theorem inside_of_zero {m : MicroAddr} {g : Signals} (h : signalsAt m = .ok g) (hg : g.mpc = .zero) : m ≠ 0 := by
  have hm := signalsAt_sequencesInside m
  simpa only [sequencesInside, h, hg, bne_iff_ne] using hm

theorem inside_of_next {m : MicroAddr} {g : Signals} (h : signalsAt m = .ok g) (hg : g.mpc = .next) :
    m ≠ 0 ∧ m.toNat < 60 := by
  have hm := signalsAt_sequencesInside m
  simpa only [sequencesInside, h, hg, Bool.and_eq_true, bne_iff_ne, decide_eq_true_eq] using hm

/-! ### The fetch (R87, R170, R174) -/

/-- Settles O6: the fetch finds the word, and a step then runs what it decodes to. -/
theorem stepRunsTheDecodedInstruction : Obligations.StepRunsTheDecodedInstruction := fun _ w _ hr h0 hw hi =>
  step_fetch_ok hr h0 (fetchInstr_ok.2 ⟨w, hw, hi⟩)

/-- Settles O8: no word stands at `pc`, and the fetch of either level ends the run. -/
theorem fetchBeyondProgramFaults : Obligations.FetchBeyondProgramFaults := by
  intro s hr h0 hL
  have hf : s.fetch = none := List.getElem?_eq_none hL
  rw [← State.endRun_fault_at_fetch h0, takeTick_running hr, tick_fetch h0, hf]
  exact ⟨step_fetch_error hr h0 (fetchInstr_error.2 (.inl ⟨hf, rfl⟩)), rfl⟩

theorem lookup_of_entryPoint {w : Word} {E : MicroAddr} (h : entryPoint (opcodeOf w) = some E) : lookup w = .ok E := by
  have hhlt : opcodeOf w ≠ 0x14 := by
    intro he
    rw [he] at h
    cases h
  rw [lookup, if_neg hhlt, h]

theorem tick_aboutToFetch {s : State} {i : Instr} (h : s.AboutToFetch i) :
    tickRunning s = s.attempt (lookup (encode i)) fun m => s.issue i.field m := by
  rw [tick_fetch h.atFetch, h.word, ← fieldOf_encode]

/-! ### A tick inside a micro-sequence as a chain of accesses (R150, R330) -/

/-- The effect of a word's groups in R150's order, with the next control address: each access ends the run or goes on. -/
def State.effects (s : State) (g : Signals) (m : MicroAddr) : State :=
  s.attempt (evalSp s g.sp) fun sp =>
  s.attempt (evalTos s g.tos) fun tos =>
  s.attempt (evalDmw s g.dmw) fun dmem =>
  s.attempt (evalIow s g.iow tos.2) fun ports =>
  s.attempt (evalSlot s g.slot) fun stack =>
  s.attempt (evalAlu s g.alu) fun alu =>
  s.attempt (evalCsp s g.csp) fun scp =>
  s.attempt (evalCsl s g.csl) fun cstack =>
  s.attempt (evalPc s g) fun pc =>
  { s with
    sp := sp, tos := tos.1, dmem := dmem, ports := ports, sr := evalSrl s g.srl, stack := stack, alu := alu,
    scp := scp, cstack := cstack, pc := pc, mpc := m, tick := s.tick + 1 }

theorem State.attempt_bind {α β : Type} (s : State) (r : Except Terminal α) (q : α → Except Terminal β) (k : β → State) :
    s.attempt (r >>= q) k = s.attempt r fun a => s.attempt (q a) k := by
  cases r <;> rfl

theorem State.attempt_map {α β : Type} (s : State) (r : Except Terminal α) (f : α → β) (k : β → State) :
    s.attempt (r.map f) k = s.attempt r fun a => k (f a) := by
  cases r <;> rfl

theorem tickRunning_eq_effects {s : State} {g : Signals} {m : MicroAddr} (h : signalsAt s.mpc = .ok g) (h0 : s.mpc ≠ 0)
    (hm : evalMpc s g.mpc = .ok m) : tickRunning s = s.effects g m := by
  simp only [tickRunning_of_signals h, commitSignals, State.attempt_bind, fetchLatch_inside h0, hm, State.attempt_ok]
  rfl

theorem tick_next {s : State} {g : Signals} (h : signalsAt s.mpc = .ok g) (hg : g.mpc = .next) :
    tickRunning s = s.effects g (s.mpc + 1) := by
  obtain ⟨h0, h60⟩ := inside_of_next h hg
  exact tickRunning_eq_effects h h0 (by rw [hg, evalMpc_next h60])

theorem tick_zero {s : State} {g : Signals} (h : signalsAt s.mpc = .ok g) (hg : g.mpc = .zero) :
    tickRunning s = s.effects g 0 :=
  tickRunning_eq_effects h (inside_of_zero h hg) (by rw [hg]; rfl)

/-! ### Runs of ticks against micro-steps (R178) -/

/-- The ticks after an access that ended the run change nothing. -/
theorem runTicks_attempt {α : Type} (n : Nat) (s : State) (r : Except Terminal α) (f : α → State) :
    runTicks n (s.attempt r f) = s.attempt r fun a => runTicks n (f a) := by
  cases r with
  | error t => exact runTicks_ended (s.endRun_ended t) n
  | ok a => rfl

/-- From the control address `m`, the micro-steps `f` give what `n` ticks give. -/
def Follows (m : MicroAddr) (n : Nat) (f : State → State) : Prop := ∀ s : State, s.Running → s.mpc = m → f s = runTicks n s

section
variable {m : MicroAddr} {n : Nat} {k : State → State}

theorem Follows.tick {f : State → State} (h : ∀ s : State, s.Running → s.mpc = m → f s = runTicks n (tickRunning s)) :
    Follows m (n + 1) f := fun s hr hm => by
  rw [runTicks_succ_running hr, h s hr hm]

/-- The last word of a sequence. -/
theorem Follows.last {g : Signals} {f : State → State} (h : signalsAt m = .ok g) (hg : g.mpc = .zero)
    (hf : ∀ s : State, f s = s.effects g 0) : Follows m 1 f :=
  .tick fun s _ hm => (hf s).trans (tick_zero (hm ▸ h) hg).symm

/-- A word with one access and `MPC=NEXT`, before the rest of its sequence. -/
theorem Follows.next {α : Type} {g : Signals} {r : State → Except Terminal α} {f : State → α → State}
    (h : signalsAt m = .ok g) (hg : g.mpc = .next)
    (hf : ∀ s : State, s.effects g (s.mpc + 1) = s.attempt (r s) fun a => (f s a).toNext)
    (hkeep : ∀ s a, (f s a).status = s.status ∧ (f s a).mpc = s.mpc) (hk : Follows (m + 1) n k) :
    Follows m (n + 1) fun s => s.attempt (r s) fun a => k (f s a).toNext :=
  .tick fun s hr hm => by
    rw [tick_next (hm ▸ h) hg, hf, runTicks_attempt]
    congr 1
    funext a
    obtain ⟨hstatus, hmpc⟩ := hkeep s a
    exact hk _ (by rw [State.Running, State.toNext_status, hstatus]; exact hr) (by rw [State.toNext_mpc, hmpc, hm])

theorem Follows.loadTop (h : signalsAt m = .ok { tos := some .slot, mpc := .next }) (hk : Follows (m + 1) n k) :
    Follows m (n + 1) (·.loadTop k) :=
  .next (f := fun s v => { s with tos := v }) h rfl (fun _ => State.attempt_map ..) (fun _ _ => ⟨rfl, rfl⟩) hk

theorem Follows.lowerTop (h : signalsAt m = .ok { sp := some .prev, mpc := .next }) (hk : Follows (m + 1) n k) :
    Follows m (n + 1) (·.lowerTop k) :=
  .next (f := fun s p => { s with sp := p }) h rfl (fun _ => rfl) (fun _ _ => ⟨rfl, rfl⟩) hk

theorem Follows.compute {op : AluOp} (h : signalsAt m = .ok { alu := some op, mpc := .next })
    (hk : Follows (m + 1) n k) : Follows m (n + 1) (·.compute op k) :=
  .next (f := fun s x => { s with alu := x }) h rfl (fun _ => rfl) (fun _ _ => ⟨rfl, rfl⟩) hk

theorem Follows.takeAlu (h : signalsAt m = .ok { tos := some .alu, mpc := .next }) (hk : Follows (m + 1) n k) :
    Follows m (n + 1) (·.takeAlu k) :=
  .next (r := fun s => .ok s.alu) (f := fun s x => { s with tos := x }) h rfl (fun _ => rfl)
    (fun _ _ => ⟨rfl, rfl⟩) hk

theorem Follows.storeTop (h : signalsAt m = .ok { slot := some .tos, pcl := true, mpc := .zero }) :
    Follows m 1 State.storeTop := .last h rfl fun _ => rfl

theorem Follows.branch {c : Cond} (h : signalsAt m = .ok { pcl := true, cond := some c, mpc := .zero }) :
    Follows m 1 (·.branch c) := .tick fun _ _ hm => (tick_branch (hm ▸ h) (hm ▸ inside_of_zero h rfl)).symm

end

/-! ### The micro-sequences that several instructions share (R225, R227, R271) -/

section
variable {E : MicroAddr}

/-- `INC` and `DEC` after the fetch tick. -/
theorem unary_follows {op : AluOp} (h0 : signalsAt E = .ok { tos := some .slot, mpc := .next })
    (h1 : signalsAt (E + 1) = .ok { alu := some op, mpc := .next })
    (h2 : signalsAt (E + 1 + 1) = .ok { tos := some .alu, mpc := .next })
    (h3 : signalsAt (E + 1 + 1 + 1) = .ok { slot := some .tos, pcl := true, mpc := .zero }) :
    Follows E 4 (·.loadTop (·.compute op (·.takeAlu State.storeTop))) :=
  .loadTop h0 (.compute h1 (.takeAlu h2 (.storeTop h3)))

/-- `ADD`, `SUB`, `MUL` and `DIV` after the fetch tick. -/
theorem binary_follows {op : AluOp} (h0 : signalsAt E = .ok { tos := some .slot, mpc := .next })
    (h1 : signalsAt (E + 1) = .ok { sp := some .prev, mpc := .next })
    (h2 : signalsAt (E + 1 + 1) = .ok { alu := some op, mpc := .next })
    (h3 : signalsAt (E + 1 + 1 + 1) = .ok { tos := some .alu, mpc := .next })
    (h4 : signalsAt (E + 1 + 1 + 1 + 1) = .ok { slot := some .tos, pcl := true, mpc := .zero }) :
    Follows E 5 (·.loadTop (·.lowerTop (·.compute op (·.takeAlu State.storeTop)))) :=
  .loadTop h0 (.lowerTop h1 (.compute h2 (.takeAlu h3 (.storeTop h4))))

/-- The conditional branches after the fetch tick. -/
theorem conditional_follows {c : Cond} (h0 : signalsAt E = .ok { tos := some .slot, mpc := .next })
    (h1 : signalsAt (E + 1) = .ok { pcl := true, cond := some c, mpc := .zero }) :
    Follows E 2 (·.loadTop (·.branch c)) := .loadTop h0 (.branch h1)

end

/-! ### The micro-sequences of single instructions, after the fetch tick -/

theorem push_follows : Follows 1 2 fun s =>
    s.attempt s.spNext fun sp => { s with sp := sp, tos := literalOperand s.arg }.toNext.storeTop :=
  .next (f := fun s sp => { s with sp := sp, tos := literalOperand s.arg }) signals_push_0 rfl (fun _ => rfl)
    (fun _ _ => ⟨rfl, rfl⟩) (.storeTop signals_push_1)

theorem pop_follows : Follows 3 1 fun s => s.attempt s.spPrev fun sp => { s with sp := sp }.retire (s.pc + 1) :=
  .last signals_pop_0 rfl fun _ => rfl

theorem jmp_follows : Follows 4 1 fun s => s.retire (targetOperand s.arg) := .last signals_jmp_0 rfl fun _ => rfl

theorem call_follows : Follows 13 2 fun s => s.attempt s.scpNext fun scp =>
    let s := { s with scp := scp }.toNext
    s.attempt s.linked fun cs => { s with cstack := cs }.retire (targetOperand s.arg) :=
  have hlink : Follows 14 1 fun s => s.attempt s.linked fun cs => { s with cstack := cs }.retire (targetOperand s.arg) :=
    .last signals_call_1 rfl fun _ => rfl
  .next (f := fun s scp => { s with scp := scp }) signals_call_0 rfl (fun _ => rfl) (fun _ _ => ⟨rfl, rfl⟩) hlink

theorem ret_follows : Follows 15 2 fun s => s.attempt s.returnAddress fun a =>
    let s := { s with pc := a }.toNext
    s.attempt s.scpPrev fun scp => { s with scp := scp }.retire s.pc :=
  have hlower : Follows 16 1 fun s => s.attempt s.scpPrev fun scp => { s with scp := scp }.retire s.pc :=
    .last signals_ret_1 rfl fun _ => rfl
  .next (f := fun s a => { s with pc := a }) signals_ret_0 rfl (fun _ => rfl) (fun _ _ => ⟨rfl, rfl⟩) hlower

/-- `INPUT.0` makes two accesses in one tick. -/
theorem input_follows : Follows 17 2 fun s =>
    s.attempt s.spNext fun sp => s.attempt (s.portRead (portOperand s.arg)) fun r =>
      { s with sp := sp, tos := r.1, ports := r.2 }.toNext.storeTop :=
  .tick fun s hr hm => by
    have heffects : s.effects { sp := some .next, tos := some .port, mpc := .next } (s.mpc + 1) =
        s.attempt s.spNext fun sp => s.attempt (s.portRead (portOperand s.arg)) fun r =>
          { s with sp := sp, tos := r.1, ports := r.2 }.toNext := rfl
    rw [tick_next (by rw [hm]; exact signals_input_0) rfl, heffects]
    simp only [runTicks_attempt]
    congr! 4
    exact Follows.storeTop signals_input_1 _ hr (by rw [State.toNext_mpc, hm]; rfl)

theorem output_follows : Follows 19 2 (·.loadTop fun s =>
    s.attempt s.spPrev fun sp => s.attempt (s.portWrite (portOperand s.arg) s.tos) fun ps =>
      { s with sp := sp, ports := ps }.retire (s.pc + 1)) :=
  .loadTop signals_output_0 (.last signals_output_1 rfl fun _ => rfl)

theorem load_follows : Follows 49 3 (·.loadTop fun s =>
    s.attempt (s.dataRead s.tos) fun v => { s with tos := v }.toNext.storeTop) :=
  .loadTop signals_load_0 <|
    .next (f := fun s v => { s with tos := v }) signals_load_1 rfl (fun _ => State.attempt_map ..) (fun _ _ => ⟨rfl, rfl⟩)
      (.storeTop signals_load_2)

theorem store_follows : Follows 52 3 (·.loadTop (·.lowerTop fun s =>
    s.attempt s.dataWrite fun m => { s with dmem := m }.retire (s.pc + 1))) :=
  .loadTop signals_store_0 (.lowerTop signals_store_1 (.last signals_store_2 rfl fun _ => rfl))

/-- `SWAP.3` to `SWAP.5`: the word of `sr` into the lower slot, up, and `tos` into the upper slot. -/
theorem swapBack_follows : Follows 58 3 fun s => s.attempt (s.setSlot s.sr) fun st =>
    let s := { s with stack := st }.toNext
    s.attempt s.spNext fun sp => { s with sp := sp }.toNext.storeTop :=
  have hup : Follows 59 2 fun s => s.attempt s.spNext fun sp => { s with sp := sp }.toNext.storeTop :=
    .next (f := fun s sp => { s with sp := sp }) signals_swap_4 rfl (fun _ => rfl) (fun _ _ => ⟨rfl, rfl⟩)
      (.storeTop signals_swap_5)
  .next (f := fun s st => { s with stack := st }) signals_swap_3 rfl (fun _ => rfl) (fun _ _ => ⟨rfl, rfl⟩) hup

theorem swap_follows : Follows 55 6 (·.loadTop fun s => s.attempt s.spPrev fun sp =>
    let s := { s with sp := sp, sr := s.tos }.toNext
    s.loadTop fun s => s.attempt (s.setSlot s.sr) fun st =>
    let s := { s with stack := st }.toNext
    s.attempt s.spNext fun sp => { s with sp := sp }.toNext.storeTop) :=
  .loadTop signals_swap_0 <|
    .next (f := fun s sp => { s with sp := sp, sr := s.tos }) signals_swap_1 rfl (fun _ => rfl) (fun _ _ => ⟨rfl, rfl⟩)
      (.loadTop signals_swap_2 swapBack_follows)

/-! ### Whole instructions -/

section
variable {s : State} {i : Instr}

/-- The fetch tick before a micro-sequence: the instruction is issued at its entry point. -/
theorem whileRunning_issue {E : MicroAddr} {n : Nat} {f : State → State} (h : s.AboutToFetch i)
    (hE : entryPoint i.opcode = some E) (hf : Follows E n f) :
    whileRunning s (fun s => f (s.issue i.field E)) = .next (runTicks (n + 1) s) := by
  have htick : tickRunning s = s.issue i.field E := by
    rw [tick_aboutToFetch h, lookup_of_entryPoint (by rw [opcodeOf_encode, hE]), State.attempt_ok]
  rw [whileRunning_running h.running, runTicks_succ_running h.running, htick]
  exact congrArg _ (hf _ h.running rfl)

/-- The fetch tick of `HLT` ends the run (R277). -/
theorem execHlt_ticks {a : Addr} (h : s.AboutToFetch (.hlt a)) : execHlt a s = .next (runTicks 1 s) := by
  have hlookup : lookup (encode (.hlt a)) = .error .halted := if_pos (opcodeOf_encode _)
  rw [execHlt, whileRunning_running h.running, runTicks_succ_running h.running, tick_aboutToFetch h, hlookup]
  rfl

theorem exec_ticks (h : s.AboutToFetch i) : exec i s = .next (runTicks (ticksGiven i) s) := by
  cases i with
  | push a => exact whileRunning_issue h rfl push_follows
  | pop a => exact whileRunning_issue h rfl pop_follows
  | jmp a => exact whileRunning_issue h rfl jmp_follows
  | jz a => exact whileRunning_issue h rfl (conditional_follows signals_jz_0 signals_jz_1)
  | jnz a => exact whileRunning_issue h rfl (conditional_follows signals_jnz_0 signals_jnz_1)
  | js a => exact whileRunning_issue h rfl (conditional_follows signals_js_0 signals_js_1)
  | jns a => exact whileRunning_issue h rfl (conditional_follows signals_jns_0 signals_jns_1)
  | call a => exact whileRunning_issue h rfl call_follows
  | ret a => exact whileRunning_issue h rfl ret_follows
  | input a => exact whileRunning_issue h rfl input_follows
  | output a => exact whileRunning_issue h rfl output_follows
  | inc a => exact whileRunning_issue h rfl (unary_follows signals_inc_0 signals_inc_1 signals_inc_2 signals_inc_3)
  | dec a => exact whileRunning_issue h rfl (unary_follows signals_dec_0 signals_dec_1 signals_dec_2 signals_dec_3)
  | add a =>
    exact whileRunning_issue h rfl
      (binary_follows signals_add_0 signals_add_1 signals_add_2 signals_add_3 signals_add_4)
  | sub a =>
    exact whileRunning_issue h rfl
      (binary_follows signals_sub_0 signals_sub_1 signals_sub_2 signals_sub_3 signals_sub_4)
  | mul a =>
    exact whileRunning_issue h rfl
      (binary_follows signals_mul_0 signals_mul_1 signals_mul_2 signals_mul_3 signals_mul_4)
  | div a =>
    exact whileRunning_issue h rfl
      (binary_follows signals_div_0 signals_div_1 signals_div_2 signals_div_3 signals_div_4)
  | load a => exact whileRunning_issue h rfl load_follows
  | store a => exact whileRunning_issue h rfl store_follows
  | swap a => exact whileRunning_issue h rfl swap_follows
  | hlt a => exact execHlt_ticks h

theorem step_aboutToFetch (h : s.AboutToFetch i) : step s = exec i s :=
  stepRunsTheDecodedInstruction s _ i h.running h.atFetch h.word (decodeOfEncode i)

end

/-- Settles O34: the fetch tick issues the instruction, and each micro-step is the tick of its control word. -/
theorem instructionIsItsTicks : Obligations.InstructionIsItsTicks := fun _ _ h =>
  ⟨exec_ticks h, (step_aboutToFetch h).trans (exec_ticks h)⟩

end Sys2Proof.Machine
end

section
/-! The stack instructions (41_stack.md R200 to R202): how the ticks of a walk give what `exec` answers, and PUSH, POP and
SWAP tick by tick. -/

namespace Sys2Proof.Machine

/-! ### A walk against a run of ticks and against `exec` (R150, R178) -/

section
variable {s t : State} {m : MicroAddr} {ms : List MicroAddr}

theorem State.Walks.runTicks_add (h : s.Walks ms t) (k : Nat) : runTicks (ms.length + k) s = runTicks k t := by
  induction ms generalizing s with
  | nil =>
    obtain rfl : s = t := h
    rw [List.length_nil, Nat.zero_add]
  | cons m ms ih =>
    obtain ⟨-, u, htick, hu⟩ := h
    rw [List.length_cons, Nat.add_right_comm, runTicks, htick]
    exact ih hu

/-- Ticks given beyond the walk do nothing where the walk ended the run. -/
theorem State.Walks.runTicks_eq {n : Nat} (h : s.Walks ms t) (hn : n = ms.length ∨ ms.length ≤ n ∧ t.Ended) :
    runTicks n s = t := by
  rcases hn with rfl | ⟨hle, hend⟩
  · exact h.runTicks_add 0
  · obtain ⟨k, rfl⟩ := Nat.exists_eq_add_of_le hle
    rw [h.runTicks_add, runTicks_ended hend]

/-- A tick whose access succeeds, before the rest of the walk. -/
theorem State.Walks.goOn {α : Type} {r : Except Terminal α} {k : α → State} {a : α} (hr : s.Running)
    (hm : s.mpc = m) (htick : tickRunning s = s.attempt r k) (ha : r = .ok a) (hk : (k a).Walks ms t) : s.Walks (m :: ms) t :=
  ⟨hm, k a, by rw [takeTick_running hr, htick, ha, State.attempt_ok], hk⟩

/-- A tick whose access ends the run, the last of the walk. -/
theorem State.Walks.stop {α : Type} {r : Except Terminal α} {k : α → State} {x : Terminal} (hr : s.Running)
    (hm : s.mpc = m) (htick : tickRunning s = s.attempt r k) (hx : r = .error x) (ht : s.endRun x = t) : s.Walks [m] t :=
  ⟨hm, s.endRun x, by rw [takeTick_running hr, htick, hx, State.attempt_error], ht⟩

/-- Wherever a running CORE executes an instruction, the answer is its fetch tick and the ticks of its micro-sequence. -/
theorem whileRunning_eq_runTicks {a : Addr} {E : MicroAddr} {n : Nat} {f : State → State} (hr : s.Running)
    (hf : Follows E n f) : whileRunning s (fun s => f (s.issue a E)) = .next (runTicks n (s.issue a E)) := by
  rw [whileRunning_running hr]
  exact congrArg _ (hf _ hr rfl)

/-- The walk after the fetch tick decides both halves of `Lands`; it takes all `n` ticks of the sequence or ends
the run. -/
theorem State.Walks.lands {i : Instr} {E : MicroAddr} {n : Nat} (hw : (s.issue i.field E).Walks ms t)
    (hn : n = ms.length ∨ ms.length ≤ n ∧ t.Ended) (hexec : exec i s = .next (runTicks n (s.issue i.field E)))
    (hE : entryPoint i.opcode = some E) : s.Lands i (0 :: ms) t := by
  refine ⟨by rw [hexec, hw.runTicks_eq hn], fun h => ?_⟩
  have hlookup : lookup (encode i) = .ok E := lookup_of_entryPoint (by rw [opcodeOf_encode, hE])
  exact .goOn h.running h.atFetch (tick_aboutToFetch h) hlookup hw

/-! ### The shared words as steps of a walk -/

theorem State.Walks.loadTop {v : Word} (hr : s.Running) (hm : s.mpc = m)
    (hg : signalsAt m = .ok { tos := some .slot, mpc := .next }) (h0 : 0 ≤ s.sp) (hv : s.stack[s.sp.toNat]? = some v)
    (hk : { s with tos := v }.toNext.Walks ms t) : s.Walks (m :: ms) t := by
  subst hm
  obtain ⟨hne, h60⟩ := inside_of_next hg rfl
  exact .goOn hr rfl (tick_loadTop hg hne h60) (State.slot_of_getElem? h0 hv) hk

theorem State.Walks.loadTop_empty (hr : s.Running) (hm : s.mpc = m)
    (hg : signalsAt m = .ok { tos := some .slot, mpc := .next }) (hsp : s.sp = -1)
    (ht : s.endRun (.fault .stackUnderflow) = t) : s.Walks [m] t := by
  subst hm
  obtain ⟨hne, h60⟩ := inside_of_next hg rfl
  exact .stop hr rfl (tick_loadTop hg hne h60) (State.slot_error.2 ⟨hsp, rfl⟩) ht

theorem State.Walks.storeTop (hr : s.Running) (hm : s.mpc = m)
    (hg : signalsAt m = .ok { slot := some .tos, pcl := true, mpc := .zero }) (h0 : 0 ≤ s.sp)
    (ht : { s with stack := s.stack.set s.sp.toNat s.tos }.retire (s.pc + 1) = t) : s.Walks [m] t := by
  subst hm
  have hne : s.sp ≠ -1 := by omega
  exact .goOn hr rfl (tick_storeTop hg (inside_of_zero hg rfl)) (State.setSlot_ok.2 ⟨hne, rfl⟩) ht

end

/-! ### The words of PUSH, POP and SWAP alone (R151) -/

section
variable {s : State}

theorem tick_push_0 (hm : s.mpc = 1#6) :
    tickRunning s = s.attempt s.spNext fun sp => { s with sp := sp, tos := literalOperand s.arg }.toNext :=
  tick_next (hm ▸ signals_push_0) rfl

theorem tick_pop_0 (hm : s.mpc = 3#6) :
    tickRunning s = s.attempt s.spPrev fun sp => { s with sp := sp }.retire (s.pc + 1) :=
  tick_zero (hm ▸ signals_pop_0) rfl

theorem tick_swap_1 (hm : s.mpc = 56#6) :
    tickRunning s = s.attempt s.spPrev fun sp => { s with sp := sp, sr := s.tos }.toNext :=
  tick_next (hm ▸ signals_swap_1) rfl

theorem tick_swap_3 (hm : s.mpc = 58#6) :
    tickRunning s = s.attempt (s.setSlot s.sr) fun st => { s with stack := st }.toNext :=
  tick_next (hm ▸ signals_swap_3) rfl

theorem tick_swap_4 (hm : s.mpc = 59#6) :
    tickRunning s = s.attempt s.spNext fun sp => { s with sp := sp }.toNext :=
  tick_next (hm ▸ signals_swap_4) rfl

end

/-! ### PUSH (R200) -/

section
variable {s t : State} {a : Addr} {ms : List MicroAddr}

theorem push_lands (hr : s.Running) (hw : (s.issue a 1).Walks ms t) (hn : 2 = ms.length ∨ ms.length ≤ 2 ∧ t.Ended) :
    s.Lands (.push a) (0 :: ms) t :=
  hw.lands hn (whileRunning_eq_runTicks hr push_follows) rfl

theorem push_full (hr : s.Running) (hfull : s.sp = s.stackCap - 1) :
    s.Lands (.push a) [0, 1]
      { s with arg := a, mpc := 1, tick := s.tick + 1, status := faultAt .stackOverflow s.pc 1 } :=
  push_lands hr (.stop hr rfl (tick_push_0 rfl) (State.spNext_error.2 ⟨hfull, rfl⟩) rfl) (.inr ⟨by decide, nofun⟩)

theorem push_room (hr : s.Running) (hlow : -1 ≤ s.sp) (hroom : s.sp < s.stackCap - 1) :
    s.Lands (.push a) [0, 1, 2]
      { s with
        arg := a, sp := s.sp + 1, stack := s.stack.set (s.sp + 1).toNat (literalOperand a), tos := literalOperand a,
        pc := s.pc + 1, mpc := 0, tick := s.tick + 3 } := by
  have h0 : 0 ≤ s.sp + 1 := by omega
  refine push_lands hr (.goOn hr rfl (tick_push_0 rfl) (State.spNext_ok.2 ⟨hroom.ne, rfl⟩) ?_) (.inl rfl)
  refine .storeTop hr rfl signals_push_1 h0 ?_
  simp [State.retire, State.toNext, State.issue, BitVec.add_assoc]

end

/-- A number in the word range is what its word reads as (R10). -/
theorem s32_toInt {x : Int} (hlow : intMin ≤ x) (hhigh : x ≤ intMax) : (s32 x).toInt = x := by
  unfold intMin at hlow
  unfold intMax at hhigh
  rw [s32, BitVec.toInt_ofInt, Int.bmod_eq_of_le] <;> omega

/-- Settles O11: PUSH.0 faults on a full stack; with room, PUSH.1 stores the literal, which is `v` as a word. -/
theorem pushRule : Obligations.PushRule := by
  intro v s hlow hhigh hr
  have hs32 : (s32 v).toInt = v := s32_toInt (le_trans (by decide) hlow) (le_trans hhigh (by decide))
  have hliteral : literalOperand (fieldOfArgument v) = s32 v :=
    BitVec.eq_of_toInt_eq ((literalOperand_fieldOfArgument ⟨hlow, hhigh⟩).trans hs32.symm)
  exact ⟨rfl, hs32, push_full hr, fun h0 hroom => hliteral ▸ push_room hr h0 hroom⟩

/-! ### POP (R201) -/

theorem pop_lands {s t : State} {f : Addr} (hr : s.Running) (hw : (s.issue f 3).Walks [3] t) :
    s.Lands (.pop f) [0, 3] t :=
  hw.lands (.inl rfl) (whileRunning_eq_runTicks hr pop_follows) rfl

/-- Settles O12: POP.0 is the whole sequence, and only its `SP=PREV` can fail. -/
theorem popRule : Obligations.PopRule := by
  intro f s hr
  refine ⟨rfl, fun hempty => ?_, fun h0 => ?_⟩
  · exact pop_lands hr (.stop hr rfl (tick_pop_0 rfl) (State.spPrev_error.2 ⟨hempty, rfl⟩) rfl)
  · have hne : s.sp ≠ -1 := by omega
    refine pop_lands hr (.goOn hr rfl (tick_pop_0 rfl) (State.spPrev_ok.2 ⟨hne, rfl⟩) ?_)
    simp [State.Walks, State.retire, State.issue, BitVec.add_assoc]

/-! ### SWAP (R202) -/

section
variable {s t : State} {f : Addr} {a b : Word} {ms : List MicroAddr}

theorem swap_lands (hr : s.Running) (hw : (s.issue f 55).Walks ms t)
    (hn : 6 = ms.length ∨ ms.length ≤ 6 ∧ t.Ended) : s.Lands (.swap f) (0 :: ms) t :=
  hw.lands hn (whileRunning_eq_runTicks hr swap_follows) rfl

/-- SWAP.0 and SWAP.1: the top is taken into `tos` and `sr`, and the pointer goes down to the entry beneath it. -/
theorem swap_takesTop (hr : s.Running) (h0 : 0 ≤ s.sp) (hb : s.stack[s.sp.toNat]? = some b)
    (hk : { s with arg := f, tos := b, sr := b, sp := s.sp - 1, mpc := 57, tick := s.tick + 3 }.Walks ms t) :
    (s.issue f 55).Walks (55 :: 56 :: ms) t := by
  have hne : s.sp ≠ -1 := by omega
  refine .loadTop hr rfl signals_swap_0 h0 hb <| .goOn hr rfl (tick_swap_1 rfl) (State.spPrev_ok.2 ⟨hne, rfl⟩) ?_
  simpa [State.toNext, State.issue, BitVec.add_assoc] using hk

/-- SWAP.2 to SWAP.5: the lower entry is taken into `tos`, `sr` replaces it, and `tos` goes into the slot above. -/
theorem swap_putsBack (hr : s.Running) (hm : s.mpc = 57) (h0 : 0 ≤ s.sp) (hroom : s.sp < s.stackCap - 1)
    (ha : s.stack[s.sp.toNat]? = some a) :
    s.Walks [57, 58, 59, 60]
      { s with
        stack := (s.stack.set s.sp.toNat s.sr).set (s.sp + 1).toNat a, tos := a, sp := s.sp + 1, pc := s.pc + 1,
        mpc := 0, tick := s.tick + 4 } := by
  have hne : s.sp ≠ -1 := by omega
  have hup : 0 ≤ s.sp + 1 := by omega
  refine .loadTop hr hm signals_swap_2 h0 ha ?_
  refine .goOn hr (by simp [hm]) (tick_swap_3 (by simp [hm])) (State.setSlot_ok.2 ⟨hne, rfl⟩) ?_
  refine .goOn hr (by simp [hm]) (tick_swap_4 (by simp [hm])) (State.spNext_ok.2 ⟨?_, rfl⟩) ?_
  · simpa [State.stackCap] using hroom.ne
  refine .storeTop hr (by simp [hm]) signals_swap_5 hup ?_
  simp [State.retire, State.toNext, BitVec.add_assoc]

theorem swap_empty (hr : s.Running) (hempty : s.sp = -1) :
    s.Lands (.swap f) [0, 55]
      { s with arg := f, mpc := 55, tick := s.tick + 1, status := faultAt .stackUnderflow s.pc 55 } :=
  swap_lands hr (.loadTop_empty hr rfl signals_swap_0 hempty rfl) (.inr ⟨by decide, nofun⟩)

theorem swap_one (hr : s.Running) (h0 : s.sp = 0) (hb : s.stack[0]? = some b) :
    s.Lands (.swap f) [0, 55, 56, 57]
      { s with
        arg := f, tos := b, sr := b, sp := -1, mpc := 57, tick := s.tick + 3,
        status := faultAt .stackUnderflow s.pc 57 } := by
  have hdown : s.sp - 1 = -1 := by omega
  refine swap_lands hr (swap_takesTop hr (le_of_eq h0.symm) (by rwa [h0]) ?_) (.inr ⟨by decide, nofun⟩)
  rw [hdown]
  exact .loadTop_empty hr rfl signals_swap_2 rfl rfl

theorem swap_two (hr : s.Running) (h1 : 1 ≤ s.sp) (ha : s.stack[s.sp.toNat - 1]? = some a)
    (hb : s.stack[s.sp.toNat]? = some b) :
    s.Lands (.swap f) [0, 55, 56, 57, 58, 59, 60]
      { s with
        arg := f, stack := (s.stack.set (s.sp.toNat - 1) b).set s.sp.toNat a, tos := a, sr := b, pc := s.pc + 1,
        mpc := 0, tick := s.tick + 7 } := by
  have hin : s.sp.toNat < s.stack.length := (List.getElem?_eq_some_iff.1 hb).1
  have hdown : (s.sp - 1).toNat = s.sp.toNat - 1 := by omega
  have h0 : 0 ≤ s.sp - 1 := by omega
  have hroom : s.sp - 1 < s.stackCap - 1 := by unfold State.stackCap; omega
  refine swap_lands hr (swap_takesTop hr (by omega) hb ?_) (.inl rfl)
  have hback := swap_putsBack (s := { s with
    arg := f, tos := b, sr := b, sp := s.sp - 1, mpc := 57, tick := s.tick + 3 }) hr rfl h0 hroom (by rwa [hdown])
  simpa [hdown, BitVec.add_assoc] using hback

end

/-- Settles O13: SWAP.0 needs one entry, SWAP.2 a second, and with two each word goes into the other's slot. -/
theorem swapRule : Obligations.SwapRule := fun _ _ hr =>
  ⟨rfl, swap_empty hr, fun _ => swap_one hr, fun _ _ => swap_two hr⟩

/-! ### SWAP after SWAP -/

theorem exchange_twice {α : Type} {xs : List α} {i j : Nat} {a b : α} (hij : i ≠ j) (ha : xs[i]? = some a)
    (hb : xs[j]? = some b) : (((xs.set i b).set j a).set i a).set j b = xs := by
  obtain ⟨hi, rfl⟩ := List.getElem?_eq_some_iff.1 ha
  obtain ⟨hj, rfl⟩ := List.getElem?_eq_some_iff.1 hb
  rw [List.set_comm _ _ hij.symm, List.set_set, List.set_set, List.set_getElem_self, List.set_getElem_self]

/-- What a program sees of SWAP with two entries. -/
theorem execSwap_exchanges {s : State} (f : Addr) {a b : Word} (hr : s.Running) (h1 : 1 ≤ s.sp)
    (ha : s.stack[s.sp.toNat - 1]? = some a) (hb : s.stack[s.sp.toNat]? = some b) :
    ∃ t, exec (.swap f) s = .next t ∧ t.Running ∧ t.sp = s.sp ∧
      t.stack = (s.stack.set (s.sp.toNat - 1) b).set s.sp.toNat a ∧ t.pc = s.pc + 1 ∧ t.tick = s.tick + 7 :=
  ⟨_, (swap_two hr h1 ha hb).1, hr, rfl, rfl, rfl, rfl⟩

/-- Settles O54: after the first SWAP the two entries stand exchanged, so the rule with two entries applies once more, and
the second exchange undoes the first. -/
theorem swapTwiceRestoresTheStack : Obligations.SwapTwiceRestoresTheStack := by
  intro f g s hr h1 hcap
  have hlen : s.sp < s.stack.length := hcap
  have hj : s.sp.toNat < s.stack.length := by omega
  have hi : s.sp.toNat - 1 < s.stack.length := by omega
  have hij : s.sp.toNat - 1 ≠ s.sp.toNat := by omega
  have ha := List.getElem?_eq_getElem hi
  have hb := List.getElem?_eq_getElem hj
  obtain ⟨t, ht, htr, htsp, htstack, htpc, httick⟩ := execSwap_exchanges f hr h1 ha hb
  have hlower : t.stack[t.sp.toNat - 1]? = some s.stack[s.sp.toNat] := by
    rw [htsp, htstack, List.getElem?_set_ne hij.symm, List.getElem?_set_self hi]
  have hupper : t.stack[t.sp.toNat]? = some s.stack[s.sp.toNat - 1] := by
    rw [htsp, htstack, List.getElem?_set_self (by rwa [List.length_set])]
  obtain ⟨u, hu, hur, husp, hustack, hupc, hutick⟩ := execSwap_exchanges g htr (by rwa [htsp]) hlower hupper
  refine ⟨t, u, ht, hu, hur, ?_, husp.trans htsp, ?_, ?_⟩
  · rw [hustack, htsp, htstack, exchange_twice hij ha hb]
  · rw [hupc, htpc, BitVec.add_assoc]
    rfl
  · rw [hutick, httick, BitVec.add_assoc]
    rfl

end Sys2Proof.Machine
end

section
/-! The ALU function (42_arith.md R220 to R223): what it gives for each operation, in the integers, and how DIV rounds. -/

namespace Sys2Proof.Machine

/-! ### The ALU against the integers (R220, R221) -/

theorem toInt_inside (w : Word) : intMin ≤ w.toInt ∧ w.toInt ≤ intMax := ⟨w.le_toInt, Int.le_of_lt_add_one w.toInt_lt⟩

/-- What R220 and R221 say of an operation and its operands, with the exact result `x` and the word `w` congruent to it. -/
structure AluGives (op : AluOp) (l r : Word) (x : Int) (w : Word) : Prop where
  wrap : aluOp .wrap op l r = .ok w
  inside : ∀ p, intMin ≤ x → x ≤ intMax → aluOp p op l r = .ok w ∧ w.toInt = x
  outside : x < intMin ∨ intMax < x → aluOp .fault op l r = .error (.fault .arithOverflow)

theorem AluGives.of_aluExact {op : AluOp} {l r w : Word} {x : Int} (hx : aluExact op l.toInt r.toInt = .ok x)
    (hw : s32 x = w) : AluGives op l r x w := by
  subst hw
  have hnarrow : ∀ p, aluOp p op l r = narrow p x := fun p => by rw [aluOp, hx]
  exact {
    wrap := by rw [hnarrow, narrow_wrap]
    inside := fun p hlow hhigh => ⟨by rw [hnarrow, narrow_inside p ⟨hlow, hhigh⟩], s32_toInt hlow hhigh⟩
    outside := fun hout => by rw [hnarrow, narrow_outside (by omega)] }

/-! Each operation but DIV is the operation of the same name on words. -/

theorem inc_gives (v : Word) : AluGives .inc 0 v (v.toInt + 1) (v + 1) :=
  .of_aluExact rfl (by rw [s32, BitVec.ofInt_add, BitVec.ofInt_toInt]; rfl)

theorem dec_gives (v : Word) : AluGives .dec 0 v (v.toInt - 1) (v - 1) :=
  .of_aluExact rfl (BitVec.eq_of_toInt_eq (by rw [s32, BitVec.toInt_ofInt, BitVec.toInt_sub]; rfl))

theorem add_gives (a b : Word) : AluGives .add a b (a.toInt + b.toInt) (a + b) :=
  .of_aluExact rfl (BitVec.eq_of_toInt_eq (by rw [s32, BitVec.toInt_ofInt, BitVec.toInt_add]))

theorem sub_gives (a b : Word) : AluGives .sub a b (a.toInt - b.toInt) (a - b) :=
  .of_aluExact rfl (BitVec.eq_of_toInt_eq (by rw [s32, BitVec.toInt_ofInt, BitVec.toInt_sub]))

theorem mul_gives (a b : Word) : AluGives .mul a b (a.toInt * b.toInt) (a * b) :=
  .of_aluExact rfl (BitVec.eq_of_toInt_eq (by rw [s32, BitVec.toInt_ofInt, BitVec.toInt_mul]))

theorem div_gives {a b : Word} (hb : b.toInt ≠ 0) :
    AluGives .div a b (a.toInt.fdiv b.toInt) (s32 (a.toInt.fdiv b.toInt)) :=
  .of_aluExact (if_neg hb) rfl

theorem aluOp_div_zero (p : OverflowPolicy) {a b : Word} (hb : b.toInt = 0) :
    aluOp p .div a b = .error (.fault .divByZero) := by
  rw [aluOp, aluExact, if_pos hb]

/-! ### Floor division (R222, R223) -/

theorem floor_div_eq_fdiv (a b : Int) : ⌊(a : ℚ) / (b : ℚ)⌋ = a.fdiv b := by
  have hnat (a : Int) (n : Nat) : ⌊(a : ℚ) / ((n : Int) : ℚ)⌋ = a.fdiv n := by
    rw [Int.fdiv_eq_ediv_of_nonneg a n.cast_nonneg, Int.cast_natCast, Rat.floor_intCast_div_natCast]
  obtain ⟨n, rfl | rfl⟩ := b.eq_nat_or_neg
  · exact hnat a n
  · rw [← Int.neg_fdiv_neg, neg_neg, ← hnat, Int.cast_neg, Int.cast_neg, div_neg, neg_div]

theorem fdiv_bracket_of_pos (a : Int) {b : Int} (hb : 0 < b) : a.fdiv b * b ≤ a ∧ a < (a.fdiv b + 1) * b := by
  rw [Int.fdiv_eq_ediv_of_nonneg a hb.le]
  exact ⟨Int.ediv_mul_le a hb.ne', Int.lt_ediv_add_one_mul_self a hb⟩

theorem fdiv_bracket_of_neg (a : Int) {b : Int} (hb : b < 0) : a ≤ a.fdiv b * b ∧ (a.fdiv b + 1) * b < a := by
  obtain ⟨hlow, hhigh⟩ := fdiv_bracket_of_pos (-a) (Int.neg_pos_of_neg hb)
  rw [Int.neg_fdiv_neg] at hlow hhigh
  constructor <;> linarith

theorem fdiv_mem_of_pos {a b lo hi : Int} (hb : 0 < b) (hlo : lo ≤ 0) (hhi : 0 ≤ hi) (ha : lo ≤ a ∧ a ≤ hi) :
    lo ≤ a.fdiv b ∧ a.fdiv b ≤ hi := by
  rw [Int.fdiv_eq_ediv_of_nonneg a hb.le]
  constructor
  · exact (Int.le_ediv_iff_mul_le hb).2 (by nlinarith)
  · exact Int.ediv_le_of_le_mul hb (by nlinarith)

/-- `INT_MIN / -1` is the only quotient that is not a word (R223). -/
theorem fdiv_inside {a b : Word} (hb : b.toInt ≠ 0) (hne : ¬(a.toInt = intMin ∧ b.toInt = -1)) :
    intMin ≤ a.toInt.fdiv b.toInt ∧ a.toInt.fdiv b.toInt ≤ intMax := by
  have ha := toInt_inside a
  unfold intMin intMax at *
  rcases lt_or_gt_of_ne hb with hneg | hpos
  · rw [← Int.neg_fdiv_neg]
    have hb' : 0 < -b.toInt := Int.neg_pos_of_neg hneg
    by_cases hmin : a.toInt = -2147483648
    · have htop : -a.toInt = 2147483648 := by omega
      rw [htop, Int.fdiv_eq_ediv_of_nonneg _ hb'.le]
      have h2 : 2 ≤ -b.toInt := by omega
      have hle : 2147483648 / -b.toInt ≤ 2147483647 := Int.ediv_le_of_le_mul hb' (by omega)
      have h0 : 0 ≤ 2147483648 / -b.toInt := Int.ediv_nonneg (by decide) hb'.le
      exact ⟨by omega, hle⟩
    · exact fdiv_mem_of_pos hb' (by decide) (by decide) (by omega)
  · exact fdiv_mem_of_pos hpos (by decide) (by decide) ha

theorem aluOp_div (p : OverflowPolicy) {a b : Word} (hb : b.toInt ≠ 0) (hne : ¬(a.toInt = intMin ∧ b.toInt = -1)) :
    ∃ q, aluOp p .div a b = .ok q ∧ q.toInt = a.toInt.fdiv b.toInt :=
  have ⟨hlow, hhigh⟩ := fdiv_inside hb hne
  ⟨_, (div_gives hb).inside p hlow hhigh⟩

/-- The result of `INT_MIN / -1` is 2^31, one above the word range, and congruent to `INT_MIN`. -/
theorem intMin_div_neg_one {a b : Word} (ha : a.toInt = intMin) (hb : b.toInt = -1) : AluGives .div a b 2147483648 a :=
  .of_aluExact (by rw [ha, hb]; rfl) (BitVec.eq_of_toInt_eq (by rw [ha]; decide))

/-- Settles O33: a quotient the ALU gives is the floor quotient, which brackets the dividend; the table is evaluated. -/
theorem divisionRoundsDown : Obligations.DivisionRoundsDown := by
  refine ⟨fun p a b q hne hq => ?_, fun p => by cases p <;> decide, by decide, by decide⟩
  have hfloor (hb : b.toInt ≠ 0) : q.toInt = a.toInt.fdiv b.toInt := by
    obtain ⟨q', hq', hfloor⟩ := aluOp_div p hb hne
    obtain rfl : q' = q := Except.ok.inj (hq'.symm.trans hq)
    exact hfloor
  constructor
  · intro hpos
    rw [hfloor hpos.ne']
    exact fdiv_bracket_of_pos _ hpos
  · intro hneg
    rw [hfloor hneg.ne]
    exact fdiv_bracket_of_neg _ hneg

/-- The result of R220 before it is made a word, as the obligation writes it. -/
def exactResult (op : AluOp) (l r : Int) : Int :=
  match op with
  | .add => l + r
  | .sub => l - r
  | .mul => l * r
  | .div => ⌊(l : ℚ) / (r : ℚ)⌋
  | .inc => r + 1
  | .dec => r - 1

theorem aluExact_eq {op : AluOp} {l r : Int} (h : ¬(op = .div ∧ r = 0)) : aluExact op l r = .ok (exactResult op l r) := by
  cases op
  case div =>
    have hr : r ≠ 0 := fun hr => h ⟨rfl, hr⟩
    rw [aluExact, if_neg hr, exactResult, floor_div_eq_fdiv]
  all_goals rfl

theorem s32_toNat (x : Int) : ((s32 x).toNat : Int) = x % 2 ^ 32 := by
  rw [s32, BitVec.toNat_ofInt, Int.toNat_of_nonneg (Int.emod_nonneg _ (by decide))]
  rfl

/-- Settles O32: a zero divisor has no exact result; any other pair has one, and the policy decides only outside the
word range. -/
theorem aluFunction : Obligations.AluFunction := by
  intro p op l r
  refine ⟨fun hop hr => hop ▸ aluOp_div_zero p hr, fun hne => ?_⟩
  have hgives : AluGives op l r (exactResult op l.toInt r.toInt) _ :=
    .of_aluExact (aluExact_eq hne) rfl
  refine ⟨fun hlow hhigh => ⟨_, hgives.inside p hlow hhigh⟩, fun hout => ⟨?_, ?_⟩⟩
  · rintro rfl
    exact ⟨_, hgives.wrap, s32_toNat _⟩
  · rintro rfl
    exact hgives.outside hout

end Sys2Proof.Machine
end

section
/-! The arithmetic instructions (42_arith.md R225 to R230): INC, DEC, ADD, SUB, MUL and DIV tick by tick, with what the ALU
gives each of them. -/

namespace Sys2Proof.Machine

/-! ### The shared words of the arithmetic sequences as steps of a walk (R151) -/

section
variable {s t : State} {m : MicroAddr} {ms : List MicroAddr} {op : AluOp}

theorem State.Walks.lowerTop (hr : s.Running) (hm : s.mpc = m)
    (hg : signalsAt m = .ok { sp := some .prev, mpc := .next }) (h0 : 0 ≤ s.sp)
    (hk : { s with sp := s.sp - 1 }.toNext.Walks ms t) : s.Walks (m :: ms) t := by
  subst hm
  obtain ⟨hne, h60⟩ := inside_of_next hg rfl
  have hsp : s.sp ≠ -1 := by omega
  exact .goOn hr rfl (tick_lowerTop hg hne h60) (State.spPrev_ok.2 ⟨hsp, rfl⟩) hk

theorem State.Walks.compute {x : Word} (hr : s.Running) (hm : s.mpc = m)
    (hg : signalsAt m = .ok { alu := some op, mpc := .next }) (hx : s.aluResult op = .ok x)
    (hk : { s with alu := x }.toNext.Walks ms t) : s.Walks (m :: ms) t := by
  subst hm
  obtain ⟨hne, h60⟩ := inside_of_next hg rfl
  exact .goOn hr rfl (tick_compute hg hne h60) hx hk

theorem State.Walks.compute_stops {x : Terminal} (hr : s.Running) (hm : s.mpc = m)
    (hg : signalsAt m = .ok { alu := some op, mpc := .next }) (hx : s.aluResult op = .error x) (ht : s.endRun x = t) :
    s.Walks [m] t := by
  subst hm
  obtain ⟨hne, h60⟩ := inside_of_next hg rfl
  exact .stop hr rfl (tick_compute hg hne h60) hx ht

theorem State.Walks.takeAlu (hr : s.Running) (hm : s.mpc = m)
    (hg : signalsAt m = .ok { tos := some .alu, mpc := .next }) (hk : { s with tos := s.alu }.toNext.Walks ms t) :
    s.Walks (m :: ms) t := by
  subst hm
  obtain ⟨hne, h60⟩ := inside_of_next hg rfl
  exact ⟨rfl, _, by rw [takeTick_running hr, tick_takeAlu hg hne h60, State.takeAlu]; rfl, hk⟩

/-- The words `ALU=op`, `TOS=ALU` and `SLOT=TOS PCL`, with which every arithmetic sequence ends. -/
theorem State.Walks.computeAndStore {x : Word} (hr : s.Running) (hm : s.mpc = m)
    (hop : signalsAt m = .ok { alu := some op, mpc := .next })
    (htake : signalsAt (m + 1) = .ok { tos := some .alu, mpc := .next })
    (hstore : signalsAt (m + 2) = .ok { slot := some .tos, pcl := true, mpc := .zero }) (h0 : 0 ≤ s.sp)
    (hx : s.aluResult op = .ok x) :
    s.Walks [m, m + 1, m + 2]
      { s with
        stack := s.stack.set s.sp.toNat x, tos := x, alu := x, pc := s.pc + 1, mpc := 0, tick := s.tick + 3 } := by
  refine .compute hr hm hop hx (.takeAlu hr (by simp [hm]) htake ?_)
  refine .storeTop hr (by simp [hm, BitVec.add_assoc]) hstore h0 ?_
  simp [State.retire, State.toNext, BitVec.add_assoc]

end

/-! ### INC and DEC (R225, R226) -/

/-- The words of the control store from `E` on are those of `INC` or `DEC`, and `instr` runs them. -/
structure UnarySequence (instr : Addr → Instr) (op : AluOp) (E : MicroAddr) : Prop where
  op_unary : op = .inc ∨ op = .dec
  load : signalsAt E = .ok { tos := some .slot, mpc := .next }
  compute : signalsAt (E + 1) = .ok { alu := some op, mpc := .next }
  take : signalsAt (E + 2) = .ok { tos := some .alu, mpc := .next }
  store : signalsAt (E + 3) = .ok { slot := some .tos, pcl := true, mpc := .zero }
  entry : ∀ f, entryPoint (instr f).opcode = some E
  field : ∀ f, (instr f).field = f
  exec_eq : ∀ f s, exec (instr f) s = whileRunning s (unary op f E)

section
variable {instr : Addr → Instr} {op : AluOp} {E : MicroAddr} {s t : State} {f : Addr} {v : Word} {ms : List MicroAddr}

theorem UnarySequence.follows (q : UnarySequence instr op E) :
    Follows E 4 (·.loadTop (·.compute op (·.takeAlu State.storeTop))) :=
  unary_follows q.load q.compute (by rw [BitVec.add_assoc]; exact q.take) (by simpa [BitVec.add_assoc] using q.store)

theorem UnarySequence.lands (q : UnarySequence instr op E) (hr : s.Running) (hw : (s.issue f E).Walks ms t)
    (hn : 4 = ms.length ∨ ms.length ≤ 4 ∧ t.Ended) : s.Lands (instr f) (0 :: ms) t := by
  refine State.Walks.lands (by rwa [q.field]) hn ?_ (q.entry f)
  rw [q.exec_eq, q.field]
  exact whileRunning_eq_runTicks hr q.follows

/-- The state in which `op.1` finds the CORE. -/
theorem UnarySequence.loads (q : UnarySequence instr op E) (hr : s.Running) (h0 : 0 ≤ s.sp)
    (hv : s.stack[s.sp.toNat]? = some v)
    (hk : { s with arg := f, tos := v, mpc := E + 1, tick := s.tick + 2 }.Walks ms t) : (s.issue f E).Walks (E :: ms) t :=
  .loadTop hr rfl q.load h0 hv (by simpa [State.toNext, State.issue, BitVec.add_assoc] using hk)

theorem UnarySequence.rule (q : UnarySequence instr op E) : UnaryRule instr op E := by
  intro f s hr
  refine ⟨fun hempty => ?_, fun v h0 hv => ⟨fun r halu => ?_, fun x halu => ?_⟩⟩
  · exact q.lands hr (.loadTop_empty hr rfl q.load hempty rfl) (.inr ⟨by simp, nofun⟩)
  · have hstop := State.Walks.compute_stops (m := E + 1)
      (s := { s with arg := f, tos := v, mpc := E + 1, tick := s.tick + 2 }) hr rfl q.compute
      ((State.aluResult_unary _ q.op_unary).trans halu) rfl
    exact q.lands hr (q.loads hr h0 hv hstop) (.inr ⟨by simp, nofun⟩)
  · have hend := State.Walks.computeAndStore (m := E + 1)
      (s := { s with arg := f, tos := v, mpc := E + 1, tick := s.tick + 2 }) hr rfl q.compute
      (by simpa [BitVec.add_assoc] using q.take) (by simpa [BitVec.add_assoc] using q.store) h0
      ((State.aluResult_unary _ q.op_unary).trans halu)
    exact q.lands hr (q.loads hr h0 hv (by simpa [BitVec.add_assoc] using hend)) (.inl rfl)

end

theorem inc_sequence : UnarySequence .inc .inc 21 :=
  ⟨.inl rfl, signals_inc_0, signals_inc_1, signals_inc_2, signals_inc_3, fun _ => rfl, fun _ => rfl, fun _ _ => rfl⟩

theorem dec_sequence : UnarySequence .dec .dec 25 :=
  ⟨.inr rfl, signals_dec_0, signals_dec_1, signals_dec_2, signals_dec_3, fun _ => rfl, fun _ => rfl, fun _ _ => rfl⟩

/-- Settles O14: the sequence of `INC`, whose exact result leaves the word range at `INT_MAX` only. -/
theorem incRule : Obligations.IncRule := by
  refine ⟨fun _ => rfl, inc_sequence.rule, fun v => (inc_gives v).wrap, fun v hmax => ?_, fun v hmax => ?_⟩
  · exact (inc_gives v).outside (by omega)
  · have hv := toInt_inside v
    exact ((inc_gives v).inside .fault (by omega) (by omega)).1

/-- Settles O15: the sequence of `DEC`, whose exact result leaves the word range at `INT_MIN` only. -/
theorem decRule : Obligations.DecRule := by
  refine ⟨fun _ => rfl, dec_sequence.rule, fun v => (dec_gives v).wrap, fun v hmin => ?_, fun v hmin => ?_⟩
  · exact (dec_gives v).outside (by omega)
  · have hv := toInt_inside v
    exact ((dec_gives v).inside .fault (by omega) (by omega)).1

/-! ### ADD, SUB, MUL and DIV (R227 to R230) -/

/-- The words of the control store from `E` on are those of a binary operation, and `instr` runs them. -/
structure BinarySequence (instr : Addr → Instr) (op : AluOp) (E : MicroAddr) : Prop where
  op_binary : op ≠ .inc ∧ op ≠ .dec
  load : signalsAt E = .ok { tos := some .slot, mpc := .next }
  lower : signalsAt (E + 1) = .ok { sp := some .prev, mpc := .next }
  compute : signalsAt (E + 2) = .ok { alu := some op, mpc := .next }
  take : signalsAt (E + 3) = .ok { tos := some .alu, mpc := .next }
  store : signalsAt (E + 4) = .ok { slot := some .tos, pcl := true, mpc := .zero }
  entry : ∀ f, entryPoint (instr f).opcode = some E
  field : ∀ f, (instr f).field = f
  exec_eq : ∀ f s, exec (instr f) s = whileRunning s (binary op f E)

/-- A binary operation on the entry under `sp` and `tos`. -/
theorem State.aluResult_of_getElem? {s : State} {op : AluOp} {a : Word} (hop : op ≠ .inc ∧ op ≠ .dec) (h0 : 0 ≤ s.sp)
    (ha : s.stack[s.sp.toNat]? = some a) : s.aluResult op = aluOp s.overflow op a s.tos := by
  rw [State.aluResult_binary s hop, State.slot_of_getElem? h0 ha]
  rfl

theorem State.aluResult_empty {s : State} {op : AluOp} (hop : op ≠ .inc ∧ op ≠ .dec) (hsp : s.sp = -1) :
    s.aluResult op = .error (.fault .stackUnderflow) := by
  rw [State.aluResult_binary s hop, State.slot_error.2 ⟨hsp, rfl⟩]
  rfl

/-- The state in which `op.2` finds the CORE: `b` is in `tos`, and the pointer is at the entry beneath it. -/
def State.atCompute (s : State) (f : Addr) (E : MicroAddr) (b : Word) : State :=
  { s with arg := f, tos := b, sp := s.sp - 1, mpc := E + 2, tick := s.tick + 3 }

section
variable {instr : Addr → Instr} {op : AluOp} {E : MicroAddr} {s t : State} {f : Addr} {a b : Word} {ms : List MicroAddr}

theorem BinarySequence.follows (q : BinarySequence instr op E) :
    Follows E 5 (·.loadTop (·.lowerTop (·.compute op (·.takeAlu State.storeTop)))) :=
  binary_follows q.load q.lower (by simpa [BitVec.add_assoc] using q.compute)
    (by simpa [BitVec.add_assoc] using q.take) (by simpa [BitVec.add_assoc] using q.store)

theorem BinarySequence.lands (q : BinarySequence instr op E) (hr : s.Running) (hw : (s.issue f E).Walks ms t)
    (hn : 5 = ms.length ∨ ms.length ≤ 5 ∧ t.Ended) : s.Lands (instr f) (0 :: ms) t := by
  refine State.Walks.lands (by rwa [q.field]) hn ?_ (q.entry f)
  rw [q.exec_eq, q.field]
  exact whileRunning_eq_runTicks hr q.follows

/-- `op.0` and `op.1`. -/
theorem BinarySequence.loadsAndLowers (q : BinarySequence instr op E) (hr : s.Running) (h0 : 0 ≤ s.sp)
    (hb : s.stack[s.sp.toNat]? = some b) (hk : (s.atCompute f E b).Walks ms t) :
    (s.issue f E).Walks (E :: (E + 1) :: ms) t := by
  refine .loadTop hr rfl q.load h0 hb (.lowerTop hr (by simp) q.lower h0 ?_)
  simpa [State.atCompute, State.toNext, State.issue, BitVec.add_assoc] using hk

theorem BinarySequence.faults (q : BinarySequence instr op E) {r : FaultReason} (hr : s.Running) (h0 : 0 ≤ s.sp)
    (hb : s.stack[s.sp.toNat]? = some b) (halu : (s.atCompute f E b).aluResult op = .error (.fault r)) :
    s.Lands (instr f) [0, E, E + 1, E + 2]
      { s with
        arg := f, tos := b, sp := s.sp - 1, mpc := E + 2, tick := s.tick + 3, status := faultAt r s.pc (E + 2) } :=
  have hstop : (s.atCompute f E b).Walks [E + 2] ((s.atCompute f E b).endRun (.fault r)) :=
    .compute_stops hr rfl q.compute halu rfl
  q.lands hr (q.loadsAndLowers hr h0 hb hstop) (.inr ⟨by simp, nofun⟩)

theorem BinarySequence.completes (q : BinarySequence instr op E) {x : Word} (hr : s.Running) (h1 : 1 ≤ s.sp)
    (hb : s.stack[s.sp.toNat]? = some b) (halu : (s.atCompute f E b).aluResult op = .ok x) :
    s.Lands (instr f) [0, E, E + 1, E + 2, E + 3, E + 4]
      { s with
        arg := f, sp := s.sp - 1, stack := s.stack.set (s.sp.toNat - 1) x, tos := x, alu := x, pc := s.pc + 1,
        mpc := 0, tick := s.tick + 6 } := by
  have hdown : (s.sp - 1).toNat = s.sp.toNat - 1 := by omega
  have hsp : 0 ≤ (s.atCompute f E b).sp := Int.sub_nonneg_of_le h1
  have hend := State.Walks.computeAndStore (s := s.atCompute f E b) (m := E + 2) hr rfl q.compute
    (by simpa [BitVec.add_assoc] using q.take) (by simpa [BitVec.add_assoc] using q.store) hsp halu
  refine q.lands hr (q.loadsAndLowers hr (by omega) hb ?_) (.inl rfl)
  simpa [State.atCompute, hdown, BitVec.add_assoc] using hend

theorem BinarySequence.rule (q : BinarySequence instr op E) : BinaryRule instr op E := by
  intro f s hr
  refine ⟨fun hempty => ?_, fun b hone hb => ?_, fun a b h1 ha hb => ?_⟩
  · exact q.lands hr (.loadTop_empty hr rfl q.load hempty rfl) (.inr ⟨by simp, nofun⟩)
  · have hdown : s.sp - 1 = -1 := by omega
    rw [← hdown]
    exact q.faults hr hone.ge (by rwa [hone]) (State.aluResult_empty q.op_binary hdown)
  · have hlower : (s.sp - 1).toNat = s.sp.toNat - 1 := by omega
    have halu : (s.atCompute f E b).aluResult op = aluOp s.overflow op a b :=
      State.aluResult_of_getElem? q.op_binary (Int.sub_nonneg_of_le h1) (by rwa [← hlower] at ha)
    exact ⟨fun r hfault => q.faults hr (by omega) hb (halu.trans hfault),
      fun x hx => q.completes hr h1 hb (halu.trans hx)⟩

end

theorem add_sequence : BinarySequence .add .add 29 :=
  ⟨⟨nofun, nofun⟩, signals_add_0, signals_add_1, signals_add_2, signals_add_3, signals_add_4, fun _ => rfl, fun _ => rfl,
    fun _ _ => rfl⟩

theorem sub_sequence : BinarySequence .sub .sub 34 :=
  ⟨⟨nofun, nofun⟩, signals_sub_0, signals_sub_1, signals_sub_2, signals_sub_3, signals_sub_4, fun _ => rfl, fun _ => rfl,
    fun _ _ => rfl⟩

theorem mul_sequence : BinarySequence .mul .mul 39 :=
  ⟨⟨nofun, nofun⟩, signals_mul_0, signals_mul_1, signals_mul_2, signals_mul_3, signals_mul_4, fun _ => rfl, fun _ => rfl,
    fun _ _ => rfl⟩

theorem div_sequence : BinarySequence .div .div 44 :=
  ⟨⟨nofun, nofun⟩, signals_div_0, signals_div_1, signals_div_2, signals_div_3, signals_div_4, fun _ => rfl, fun _ => rfl,
    fun _ _ => rfl⟩

/-- Settles O16: the shared sequence, with the sum the ALU gives. -/
theorem addRule : Obligations.AddRule :=
  ⟨fun _ => rfl, add_sequence.rule, fun a b => (add_gives a b).wrap, fun a b => (add_gives a b).outside,
    fun a b => (add_gives a b).inside .fault⟩

/-- Settles O17: the shared sequence, with the difference the ALU gives. -/
theorem subRule : Obligations.SubRule :=
  ⟨fun _ => rfl, sub_sequence.rule, fun a b => (sub_gives a b).wrap, fun a b => (sub_gives a b).outside,
    fun a b => (sub_gives a b).inside .fault⟩

/-- Settles O18: the shared sequence, with the product the ALU gives. -/
theorem mulRule : Obligations.MulRule :=
  ⟨fun _ => rfl, mul_sequence.rule, fun a b => (mul_gives a b).wrap, fun a b => (mul_gives a b).outside,
    fun a b => (mul_gives a b).inside .fault⟩

/-- Settles O19: the shared sequence, with the three cases of R223 for the quotient. -/
theorem divRule : Obligations.DivRule := by
  refine ⟨fun _ => rfl, div_sequence.rule, fun p a b hb => ?_, fun a b ha hb => ?_, fun p a b hb hne => ?_⟩
  · exact aluOp_div_zero p (congrArg BitVec.toInt hb)
  · have hgives := intMin_div_neg_one ha hb
    exact ⟨hgives.wrap, hgives.outside (.inr (by decide))⟩
  · rw [floor_div_eq_fdiv]
    exact aluOp_div p (fun h0 => hb (BitVec.eq_of_toInt_eq h0)) hne

end Sys2Proof.Machine
end

section
/-! LOAD and STORE tick by tick (43_memory.md R250, R251), with the faults of each. -/

namespace Sys2Proof.Machine

/-! ### The address a word names, and the words of LOAD and STORE alone (R86, R151) -/

/-- A data address is the signed reading of its word (R85). -/
theorem dataAddress_of_toInt {n : Nat} {w : Word} (h0 : 0 ≤ w.toInt) (hn : w.toInt < n) :
    dataAddress n w = some w.toInt.toNat :=
  dataAddress_some.2 ⟨h0, hn, BitVec.toNat_toInt_of_sle (decide_eq_true h0)⟩

section
variable {s : State}

theorem tick_load_1 (hm : s.mpc = 50#6) :
    tickRunning s = s.attempt (s.dataRead s.tos) fun v => { s with tos := v }.toNext := by
  have hg : signalsAt s.mpc = .ok { tos := some .mem, mpc := .next } := hm ▸ signals_load_1
  exact (tick_next hg rfl).trans (State.attempt_map ..)

theorem tick_store_2 (hm : s.mpc = 54#6) :
    tickRunning s = s.attempt s.dataWrite fun m => { s with dmem := m }.retire (s.pc + 1) :=
  tick_zero (hm ▸ signals_store_2) rfl

end

/-! ### LOAD (R250) -/

section
variable {s t : State} {f : Addr} {a : Word} {ms : List MicroAddr}

theorem load_lands (hr : s.Running) (hw : (s.issue f 49).Walks ms t) (hn : 3 = ms.length ∨ ms.length ≤ 3 ∧ t.Ended) :
    s.Lands (.load f) (0 :: ms) t :=
  hw.lands hn (whileRunning_eq_runTicks hr load_follows) rfl

theorem load_empty (hr : s.Running) (hempty : s.sp = -1) :
    s.Lands (.load f) [0, 49]
      { s with arg := f, mpc := 49, tick := s.tick + 1, status := faultAt .stackUnderflow s.pc 49 } :=
  load_lands hr (.loadTop_empty hr rfl signals_load_0 hempty rfl) (.inr ⟨by decide, nofun⟩)

/-- LOAD.0: the address is taken into `tos`. -/
theorem load_takesAddress (hr : s.Running) (h0 : 0 ≤ s.sp) (ha : s.stack[s.sp.toNat]? = some a)
    (hk : { s with arg := f, tos := a, mpc := 50, tick := s.tick + 2 }.Walks ms t) :
    (s.issue f 49).Walks (49 :: ms) t :=
  .loadTop hr rfl signals_load_0 h0 ha (by simpa [State.toNext, State.issue, BitVec.add_assoc] using hk)

theorem load_outside (hr : s.Running) (h0 : 0 ≤ s.sp) (ha : s.stack[s.sp.toNat]? = some a)
    (hout : a.toInt < 0 ∨ a.toInt ≥ s.dmemWords) :
    s.Lands (.load f) [0, 49, 50]
      { s with arg := f, tos := a, mpc := 50, tick := s.tick + 2, status := faultAt .dataAddress s.pc 50 } :=
  have hread := State.dataRead_error.2 ⟨dataAddress_none.2 hout, rfl⟩
  load_lands hr (load_takesAddress hr h0 ha (.stop hr rfl (tick_load_1 rfl) hread rfl)) (.inr ⟨by decide, nofun⟩)

theorem load_inside (hr : s.Running) (h0 : 0 ≤ s.sp) (ha : s.stack[s.sp.toNat]? = some a) (hlow : 0 ≤ a.toInt)
    (hhigh : a.toInt < s.dmemWords) :
    s.Lands (.load f) [0, 49, 50, 51]
      { s with
        arg := f, stack := s.stack.set s.sp.toNat (s.dmem.read a.toInt.toNat), tos := s.dmem.read a.toInt.toNat,
        pc := s.pc + 1, mpc := 0, tick := s.tick + 4 } := by
  have hread := State.dataRead_ok.2 ⟨_, dataAddress_of_toInt hlow hhigh, rfl⟩
  refine load_lands hr (load_takesAddress hr h0 ha (.goOn hr rfl (tick_load_1 rfl) hread ?_)) (.inl rfl)
  refine .storeTop hr rfl signals_load_2 h0 ?_
  simp [State.retire, State.toNext, BitVec.add_assoc]

end

/-- Settles O20: LOAD.0 needs one entry, LOAD.1 an address inside data memory, and LOAD.2 stores the word read there. -/
theorem loadRule : Obligations.LoadRule := fun _ _ hr =>
  ⟨rfl, load_empty hr, fun _ h0 ha => ⟨load_outside hr h0 ha, load_inside hr h0 ha⟩⟩

/-! ### STORE (R251) -/

section
variable {s t : State} {f : Addr} {a v : Word} {ms : List MicroAddr}

theorem store_lands (hr : s.Running) (hw : (s.issue f 52).Walks ms t) (hn : 3 = ms.length ∨ ms.length ≤ 3 ∧ t.Ended) :
    s.Lands (.store f) (0 :: ms) t :=
  hw.lands hn (whileRunning_eq_runTicks hr store_follows) rfl

theorem store_empty (hr : s.Running) (hempty : s.sp = -1) :
    s.Lands (.store f) [0, 52]
      { s with arg := f, mpc := 52, tick := s.tick + 1, status := faultAt .stackUnderflow s.pc 52 } :=
  store_lands hr (.loadTop_empty hr rfl signals_store_0 hempty rfl) (.inr ⟨by decide, nofun⟩)

/-- The state in which STORE.2 finds the CORE: the value is in `tos`, and the pointer is at the entry beneath it. -/
def State.atStore (s : State) (f : Addr) (v : Word) : State :=
  { s with arg := f, tos := v, sp := s.sp - 1, mpc := 54, tick := s.tick + 3 }

/-- STORE.0 and STORE.1. -/
theorem store_takesValue (hr : s.Running) (h0 : 0 ≤ s.sp) (hv : s.stack[s.sp.toNat]? = some v)
    (hk : (s.atStore f v).Walks ms t) : (s.issue f 52).Walks (52 :: 53 :: ms) t := by
  refine .loadTop hr rfl signals_store_0 h0 hv (.lowerTop hr rfl signals_store_1 h0 ?_)
  simpa [State.atStore, State.toNext, State.issue, BitVec.add_assoc] using hk

/-- STORE.2 reads its address from the entry beneath the value. -/
theorem State.atStore_slot (h1 : 1 ≤ s.sp) (ha : s.stack[s.sp.toNat - 1]? = some a) : (s.atStore f v).slot = .ok a := by
  have hdown : (s.sp - 1).toNat = s.sp.toNat - 1 := by omega
  exact State.slot_of_getElem? (Int.sub_nonneg_of_le h1) (by rwa [← hdown] at ha)

/-- Both faults of STORE.2 leave the same state but for the reason. -/
theorem store_faults {r : FaultReason} (hr : s.Running) (h0 : 0 ≤ s.sp) (hv : s.stack[s.sp.toNat]? = some v)
    (hwrite : (s.atStore f v).dataWrite = .error (.fault r)) :
    s.Lands (.store f) [0, 52, 53, 54]
      { s with
        arg := f, tos := v, sp := s.sp - 1, mpc := 54, tick := s.tick + 3, status := faultAt r s.pc 54 } :=
  store_lands hr (store_takesValue hr h0 hv (.stop hr rfl (tick_store_2 rfl) hwrite rfl)) (.inr ⟨by decide, nofun⟩)

theorem store_one (hr : s.Running) (hone : s.sp = 0) (hv : s.stack[0]? = some v) :
    s.Lands (.store f) [0, 52, 53, 54]
      { s with
        arg := f, tos := v, sp := -1, mpc := 54, tick := s.tick + 3, status := faultAt .stackUnderflow s.pc 54 } := by
  have hdown : s.sp - 1 = -1 := by omega
  rw [← hdown]
  exact store_faults hr hone.ge (by rwa [hone]) (State.dataWrite_error.2 (.inl (State.slot_error.2 ⟨hdown, rfl⟩)))

theorem store_outside (hr : s.Running) (h1 : 1 ≤ s.sp) (ha : s.stack[s.sp.toNat - 1]? = some a)
    (hv : s.stack[s.sp.toNat]? = some v) (hout : a.toInt < 0 ∨ a.toInt ≥ s.dmemWords) :
    s.Lands (.store f) [0, 52, 53, 54]
      { s with
        arg := f, tos := v, sp := s.sp - 1, mpc := 54, tick := s.tick + 3,
        status := faultAt .dataAddress s.pc 54 } :=
  store_faults hr (by omega) hv
    (State.dataWrite_error.2 (.inr ⟨a, State.atStore_slot h1 ha, dataAddress_none.2 hout, rfl⟩))

theorem store_inside (hr : s.Running) (h1 : 1 ≤ s.sp) (ha : s.stack[s.sp.toNat - 1]? = some a)
    (hv : s.stack[s.sp.toNat]? = some v) (hlow : 0 ≤ a.toInt) (hhigh : a.toInt < s.dmemWords) :
    s.Lands (.store f) [0, 52, 53, 54]
      { s with
        arg := f, sp := s.sp - 1, dmem := s.dmem.write a.toInt.toNat v, tos := v, pc := s.pc + 1, mpc := 0,
        tick := s.tick + 4 } := by
  have hwrite : (s.atStore f v).dataWrite = .ok (s.dmem.write a.toInt.toNat v) :=
    State.dataWrite_ok.2 ⟨a, _, State.atStore_slot h1 ha, dataAddress_of_toInt hlow hhigh, rfl⟩
  refine store_lands hr (store_takesValue hr (by omega) hv (.goOn hr rfl (tick_store_2 rfl) hwrite ?_)) (.inl rfl)
  simp [State.Walks, State.atStore, State.retire, BitVec.add_assoc]

end

/-- Settles O21: STORE.0 needs one entry, STORE.2 a second that is an address inside data memory; `Memory.read_write` says
what the new memory reads as. -/
theorem storeRule : Obligations.StoreRule := fun _ _ hr =>
  ⟨rfl, store_empty hr, fun _ => store_one hr, fun _ v h1 ha hv =>
    ⟨store_outside hr h1 ha hv, fun hlow hhigh =>
      ⟨store_inside hr h1 ha hv hlow hhigh, fun hwf => Memory.read_write hwf _ v⟩⟩⟩

end Sys2Proof.Machine
end

section
/-! The control instructions (44_control.md R270 to R277): JMP, the conditional branches, CALL, RET and HLT tick by tick, and
a RET after a CALL. -/

namespace Sys2Proof.Machine

/-! ### The words of the control sequences as ticks (R151) -/

section
variable {s t : State} {m : MicroAddr}

/-- A tick that no access can end, the last of a walk. -/
theorem State.Walks.last (hr : s.Running) (hm : s.mpc = m) (htick : tickRunning s = t) : s.Walks [m] t :=
  ⟨hm, t, by rw [takeTick_running hr, htick], rfl⟩

theorem tick_jmp_0 (hm : s.mpc = 4#6) : tickRunning s = s.retire (targetOperand s.arg) :=
  tick_zero (hm ▸ signals_jmp_0) rfl

theorem tick_call_0 (hm : s.mpc = 13#6) :
    tickRunning s = s.attempt s.scpNext fun scp => { s with scp := scp }.toNext :=
  tick_next (hm ▸ signals_call_0) rfl

theorem tick_call_1 (hm : s.mpc = 14#6) :
    tickRunning s = s.attempt s.linked fun cs => { s with cstack := cs }.retire (targetOperand s.arg) :=
  tick_zero (hm ▸ signals_call_1) rfl

theorem tick_ret_0 (hm : s.mpc = 15#6) :
    tickRunning s = s.attempt s.returnAddress fun a => { s with pc := a }.toNext :=
  tick_next (hm ▸ signals_ret_0) rfl

theorem tick_ret_1 (hm : s.mpc = 16#6) :
    tickRunning s = s.attempt s.scpPrev fun scp => { s with scp := scp }.retire s.pc :=
  tick_zero (hm ▸ signals_ret_1) rfl

end

/-! ### JMP (R270) -/

theorem jmp_lands {s : State} {addr : Addr} (hr : s.Running) :
    s.Lands (.jmp addr) [0, 4] { s with arg := addr, pc := addr, mpc := 0, tick := s.tick + 2 } := by
  have hw : (s.issue addr 4).Walks [4] ((s.issue addr 4).retire addr) := .last hr rfl (tick_jmp_0 rfl)
  simpa [State.retire, State.issue, BitVec.add_assoc] using
    hw.lands (i := .jmp addr) (.inl rfl) (whileRunning_eq_runTicks hr jmp_follows) rfl

/-- Settles O22: JMP.0 cannot fail, and a target at or beyond `L` fails in the fetch after it. -/
theorem jmpRule : Obligations.JmpRule := fun addr s hr =>
  ⟨rfl, jmp_lands hr, fun hL =>
    (fetchBeyondProgramFaults { s with arg := addr, pc := addr, mpc := 0, tick := s.tick + 2 } hr rfl hL).1⟩

/-! ### JZ, JNZ, JS and JNS (R271 to R274) -/

/-- The words of the control store from `E` on are those of a conditional branch, `instr` runs them, and its condition
takes the jump where `taken` holds of the top, read as signed. -/
structure ConditionalSequence (instr : Addr → Instr) (c : Cond) (taken : Int → Prop) (E : MicroAddr) : Prop where
  holds_iff : ∀ w, c.holds w = true ↔ taken w.toInt
  load : signalsAt E = .ok { tos := some .slot, mpc := .next }
  branch : signalsAt (E + 1) = .ok { pcl := true, cond := some c, mpc := .zero }
  entry : ∀ a, entryPoint (instr a).opcode = some E
  field : ∀ a, (instr a).field = a
  exec_eq : ∀ a s, exec (instr a) s = whileRunning s (conditional c a E)

section
variable {instr : Addr → Instr} {c : Cond} {taken : Int → Prop} {E : MicroAddr} {s t : State} {addr : Addr} {v : Word}
  {ms : List MicroAddr}

theorem ConditionalSequence.lands (q : ConditionalSequence instr c taken E) (hr : s.Running)
    (hw : (s.issue addr E).Walks ms t) (hn : 2 = ms.length ∨ ms.length ≤ 2 ∧ t.Ended) :
    s.Lands (instr addr) (0 :: ms) t := by
  refine State.Walks.lands (by rwa [q.field]) hn ?_ (q.entry addr)
  rw [q.exec_eq, q.field]
  exact whileRunning_eq_runTicks hr (conditional_follows q.load q.branch)

/-- The branch tests the top that the first word has just loaded, whichever way it then goes. -/
theorem ConditionalSequence.tests (q : ConditionalSequence instr c taken E) (hr : s.Running) (h0 : 0 ≤ s.sp)
    (hv : s.stack[s.sp.toNat]? = some v) :
    s.Lands (instr addr) [0, E, E + 1]
      { s with
        arg := addr, tos := v, pc := if c.holds v then addr else s.pc + 1, mpc := 0, tick := s.tick + 3 } := by
  refine q.lands hr (.loadTop hr rfl q.load h0 hv (.last hr rfl ?_)) (.inl rfl)
  rw [tick_branch q.branch (inside_of_zero q.branch rfl)]
  simp [State.branch, State.retire, State.toNext, State.issue, targetOperand, BitVec.add_assoc]

theorem ConditionalSequence.rule (q : ConditionalSequence instr c taken E) : ConditionalRule instr taken E := by
  intro addr s hr
  refine ⟨fun hempty => ?_, fun v h0 hv => ⟨fun htaken => ?_, fun hnot => ?_⟩⟩
  · exact q.lands hr (.loadTop_empty hr rfl q.load hempty rfl) (.inr ⟨by simp, nofun⟩)
  · simpa only [if_pos ((q.holds_iff v).2 htaken)] using q.tests (addr := addr) hr h0 hv
  · simpa only [if_neg (mt (q.holds_iff v).1 hnot)] using q.tests (addr := addr) hr h0 hv

end

theorem jz_sequence : ConditionalSequence .jz .jz (fun v => v = 0) 5 :=
  ⟨fun _ => decide_eq_true_iff, signals_jz_0, signals_jz_1, fun _ => rfl, fun _ => rfl, fun _ _ => rfl⟩

theorem jnz_sequence : ConditionalSequence .jnz .jnz (fun v => v ≠ 0) 7 :=
  ⟨fun _ => decide_eq_true_iff, signals_jnz_0, signals_jnz_1, fun _ => rfl, fun _ => rfl, fun _ _ => rfl⟩

theorem js_sequence : ConditionalSequence .js .js (fun v => v < 0) 9 :=
  ⟨fun _ => decide_eq_true_iff, signals_js_0, signals_js_1, fun _ => rfl, fun _ => rfl, fun _ _ => rfl⟩

theorem jns_sequence : ConditionalSequence .jns .jns (fun v => v ≥ 0) 11 :=
  ⟨fun _ => decide_eq_true_iff, signals_jns_0, signals_jns_1, fun _ => rfl, fun _ => rfl, fun _ _ => rfl⟩

/-- Settles O23: the shared sequence at entry point 5, with the condition of JZ. -/
theorem jzRule : Obligations.JzRule := ⟨fun _ => rfl, jz_sequence.rule⟩

/-- Settles O24: the shared sequence at entry point 7, with the condition of JNZ. -/
theorem jnzRule : Obligations.JnzRule := ⟨fun _ => rfl, jnz_sequence.rule⟩

/-- Settles O25: the shared sequence at entry point 9, with the condition of JS. -/
theorem jsRule : Obligations.JsRule := ⟨fun _ => rfl, js_sequence.rule⟩

/-- Settles O26: the shared sequence at entry point 11, with the condition of JNS. -/
theorem jnsRule : Obligations.JnsRule := ⟨fun _ => rfl, jns_sequence.rule⟩

/-! ### CALL (R275) -/

section
variable {s t : State} {addr : Addr} {ms : List MicroAddr}

theorem call_lands (hr : s.Running) (hw : (s.issue addr 13).Walks ms t)
    (hn : 2 = ms.length ∨ ms.length ≤ 2 ∧ t.Ended) : s.Lands (.call addr) (0 :: ms) t :=
  hw.lands hn (whileRunning_eq_runTicks hr call_follows) rfl

theorem call_full (hr : s.Running) (hfull : s.scp = s.callCap - 1) :
    s.Lands (.call addr) [0, 13]
      { s with arg := addr, mpc := 13, tick := s.tick + 1, status := faultAt .callStackOverflow s.pc 13 } :=
  call_lands hr (.stop hr rfl (tick_call_0 rfl) (State.scpNext_error.2 ⟨hfull, rfl⟩) rfl) (.inr ⟨by decide, nofun⟩)

theorem call_room (hr : s.Running) (hlow : -1 ≤ s.scp) (hroom : s.scp < s.callCap - 1) :
    s.Lands (.call addr) [0, 13, 14]
      { s with
        arg := addr, scp := s.scp + 1, cstack := s.cstack.set (s.scp + 1).toNat (s.pc + 1), pc := addr, mpc := 0,
        tick := s.tick + 3 } := by
  have hne : s.scp + 1 ≠ -1 := by omega
  refine call_lands hr (.goOn hr rfl (tick_call_0 rfl) (State.scpNext_ok.2 ⟨hroom.ne, rfl⟩) ?_) (.inl rfl)
  refine .goOn hr rfl (tick_call_1 rfl) (State.linked_ok.2 ⟨hne, rfl⟩) ?_
  simp [State.Walks, State.retire, State.toNext, State.issue, targetOperand, BitVec.add_assoc]

end

/-- Settles O27: CALL.0 faults on a full call stack; with room, CALL.1 links into the new entry and jumps. -/
theorem callRule : Obligations.CallRule := fun _ _ hr => ⟨rfl, call_full hr, call_room hr⟩

/-! ### RET (R276) -/

section
variable {s t : State} {f r : Addr} {ms : List MicroAddr}

theorem State.returnAddress_of_getElem? (h0 : 0 ≤ s.scp) (ha : s.cstack[s.scp.toNat]? = some r) :
    s.returnAddress = .ok r :=
  State.returnAddress_ok.2 ⟨by omega, by rw [List.getD_eq_getElem?_getD, ha, Option.getD_some]⟩

theorem ret_lands (hr : s.Running) (hw : (s.issue f 15).Walks ms t)
    (hn : 2 = ms.length ∨ ms.length ≤ 2 ∧ t.Ended) : s.Lands (.ret f) (0 :: ms) t :=
  hw.lands hn (whileRunning_eq_runTicks hr ret_follows) rfl

theorem ret_empty (hr : s.Running) (hempty : s.scp = -1) :
    s.Lands (.ret f) [0, 15]
      { s with arg := f, mpc := 15, tick := s.tick + 1, status := faultAt .callStackUnderflow s.pc 15 } :=
  ret_lands hr (.stop hr rfl (tick_ret_0 rfl) (State.returnAddress_error.2 ⟨hempty, rfl⟩) rfl) (.inr ⟨by decide, nofun⟩)

theorem ret_linked (hr : s.Running) (h0 : 0 ≤ s.scp) (ha : s.cstack[s.scp.toNat]? = some r) :
    s.Lands (.ret f) [0, 15, 16]
      { s with arg := f, pc := r, scp := s.scp - 1, mpc := 0, tick := s.tick + 3 } := by
  have hne : s.scp ≠ -1 := by omega
  refine ret_lands hr (.goOn hr rfl (tick_ret_0 rfl) (State.returnAddress_of_getElem? h0 ha) ?_) (.inl rfl)
  refine .goOn hr rfl (tick_ret_1 rfl) (State.scpPrev_ok.2 ⟨hne, rfl⟩) ?_
  simp [State.Walks, State.retire, State.toNext, State.issue, BitVec.add_assoc]

end

/-- Settles O28: RET.0 faults on an empty call stack; else it takes the return address, and RET.1 drops the entry. -/
theorem retRule : Obligations.RetRule := fun _ _ hr => ⟨rfl, ret_empty hr, fun _ => ret_linked hr⟩

/-! ### HLT (R277) -/

section
variable {s : State}

theorem hlt_lands {f : Addr} (hr : s.Running) : s.Lands (.hlt f) [0] (s.endRun .halted) :=
  ⟨whileRunning_running hr fun s => s.endRun .halted, fun h =>
    .stop hr h.atFetch (tick_aboutToFetch h) (if_pos (opcodeOf_encode _)) rfl⟩

theorem State.endRun_halted_at_fetch (h0 : s.mpc = 0) :
    s.endRun .halted = { s with status := { outcome := .halted, faultCode := 0, faultPc := s.pc, faultMpc := 0 } } := by
  rw [← h0]
  rfl

theorem exec_ended (h : s.Ended) (i : Instr) : exec i s = .fault .runEnded := by
  cases i <;> exact if_neg h

theorem not_next_of_ended (h : s.Ended) (u : State) :
    takeTick s ≠ some u ∧ step s ≠ .next u ∧ ∀ i, exec i s ≠ .next u := by
  rw [takeTick_ended h, step_ended h]
  exact ⟨nofun, nofun, fun i => by rw [exec_ended h i]; nofun⟩

end

/-- Settles O29: the lookup of HLT's opcode ends the run in the fetch tick, and an ended run has no next state. -/
theorem hltRule : Obligations.HltRule := by
  intro f s hr h0
  have hhalt := State.endRun_halted_at_fetch h0
  exact ⟨rfl, ⟨hhalt ▸ hlt_lands hr, not_next_of_ended nofun⟩, fun hL => (fetchBeyondProgramFaults s hr h0 hL).1⟩

/-! ### RET after CALL -/

/-- What a program sees of CALL with room on the call stack. -/
theorem execCall_links {s : State} (addr : Addr) (hr : s.Running) (hlow : -1 ≤ s.scp) (hroom : s.scp < s.callCap - 1) :
    ∃ t, exec (.call addr) s = .next t ∧ t.Running ∧ t.scp = s.scp + 1 ∧
      t.cstack = s.cstack.set (s.scp + 1).toNat (s.pc + 1) ∧ t.sp = s.sp ∧ t.stack = s.stack :=
  ⟨_, (call_room hr hlow hroom).1, hr, rfl, rfl, rfl, rfl⟩

/-- What a program sees of RET with an entry on the call stack. -/
theorem execRet_returns {s : State} (f : Addr) {r : Addr} (hr : s.Running) (h0 : 0 ≤ s.scp)
    (ha : s.cstack[s.scp.toNat]? = some r) :
    ∃ t, exec (.ret f) s = .next t ∧ t.Running ∧ t.pc = r ∧ t.scp = s.scp - 1 ∧ t.cstack = s.cstack ∧
      t.sp = s.sp ∧ t.stack = s.stack :=
  ⟨_, (ret_linked hr h0 ha).1, hr, rfl, rfl, rfl, rfl, rfl⟩

/-- Settles O51: CALL stores its return address in the entry that RET reads, above every entry live before it. -/
theorem callThenRetReturns : Obligations.CallThenRetReturns := by
  intro addr f s hr hlow hroom
  have h0 : 0 ≤ s.scp + 1 := by omega
  have hin : (s.scp + 1).toNat < s.cstack.length := by unfold State.callCap at hroom; omega
  obtain ⟨t, ht, htr, htscp, htcstack, htsp, htstack⟩ := execCall_links addr hr hlow hroom
  have hlink : t.cstack[t.scp.toNat]? = some (s.pc + 1) := by
    rw [htscp, htcstack, List.getElem?_set_self hin]
  obtain ⟨u, hu, hur, hupc, huscp, hucstack, husp, hustack⟩ := execRet_returns f htr (by rwa [htscp]) hlink
  have hscp : u.scp = s.scp := by omega
  refine ⟨t, u, ht, hu, hupc, hscp, ?_, husp.trans htsp, hustack.trans htstack, hur⟩
  rw [State.links, State.links, hscp, hucstack, htcstack, List.take_set_of_le le_rfl]

end Sys2Proof.Machine
end

section
/-! The port instructions (45_io.md R300 to R302): INPUT and OUTPUT tick by tick, and the frame of the port queues over
all instructions. -/

namespace Sys2Proof.Machine

/-! ### INPUT (R300) -/

section
variable {s t : State} {f : Addr} {v : Word} {q : List Word} {ms : List MicroAddr}

theorem tick_input_0 (hm : s.mpc = 17#6) :
    tickRunning s = s.attempt s.spNext fun sp => s.attempt (s.portRead (portOperand s.arg)) fun r =>
      { s with sp := sp, tos := r.1, ports := r.2 }.toNext :=
  tick_next (hm ▸ signals_input_0) rfl

/-- With room on the stack, INPUT.0 hangs on the port alone. -/
theorem tick_input_0_room (hm : s.mpc = 17#6) (hroom : s.sp < s.stackCap - 1) :
    tickRunning s = s.attempt (s.portRead (portOperand s.arg)) fun r =>
      { s with sp := s.sp + 1, tos := r.1, ports := r.2 }.toNext := by
  rw [tick_input_0 hm, State.spNext_ok.2 ⟨hroom.ne, rfl⟩, State.attempt_ok]

theorem input_lands (hr : s.Running) (hw : (s.issue f 17).Walks ms t) (hn : 2 = ms.length ∨ ms.length ≤ 2 ∧ t.Ended) :
    s.Lands (.input f) (0 :: ms) t :=
  hw.lands hn (whileRunning_eq_runTicks hr input_follows) rfl

theorem input_full (hr : s.Running) (hfull : s.sp = s.stackCap - 1) :
    s.Lands (.input f) [0, 17]
      { s with arg := f, mpc := 17, tick := s.tick + 1, status := faultAt .stackOverflow s.pc 17 } :=
  input_lands hr (.stop hr rfl (tick_input_0 rfl) (State.spNext_error.2 ⟨hfull, rfl⟩) rfl) (.inr ⟨by decide, nofun⟩)

/-- A port without an oldest entry ends the run at INPUT.0, with the stack pointer where it was. -/
theorem input_stops {x : Terminal} (hr : s.Running) (hroom : s.sp < s.stackCap - 1)
    (hread : (s.issue f 17).portRead f.toNat = .error x) : s.Lands (.input f) [0, 17] ((s.issue f 17).endRun x) :=
  input_lands hr (.stop hr rfl (tick_input_0_room rfl hroom) hread rfl) (.inr ⟨by decide, State.endRun_ended _ x⟩)

theorem input_badPort (hr : s.Running) (hroom : s.sp < s.stackCap - 1) (hf : 16 ≤ f.toNat) :
    s.Lands (.input f) [0, 17]
      { s with arg := f, mpc := 17, tick := s.tick + 1, status := faultAt .badPort s.pc 17 } :=
  input_stops hr hroom (State.portRead_error.2 (.inl ⟨hf, rfl⟩))

theorem input_exhausted (hr : s.Running) (hroom : s.sp < s.stackCap - 1) (hf : f.toNat < 16)
    (hq : s.ports[f.toNat] = []) :
    s.Lands (.input f) [0, 17]
      { s with
        arg := f, mpc := 17, tick := s.tick + 1,
        status := { outcome := .inputExhausted, faultCode := 0, faultPc := s.pc, faultMpc := 17 } } :=
  input_stops hr hroom (State.portRead_error.2 (.inr ⟨hf, hq, rfl⟩))

theorem input_takes (hr : s.Running) (hlow : -1 ≤ s.sp) (hroom : s.sp < s.stackCap - 1) (hf : f.toNat < 16)
    (hq : s.ports[f.toNat] = v :: q) :
    s.Lands (.input f) [0, 17, 18]
      { s with
        arg := f, sp := s.sp + 1, stack := s.stack.set (s.sp + 1).toNat v, tos := v,
        ports := s.ports.set f.toNat q, pc := s.pc + 1, mpc := 0, tick := s.tick + 3 } := by
  have h0 : 0 ≤ s.sp + 1 := by omega
  have hread : (s.issue f 17).portRead f.toNat = .ok (v, s.ports.set f.toNat q) :=
    State.portRead_ok.2 ⟨hf, v, q, hq, rfl⟩
  refine input_lands hr (.goOn hr rfl (tick_input_0_room rfl hroom) hread ?_) (.inl rfl)
  refine .storeTop hr rfl signals_input_1 h0 ?_
  simp [State.retire, State.toNext, State.issue, BitVec.add_assoc]

end

/-- Settles O30: INPUT.0 asks for room, then for a port, then for an entry, and INPUT.1 stores the entry it took. -/
theorem inputRule : Obligations.InputRule := fun _ _ hr =>
  ⟨rfl, input_full hr, fun hlow hroom =>
    ⟨input_badPort hr hroom, fun hf =>
      ⟨input_exhausted hr hroom hf, fun _ _ => input_takes hr hlow hroom hf⟩⟩⟩

/-! ### OUTPUT (R301) -/

section
variable {s t : State} {f : Addr} {v : Word} {ms : List MicroAddr}

theorem tick_output_1 (hm : s.mpc = 20#6) :
    tickRunning s = s.attempt s.spPrev fun sp => s.attempt (s.portWrite (portOperand s.arg) s.tos) fun ps =>
      { s with sp := sp, ports := ps }.retire (s.pc + 1) :=
  tick_zero (hm ▸ signals_output_1) rfl

/-- With an entry on the stack, OUTPUT.1 hangs on the port alone. -/
theorem tick_output_1_entry (hm : s.mpc = 20#6) (h0 : 0 ≤ s.sp) :
    tickRunning s = s.attempt (s.portWrite (portOperand s.arg) s.tos) fun ps =>
      { s with sp := s.sp - 1, ports := ps }.retire (s.pc + 1) := by
  have hne : s.sp ≠ -1 := by omega
  rw [tick_output_1 hm, State.spPrev_ok.2 ⟨hne, rfl⟩, State.attempt_ok]

theorem output_lands (hr : s.Running) (hw : (s.issue f 19).Walks ms t) (hn : 2 = ms.length ∨ ms.length ≤ 2 ∧ t.Ended) :
    s.Lands (.output f) (0 :: ms) t :=
  hw.lands hn (whileRunning_eq_runTicks hr output_follows) rfl

theorem output_empty (hr : s.Running) (hempty : s.sp = -1) :
    s.Lands (.output f) [0, 19]
      { s with arg := f, mpc := 19, tick := s.tick + 1, status := faultAt .stackUnderflow s.pc 19 } :=
  output_lands hr (.loadTop_empty hr rfl signals_output_0 hempty rfl) (.inr ⟨by decide, nofun⟩)

/-- OUTPUT.0: the top is taken into `tos`. -/
theorem output_takesTop (hr : s.Running) (h0 : 0 ≤ s.sp) (hv : s.stack[s.sp.toNat]? = some v)
    (hk : { s with arg := f, tos := v, mpc := 20, tick := s.tick + 2 }.Walks ms t) :
    (s.issue f 19).Walks (19 :: ms) t :=
  .loadTop hr rfl signals_output_0 h0 hv (by simpa [State.toNext, State.issue, BitVec.add_assoc] using hk)

theorem output_badPort (hr : s.Running) (h0 : 0 ≤ s.sp) (hv : s.stack[s.sp.toNat]? = some v) (hf : 16 ≤ f.toNat) :
    s.Lands (.output f) [0, 19, 20]
      { s with arg := f, tos := v, mpc := 20, tick := s.tick + 2, status := faultAt .badPort s.pc 20 } :=
  have hwrite := State.portWrite_error.2 ⟨hf, rfl⟩
  output_lands hr (output_takesTop hr h0 hv (.stop hr rfl (tick_output_1_entry rfl h0) hwrite rfl))
    (.inr ⟨by decide, nofun⟩)

theorem output_appends (hr : s.Running) (h0 : 0 ≤ s.sp) (hv : s.stack[s.sp.toNat]? = some v) (hf : f.toNat < 16) :
    s.Lands (.output f) [0, 19, 20]
      { s with
        arg := f, sp := s.sp - 1, tos := v, ports := s.ports.set f.toNat (s.ports[f.toNat] ++ [v]),
        pc := s.pc + 1, mpc := 0, tick := s.tick + 3 } := by
  refine output_lands hr (output_takesTop hr h0 hv ?_) (.inl rfl)
  refine .goOn hr rfl (tick_output_1_entry rfl h0) (State.portWrite_ok.2 ⟨hf, rfl⟩) ?_
  simp [State.Walks, State.retire, BitVec.add_assoc, portOperand]

end

/-- Settles O31: OUTPUT.0 needs an entry, and OUTPUT.1 a port to append it to. -/
theorem outputRule : Obligations.OutputRule := fun _ _ hr =>
  ⟨rfl, output_empty hr, fun _ h0 hv => ⟨output_badPort hr h0 hv, output_appends hr h0 hv⟩⟩

/-! ### The frame of the port queues (R302) -/

section
variable {s t : State} {f : Addr}

/-- The end of a run keeps the queues, so an attempt keeps them when what follows does. -/
theorem State.attempt_ports {α : Type} {r : Except Terminal α} {k : α → State} {ps : Ports} (hs : s.ports = ps)
    (hk : ∀ a, (k a).ports = ps) : (s.attempt r k).ports = ps := by
  cases r with
  | error x => exact hs
  | ok a => exact hk a

theorem State.storeTop_ports (s : State) : s.storeTop.ports = s.ports := State.attempt_ports rfl fun _ => rfl

theorem unary_ports (op : AluOp) (f : Addr) (E : MicroAddr) (s : State) : (unary op f E s).ports = s.ports :=
  State.attempt_ports rfl fun _ => State.attempt_ports rfl fun _ => State.storeTop_ports _

theorem binary_ports (op : AluOp) (f : Addr) (E : MicroAddr) (s : State) : (binary op f E s).ports = s.ports :=
  State.attempt_ports rfl fun _ => State.attempt_ports rfl fun _ => State.attempt_ports rfl fun _ =>
    State.storeTop_ports _

theorem conditional_ports (c : Cond) (a : Addr) (E : MicroAddr) (s : State) : (conditional c a E s).ports = s.ports :=
  State.attempt_ports rfl fun _ => rfl

theorem whileRunning_ports {k : State → State} (h : whileRunning s k = .next t) (hk : (k s).ports = s.ports) :
    t.ports = s.ports :=
  whileRunning_post (P := fun t => t.ports = s.ports) h hk

/-- Every instruction but INPUT and OUTPUT keeps the queues: no access it attempts is the arbiter's. -/
theorem exec_ports {i : Instr} (hin : ∀ f, i ≠ .input f) (hout : ∀ f, i ≠ .output f) (h : exec i s = .next t) :
    t.ports = s.ports := by
  cases i with
  | push a =>
    exact whileRunning_ports (show execPush a s = .next t from h)
      (State.attempt_ports rfl fun _ => State.storeTop_ports _)
  | pop f =>
    exact whileRunning_ports (show execPop f s = .next t from h) (State.attempt_ports rfl fun _ => rfl)
  | jmp a => exact whileRunning_ports (show execJmp a s = .next t from h) rfl
  | jz a => exact whileRunning_ports h (conditional_ports .jz a 5 s)
  | jnz a => exact whileRunning_ports h (conditional_ports .jnz a 7 s)
  | js a => exact whileRunning_ports h (conditional_ports .js a 9 s)
  | jns a => exact whileRunning_ports h (conditional_ports .jns a 11 s)
  | call a =>
    exact whileRunning_ports (show execCall a s = .next t from h)
      (State.attempt_ports rfl fun _ => State.attempt_ports rfl fun _ => rfl)
  | ret f =>
    exact whileRunning_ports (show execRet f s = .next t from h)
      (State.attempt_ports rfl fun _ => State.attempt_ports rfl fun _ => rfl)
  | input f => exact absurd rfl (hin f)
  | output f => exact absurd rfl (hout f)
  | inc f => exact whileRunning_ports h (unary_ports .inc f 21 s)
  | dec f => exact whileRunning_ports h (unary_ports .dec f 25 s)
  | add f => exact whileRunning_ports h (binary_ports .add f 29 s)
  | sub f => exact whileRunning_ports h (binary_ports .sub f 34 s)
  | mul f => exact whileRunning_ports h (binary_ports .mul f 39 s)
  | div f => exact whileRunning_ports h (binary_ports .div f 44 s)
  | load f =>
    exact whileRunning_ports (show execLoad f s = .next t from h)
      (State.attempt_ports rfl fun _ => State.attempt_ports rfl fun _ => State.storeTop_ports _)
  | store f =>
    exact whileRunning_ports (show execStore f s = .next t from h)
      (State.attempt_ports rfl fun _ => State.attempt_ports rfl fun _ => State.attempt_ports rfl fun _ => rfl)
  | swap f =>
    exact whileRunning_ports (show execSwap f s = .next t from h)
      (State.attempt_ports rfl fun _ => State.attempt_ports rfl fun _ => State.attempt_ports rfl fun _ =>
        State.attempt_ports rfl fun _ => State.attempt_ports rfl fun _ => State.storeTop_ports _)
  | hlt f => exact whileRunning_ports (show execHlt f s = .next t from h) rfl

/-- INPUT keeps the queues, where INPUT.0 ends the run, or takes the oldest entry of its port (R300). -/
theorem execInput_ports (h : execInput f s = .next t) :
    t.ports = s.ports ∨
      ∃ (hf : f.toNat < 16) (v : Word) (q : List Word),
        s.ports[f.toNat] = v :: q ∧ t.ports = s.ports.set f.toNat q := by
  obtain ⟨-, ht⟩ := whileRunning_eq_next.1 h
  obtain ⟨x, -, rfl⟩ | ⟨sp, -, ht⟩ := State.attempt_cases ht
  · exact .inl rfl
  obtain ⟨x, -, rfl⟩ | ⟨r, hread, rfl⟩ := State.attempt_cases ht.symm
  · exact .inl rfl
  obtain ⟨hf, v, q, hq, rfl⟩ := State.portRead_ok.1 hread
  exact .inr ⟨hf, v, q, hq, State.storeTop_ports _⟩

/-- OUTPUT keeps the queues, where a tick ends the run, or appends the top to its port (R301). -/
theorem execOutput_ports (h : execOutput f s = .next t) :
    t.ports = s.ports ∨
      ∃ hf : f.toNat < 16, t.ports = s.ports.set f.toNat (s.ports[f.toNat] ++ [s.stack.getD s.sp.toNat 0]) := by
  obtain ⟨-, ht⟩ := whileRunning_eq_next.1 h
  obtain ⟨x, -, rfl⟩ | ⟨v, hv, ht⟩ := State.attempt_cases ht
  · exact .inl rfl
  obtain ⟨x, -, rfl⟩ | ⟨sp, -, ht⟩ := State.attempt_cases ht.symm
  · exact .inl rfl
  obtain ⟨x, -, rfl⟩ | ⟨ps, hwrite, rfl⟩ := State.attempt_cases ht.symm
  · exact .inl rfl
  obtain ⟨hf, rfl⟩ := State.portWrite_ok.1 hwrite
  obtain ⟨-, rfl⟩ := State.slot_ok.1 hv
  exact .inr ⟨hf, rfl⟩

end

/-- A queue that differs after one queue is replaced is the replaced one. -/
theorem eq_of_getElem_set_ne {ps : Ports} {n : Nat} {hn : n < 16} {q : List Word} {p : Fin 16}
    (hne : (ps.set n q)[p] ≠ ps[p]) : p = ⟨n, hn⟩ := by
  by_contra hp
  exact hne (Vector.getElem_set_ne hn p.isLt fun h => hp (Fin.ext h.symm))

/-- Settles O48: only the arbiter's two accesses reach a queue, each that of its own port. -/
theorem portsChangeOnlyInPortInstructions : Obligations.PortsChangeOnlyInPortInstructions := by
  intro i s t p h hne
  have hchanged : t.ports ≠ s.ports := fun hsame => hne (by rw [hsame])
  by_cases hin : ∃ f, i = .input f
  · obtain ⟨f, rfl⟩ := hin
    obtain hsame | ⟨hf, v, q, hq, hports⟩ := execInput_ports h
    · exact absurd hsame hchanged
    · obtain rfl := eq_of_getElem_set_ne (hports ▸ hne)
      exact .inl ⟨f, rfl, rfl, v, by simpa [hports] using hq⟩
  by_cases hout : ∃ f, i = .output f
  · obtain ⟨f, rfl⟩ := hout
    obtain hsame | ⟨hf, hports⟩ := execOutput_ports h
    · exact absurd hsame hchanged
    · obtain rfl := eq_of_getElem_set_ne (hports ▸ hne)
      exact .inr ⟨f, rfl, rfl, by simp [hports]⟩
  · exact absurd (exec_ports (fun f hi => hin ⟨f, hi⟩) (fun f hi => hout ⟨f, hi⟩) h) hchanged

end Sys2Proof.Machine
end

section
/-! The end of a run and the standing invariants (60_exceptions.md R320 to R332): what a terminal tick leaves, the invariants
that every tick and so every step keeps, and the terminal conditions each instruction can meet. -/

namespace Sys2Proof.Machine

/-! ### After the end of a run (R322, R41) -/

/-- Settles O41: each level of description asks first whether the run goes on. -/
theorem endedRunTakesNoFurtherTick : Obligations.EndedRunTakesNoFurtherTick := fun _ h =>
  ⟨takeTick_ended h, runTicks_ended h, step_ended h, exec_ended h⟩

/-! ### The two kinds of tick (R329) -/

/-- A tick that commits counts itself and leaves `status` alone (R176). -/
theorem commitSignals_status_tick {s t : State} {g : Signals} (h : commitSignals s g = .ok t) :
    t.status = s.status ∧ t.tick = s.tick + 1 := by
  obtain ⟨_, _, _, _, _, _, _, _, _, _, _, -, -, -, -, -, -, -, -, -, -, -, rfl⟩ := commitSignals_ok h
  exact ⟨rfl, rfl⟩

/-- Settles O40: a tick ends the run, which touches `status` alone, or commits its signals, none of which reaches
`status`. -/
theorem terminalTickChangesOnlyStatus : Obligations.TerminalTickChangesOnlyStatus := by
  intro s t h
  obtain ⟨hr, ht⟩ := Option.ite_none_right_eq_some.1 h
  cases ht
  obtain ⟨x, hx⟩ | ⟨g, -, hc⟩ := tickRunning_cases s
  · rw [hx]
    exact .inr ⟨s.endRun_ended x, rfl, rfl, rfl⟩
  · obtain ⟨hstatus, htick⟩ := commitSignals_status_tick hc
    exact .inl ⟨(congrArg Status.outcome hstatus).trans hr, hstatus, htick⟩

/-! ### Each signal group keeps its element in range (R30, R38, R86) -/

section
variable {s : State}

theorem evalSp_inside {m : Option Move} {x : Int} (hs : s.Inv) (h : evalSp s m = .ok x) : -1 ≤ x ∧ x < s.stackCap := by
  have hlow := hs.sp_low
  have hhigh := hs.sp_high
  cases m with
  | none => cases h; exact ⟨hlow, hhigh⟩
  | some m =>
    cases m with
    | next => obtain ⟨hne, rfl⟩ := State.spNext_ok.1 h; omega
    | prev => obtain ⟨hne, rfl⟩ := State.spPrev_ok.1 h; omega

theorem evalCsp_inside {m : Option Move} {x : Int} (hs : s.Inv) (h : evalCsp s m = .ok x) : -1 ≤ x ∧ x < s.callCap := by
  have hlow := hs.scp_low
  have hhigh := hs.scp_high
  cases m with
  | none => cases h; exact ⟨hlow, hhigh⟩
  | some m =>
    cases m with
    | next => obtain ⟨hne, rfl⟩ := State.scpNext_ok.1 h; omega
    | prev => obtain ⟨hne, rfl⟩ := State.scpPrev_ok.1 h; omega

theorem evalDmw_keeps {dmw : Bool} {m : Memory} (hs : s.Inv) (h : evalDmw s dmw = .ok m) :
    m.wf ∧ ∀ c ∈ m, c.1 < s.dmemWords := by
  cases dmw with
  | false => cases h; exact ⟨hs.dmem_wf, hs.dmem_inside⟩
  | true =>
    obtain ⟨a, n, -, hn, rfl⟩ := State.dataWrite_ok.1 h
    exact ⟨Memory.write_wf hs.dmem_wf n s.tos, Memory.write_inside hs.dmem_inside (dataAddress_lt hn) s.tos⟩

/-- An opcode with an entry point is one of the first 20, each of which has it in the control store (R152). -/
theorem entryPoint_le {o : BitVec 8} {m : MicroAddr} (h : entryPoint o = some m) : m.toNat ≤ 60 := by
  have hlt : o.toNat < 0x14 := by
    by_contra hge
    cases h.symm.trans (entryPoint_eq_none_iff.2 (not_lt.1 hge))
  obtain ⟨E, hE, -, hle⟩ := entryPoint_of_lt hlt
  cases h.symm.trans hE
  exact hle

theorem lookup_le {w : Word} {m : MicroAddr} (h : lookup w = .ok m) : m.toNat ≤ 60 := by
  unfold lookup at h
  split at h
  · cases h
  · split at h
    · cases h
    · rename_i E hE
      cases h
      exact entryPoint_le hE

theorem evalMpc_le {g : MpcSource} {m : MicroAddr} (h : evalMpc s g = .ok m) : m.toNat ≤ 60 := by
  cases g with
  | zero => cases h; decide
  | next =>
    rw [evalMpc] at h
    split at h
    · cases h
    · cases h
      bv_omega
  | opc =>
    rw [evalMpc] at h
    split at h
    · cases h
    · exact lookup_le h

end

/-! ### A tick keeps the invariant (R324) -/

theorem FaultReason.code_range (r : FaultReason) : 1 ≤ r.code.toNat ∧ r.code.toNat ≤ 11 := by
  cases r <;> decide

/-- A terminal condition leaves a legal `status` (R41, R326, R327). -/
theorem State.endRun_status_inv (s : State) (x : Terminal) : (s.endRun x).status.Inv := by
  refine ⟨fun hr => absurd hr (s.endRun_ended x), fun hne => ?_, fun hf => ?_⟩
  · cases x with
    | halted => rfl
    | inputExhausted => rfl
    | fault r => exact absurd rfl hne
  · cases x with
    | halted => cases hf
    | inputExhausted => cases hf
    | fault r => exact r.code_range

theorem State.Inv.endRun {s : State} (hs : s.Inv) (x : Terminal) : (s.endRun x).Inv :=
  { hs with status_legal := s.endRun_status_inv x }

theorem State.Inv.commit {s t : State} {g : Signals} (hs : s.Inv) (h : commitSignals s g = .ok t) : t.Inv := by
  obtain ⟨_, _, _, _, _, stack, _, _, cstack, _, _, -, hsp, -, hdmem, -, hstack, -, hscp, hcstack, -, hmpc, rfl⟩ :=
    commitSignals_ok h
  have hcap : stack.length = s.stackCap := evalSlot_length hstack
  have hcall : cstack.length = s.callCap := evalCsl_length hcstack
  obtain ⟨hspLow, hspHigh⟩ := evalSp_inside hs hsp
  obtain ⟨hscpLow, hscpHigh⟩ := evalCsp_inside hs hscp
  obtain ⟨hwf, hinside⟩ := evalDmw_keeps hs hdmem
  exact {
    sp_low := hspLow
    sp_high := hspHigh.trans_eq (congrArg Nat.cast hcap.symm)
    scp_low := hscpLow
    scp_high := hscpHigh.trans_eq (congrArg Nat.cast hcall.symm)
    mpc_valid := evalMpc_le hmpc
    stackCap_pos := hs.stackCap_pos.trans_eq hcap.symm
    callCap_pos := hs.callCap_pos.trans_eq hcall.symm
    prog_short := hs.prog_short
    dmem_wf := hwf
    dmem_inside := hinside
    status_legal := hs.status_legal }

theorem State.Inv.tickRunning {s : State} (hs : s.Inv) : (tickRunning s).Inv := by
  obtain ⟨x, hx⟩ | ⟨g, -, hc⟩ := tickRunning_cases s
  · exact hx ▸ hs.endRun x
  · exact hs.commit hc

/-! ### No tick of the control store ends in `MALFORMED_CONTROL_WORD` (R38) -/

/-- The ALU ends a run on an empty stack, on a zero divisor or on an overflow. -/
theorem State.aluResult_error {s : State} {op : AluOp} {x : Terminal} (h : s.aluResult op = .error x) :
    x = .fault .stackUnderflow ∨ (op = .div ∧ x = .fault .divByZero) ∨ x = .fault .arithOverflow := by
  have halu {l : Word} (h : aluOp s.overflow op l s.tos = .error x) :
      (op = .div ∧ x = .fault .divByZero) ∨ x = .fault .arithOverflow :=
    (aluOp_error h).imp (fun ⟨hop, _, hx⟩ => ⟨hop, hx⟩) (·.2)
  by_cases hop : op = .inc ∨ op = .dec
  · exact .inr (halu (s.aluResult_unary hop ▸ h))
  · rw [s.aluResult_binary (not_or.1 hop)] at h
    cases hslot : s.slot with
    | error y =>
      rw [hslot] at h
      cases h
      exact .inl (State.slot_error.1 hslot).2
    | ok l =>
      rw [hslot] at h
      exact .inr (halu h)

/-- The evaluation does not end in the fault of a malformed control word. -/
abbrev NotMalformed {α : Type} (r : Except Terminal α) : Prop := r ≠ .error (.fault .malformedControlWord)

section
variable {s : State}

theorem NotMalformed.bind {α β : Type} {r : Except Terminal α} {f : α → Except Terminal β} (hr : NotMalformed r)
    (hf : ∀ a, NotMalformed (f a)) : NotMalformed (r >>= f) := by
  cases r with
  | error x => exact fun h => hr (by cases h; rfl)
  | ok a => exact hf a

theorem NotMalformed.map {α β : Type} {r : Except Terminal α} (hr : NotMalformed r) (f : α → β) :
    NotMalformed (r.map f) := by
  cases r with
  | error x => exact fun h => hr (by cases h; rfl)
  | ok a => nofun

theorem slot_notMalformed : NotMalformed s.slot := fun h => nomatch (State.slot_error.1 h).2

theorem fetchLatch_notMalformed : NotMalformed (fetchLatch s) := by
  unfold fetchLatch
  split
  · split <;> nofun
  · nofun

theorem evalSp_notMalformed : ∀ m, NotMalformed (evalSp s m)
  | none => nofun
  | some .next => fun h => nomatch (State.spNext_error.1 h).2
  | some .prev => fun h => nomatch (State.spPrev_error.1 h).2

theorem portRead_notMalformed (p : Nat) : NotMalformed (s.portRead p) := fun h => by
  obtain ⟨-, hx⟩ | ⟨-, -, hx⟩ := State.portRead_error.1 h <;> cases hx

theorem evalTos_notMalformed : ∀ t, NotMalformed (evalTos s t)
  | none | some .alu | some .sr | some .arg => nofun
  | some .slot => slot_notMalformed.map _
  | some .mem => NotMalformed.map (fun h => nomatch (State.dataRead_error.1 h).2) _
  | some .port => portRead_notMalformed _

theorem evalDmw_notMalformed : ∀ b, NotMalformed (evalDmw s b)
  | false => nofun
  | true => fun h => by
    obtain hslot | ⟨_, -, -, hx⟩ := State.dataWrite_error.1 h
    · exact slot_notMalformed hslot
    · cases hx

theorem evalIow_notMalformed (ports : Ports) : ∀ b, NotMalformed (evalIow s b ports)
  | false => nofun
  | true => fun h => nomatch (State.portWrite_error.1 h).2

theorem evalSlot_notMalformed : ∀ g, NotMalformed (evalSlot s g)
  | none => nofun
  | some .tos | some .sr => fun h => nomatch (State.setSlot_error.1 h).2

theorem evalAlu_notMalformed : ∀ op, NotMalformed (evalAlu s op)
  | none => nofun
  | some _ => fun h => by
    obtain hx | ⟨-, hx⟩ | hx := State.aluResult_error h <;> cases hx

theorem evalCsp_notMalformed : ∀ m, NotMalformed (evalCsp s m)
  | none => nofun
  | some .next => fun h => nomatch (State.scpNext_error.1 h).2
  | some .prev => fun h => nomatch (State.scpPrev_error.1 h).2

theorem evalCsl_notMalformed : ∀ b, NotMalformed (evalCsl s b)
  | false => nofun
  | true => fun h => nomatch (State.linked_error.1 h).2

theorem evalPc_notMalformed (g : Signals) : NotMalformed (evalPc s g) := by
  unfold evalPc
  split
  · split
    · nofun
    · split
      · exact fun h => nomatch (State.returnAddress_error.1 h).2
      · nofun
  · nofun

theorem lookup_notMalformed (w : Word) : NotMalformed (lookup w) := by
  unfold lookup
  split
  · nofun
  · split <;> nofun

/-- `MPC=NEXT` stands only in words below address 60, so the next address is in the control store. -/
theorem evalMpc_notMalformed {g : Signals} (h : signalsAt s.mpc = .ok g) : NotMalformed (evalMpc s g.mpc) := by
  cases hg : g.mpc with
  | zero => nofun
  | next =>
    rw [evalMpc_next (inside_of_next h hg).2]
    nofun
  | opc =>
    rw [evalMpc]
    split
    · nofun
    · exact lookup_notMalformed _

theorem commitSignals_notMalformed {g : Signals} (h : signalsAt s.mpc = .ok g) : NotMalformed (commitSignals s g) :=
  fetchLatch_notMalformed.bind fun _ => (evalSp_notMalformed _).bind fun _ => (evalTos_notMalformed _).bind fun _ =>
    (evalDmw_notMalformed _).bind fun _ => (evalIow_notMalformed _ _).bind fun _ => (evalSlot_notMalformed _).bind fun _ =>
    (evalAlu_notMalformed _).bind fun _ => (evalCsp_notMalformed _).bind fun _ => (evalCsl_notMalformed _).bind fun _ =>
    (evalPc_notMalformed g).bind fun _ => (evalMpc_notMalformed h).bind fun _ => nofun

/-- Every address up to 60 holds a well-formed word (R122, R151). -/
theorem signalsAt_inside {m : MicroAddr} (h : m.toNat ≤ 60) : ∃ g, signalsAt m = .ok g := by
  have hlt : m.toNat < controlStore.length := by rw [controlStore_length]; omega
  obtain ⟨g, hg⟩ := Option.isSome_iff_exists.1 (controlStore_wellFormed _ (List.getElem_mem hlt))
  exact ⟨g, by simp only [signalsAt, List.getElem?_eq_getElem hlt, hg]⟩

/-- `MALFORMED_CONTROL_WORD` is the only terminal condition with its code (R321). -/
theorem Terminal.eq_malformed {x : Terminal} (h : x.code = FaultReason.malformedControlWord.code) :
    x = .fault .malformedControlWord := by
  cases x with
  | halted => cases h
  | inputExhausted => cases h
  | fault r =>
    cases r with
    | malformedControlWord => rfl
    | _ => cases h

theorem tickRunning_code_ne_malformed (hs : s.Inv) (hr : s.Running) (hf : (tickRunning s).status.outcome = .fault) :
    (tickRunning s).status.faultCode ≠ FaultReason.malformedControlWord.code := by
  obtain ⟨g, hg⟩ := signalsAt_inside hs.mpc_valid
  obtain ⟨x, hx, ht⟩ | ⟨t, hc, ht⟩ := State.attempt_cases (tickRunning_of_signals hg).symm
  · rw [ht]
    exact fun hcode => commitSignals_notMalformed hg (hx.trans (congrArg _ (Terminal.eq_malformed hcode)))
  · rw [ht, id, (commitSignals_status_tick hc).1] at hf
    cases hr.symm.trans hf

end

/-- Settles O39: each signal group keeps its element in range, and every address up to 60 holds a well-formed word. -/
theorem tickKeepsInvariant : Obligations.TickKeepsInvariant := by
  intro s t hs h
  obtain ⟨hr, ht⟩ := Option.ite_none_right_eq_some.1 h
  cases ht
  exact ⟨hs.tickRunning, fun ⟨hf, hcode⟩ => tickRunning_code_ne_malformed hs hr hf hcode⟩

/-! ### A step keeps the invariant: it is a run of ticks (R178, R324) -/

section
variable {s t : State}

theorem State.Inv.runTicks (hs : s.Inv) (n : Nat) : (runTicks n s).Inv := by
  induction n generalizing s with
  | zero => exact hs
  | succ n ih =>
    by_cases hr : s.Running
    · rw [runTicks_succ_running hr]
      exact ih hs.tickRunning
    · exact (runTicks_ended hr (n + 1)).symm ▸ hs

/-- A fetch that finds an instruction finds its word (R110). -/
theorem State.aboutToFetch_of_fetchInstr {i : Instr} (hr : s.Running) (h0 : s.mpc = 0) (hf : fetchInstr s = .ok i) :
    s.AboutToFetch i := by
  obtain ⟨w, hw, hd⟩ := fetchInstr_ok.1 hf
  exact ⟨hr, h0, by rw [hw, encodeOfDecode w i hd]⟩

theorem State.Inv.step (hs : s.Inv) (h : step s = .next t) : t.Inv := by
  by_cases hr : s.Running
  · by_cases h0 : s.mpc = 0
    · cases hf : fetchInstr s with
      | error x =>
        cases (step_fetch_error hr h0 hf).symm.trans h
        exact hs.endRun x
      | ok i =>
        have hticks := exec_ticks (State.aboutToFetch_of_fetchInstr hr h0 hf)
        cases hticks.symm.trans ((step_fetch_ok hr h0 hf).symm.trans h)
        exact hs.runTicks _
    · cases (step_inside hr h0).symm.trans h
      exact hs.tickRunning
  · cases (step_ended hr).symm.trans h

end

/-- Settles O38: a whole instruction is its ticks, and the other kinds of step are the end of a run and one tick. -/
theorem stepKeepsInvariant : Obligations.StepKeepsInvariant := fun _ _ hs h => hs.step h

/-! ### The terminal conditions of each instruction (R321, R326, R327, R331) -/

/-- If the run has ended in `t`, one of the conditions `ts` has ended it at `pc`, where it still stands. -/
def EndsAmong (ts : List Terminal) (pc : Addr) (t : State) : Prop :=
  t.Ended →
    (∃ e ∈ ts, t.status.outcome = e.outcome ∧ t.status.faultCode = e.code) ∧ t.status.faultPc = pc ∧ t.pc = pc

section
variable {ts : List Terminal} {pc : Addr} {s : State}

theorem EndsAmong.of_running {t : State} (hr : t.Running) : EndsAmong ts pc t := absurd hr

theorem EndsAmong.endRun {x : Terminal} (hpc : s.pc = pc) (hx : x ∈ ts) : EndsAmong ts pc (s.endRun x) := fun _ =>
  ⟨⟨x, hx, rfl, rfl⟩, hpc, hpc⟩

/-! One rule per access: the condition it can meet is listed, or the state excludes it, and what follows ends so too. -/

theorem EndsAmong.attempt {α : Type} {r : Except Terminal α} {k : α → State} (hpc : s.pc = pc)
    (hx : ∀ x, r = .error x → x ∈ ts) (hk : ∀ a, r = .ok a → EndsAmong ts pc (k a)) :
    EndsAmong ts pc (s.attempt r k) := by
  cases r with
  | error x => exact .endRun hpc (hx x rfl)
  | ok a => exact hk a rfl

theorem EndsAmong.loadTop {k : State → State} (hpc : s.pc = pc) (hx : .fault .stackUnderflow ∈ ts)
    (hk : ∀ v, EndsAmong ts pc (k { s with tos := v }.toNext)) : EndsAmong ts pc (s.loadTop k) :=
  .attempt hpc (fun _ h => (State.slot_error.1 h).2 ▸ hx) fun v _ => hk v

theorem EndsAmong.spPrev {k : Int → State} (hpc : s.pc = pc) (hx : .fault .stackUnderflow ∈ ts)
    (hk : EndsAmong ts pc (k (s.sp - 1))) : EndsAmong ts pc (s.attempt s.spPrev k) :=
  .attempt hpc (fun _ h => (State.spPrev_error.1 h).2 ▸ hx) fun _ h => (State.spPrev_ok.1 h).2 ▸ hk

theorem EndsAmong.lowerTop {k : State → State} (hpc : s.pc = pc) (hx : .fault .stackUnderflow ∈ ts)
    (hk : EndsAmong ts pc (k { s with sp := s.sp - 1 }.toNext)) : EndsAmong ts pc (s.lowerTop k) :=
  .spPrev hpc hx hk

theorem EndsAmong.spNext {k : Int → State} (hpc : s.pc = pc) (hx : s.sp = s.stackCap - 1 → .fault .stackOverflow ∈ ts)
    (hk : EndsAmong ts pc (k (s.sp + 1))) : EndsAmong ts pc (s.attempt s.spNext k) := by
  refine .attempt hpc (fun _ h => ?_) fun _ h => (State.spNext_ok.1 h).2 ▸ hk
  obtain ⟨hfull, rfl⟩ := State.spNext_error.1 h
  exact hx hfull

theorem EndsAmong.setSlot {w : Word} {k : List Word → State} (hpc : s.pc = pc)
    (hx : s.sp = -1 → .fault .stackUnderflow ∈ ts) (hk : EndsAmong ts pc (k (s.stack.set s.sp.toNat w))) :
    EndsAmong ts pc (s.attempt (s.setSlot w) k) := by
  refine .attempt hpc (fun _ h => ?_) fun _ h => (State.setSlot_ok.1 h).2 ▸ hk
  obtain ⟨hempty, rfl⟩ := State.setSlot_error.1 h
  exact hx hempty

theorem EndsAmong.storeTop (hpc : s.pc = pc) (hr : s.Running) (hx : s.sp = -1 → .fault .stackUnderflow ∈ ts) :
    EndsAmong ts pc s.storeTop :=
  .setSlot hpc hx (.of_running hr)

theorem EndsAmong.compute {op : AluOp} {k : State → State} (hpc : s.pc = pc) (hslot : .fault .stackUnderflow ∈ ts)
    (hdiv : op = .div → .fault .divByZero ∈ ts) (hover : .fault .arithOverflow ∈ ts)
    (hk : ∀ x, EndsAmong ts pc (k { s with alu := x }.toNext)) : EndsAmong ts pc (s.compute op k) := by
  refine .attempt hpc (fun x h => ?_) fun x _ => hk x
  obtain rfl | ⟨hop, rfl⟩ | rfl := State.aluResult_error h
  · exact hslot
  · exact hdiv hop
  · exact hover

end

/-! ### The instructions -/

section
variable {ts : List Terminal} {s : State}

theorem unary_ends (hr : s.Running) (op : AluOp) (hslot : .fault .stackUnderflow ∈ ts)
    (hdiv : op = .div → .fault .divByZero ∈ ts) (hover : .fault .arithOverflow ∈ ts) (f : Addr) (E : MicroAddr) :
    EndsAmong ts s.pc (unary op f E s) :=
  .loadTop rfl hslot fun _ => .compute rfl hslot hdiv hover fun _ => .storeTop rfl hr fun _ => hslot

theorem binary_ends (hr : s.Running) (op : AluOp) (hslot : .fault .stackUnderflow ∈ ts)
    (hdiv : op = .div → .fault .divByZero ∈ ts) (hover : .fault .arithOverflow ∈ ts) (f : Addr) (E : MicroAddr) :
    EndsAmong ts s.pc (binary op f E s) :=
  .loadTop rfl hslot fun _ => .lowerTop rfl hslot <| .compute rfl hslot hdiv hover fun _ =>
    .storeTop rfl hr fun _ => hslot

theorem conditional_ends (hr : s.Running) (hslot : .fault .stackUnderflow ∈ ts) (c : Cond) (a : Addr) (E : MicroAddr) :
    EndsAmong ts s.pc (conditional c a E s) :=
  .loadTop rfl hslot fun _ => .of_running hr

end

section
variable {ts : List Terminal} {s t : State}

theorem whileRunning_ends {f : State → State} (h : whileRunning s f = .next t)
    (hf : s.Running → EndsAmong ts s.pc (f s)) : EndsAmong ts s.pc t :=
  whileRunning_post h (hf (whileRunning_eq_next.1 h).1)

/-- The raised pointer is not that of an empty stack, so the result always finds its slot. -/
theorem execPush_ends {a : Addr} (hs : s.Inv) (h : execPush a s = .next t) :
    EndsAmong (terminals (.push a)) s.pc t := by
  have hlow := hs.sp_low
  refine whileRunning_ends h fun hr => .spNext (s := s.issue a 1) rfl (fun _ => List.mem_cons_self) ?_
  exact .storeTop rfl hr fun (hsp : s.sp + 1 = -1) => by omega

theorem execPop_ends {f : Addr} (h : execPop f s = .next t) : EndsAmong (terminals (.pop f)) s.pc t :=
  whileRunning_ends h fun hr => .spPrev (s := s.issue f 3) rfl List.mem_cons_self (.of_running hr)

theorem execJmp_ends {a : Addr} (h : execJmp a s = .next t) : EndsAmong (terminals (.jmp a)) s.pc t :=
  whileRunning_ends h fun hr => .of_running hr

/-- `CALL.0` has made the entry into which `CALL.1` links. -/
theorem execCall_ends {a : Addr} (hs : s.Inv) (h : execCall a s = .next t) :
    EndsAmong (terminals (.call a)) s.pc t := by
  have hlow := hs.scp_low
  refine whileRunning_ends h fun hr => .attempt (s := s.issue a 13) rfl (fun x hx => ?_) fun p hp => ?_
  · exact (State.scpNext_error.1 hx).2 ▸ List.mem_cons_self
  · obtain ⟨-, rfl⟩ := State.scpNext_ok.1 hp
    refine .attempt rfl (fun x hx => ?_) fun _ _ => .of_running hr
    have hempty : s.scp + 1 = -1 := (State.linked_error.1 hx).1
    omega

/-- `RET.1` drops the entry that `RET.0` has read, so no tick fails once `pc` has changed. -/
theorem execRet_ends {f : Addr} (h : execRet f s = .next t) : EndsAmong (terminals (.ret f)) s.pc t := by
  refine whileRunning_ends h fun hr => .attempt (s := s.issue f 15) rfl (fun x hx => ?_) fun a ha => ?_
  · exact (State.returnAddress_error.1 hx).2 ▸ List.mem_cons_self
  · have hne : s.scp ≠ -1 := (State.returnAddress_ok.1 ha).1
    exact State.attempt_next (State.scpPrev_ok.2 ⟨hne, rfl⟩) rfl ▸ .of_running hr

theorem execInput_ends {p : Addr} (hs : s.Inv) (h : execInput p s = .next t) :
    EndsAmong (terminals (.input p)) s.pc t := by
  have hlow := hs.sp_low
  refine whileRunning_ends h fun hr => .spNext (s := s.issue p 17) rfl (fun _ => List.mem_cons_self) ?_
  refine .attempt rfl (fun x hx => ?_) fun r _ => .storeTop rfl hr fun (hsp : s.sp + 1 = -1) => by omega
  obtain ⟨-, rfl⟩ | ⟨-, -, rfl⟩ := State.portRead_error.1 hx <;> simp [terminals]

theorem execOutput_ends {p : Addr} (h : execOutput p s = .next t) : EndsAmong (terminals (.output p)) s.pc t := by
  refine whileRunning_ends h fun hr => .loadTop (s := s.issue p 19) rfl List.mem_cons_self fun v => ?_
  refine .spPrev rfl List.mem_cons_self <| .attempt rfl (fun x hx => ?_) fun _ _ => .of_running hr
  obtain ⟨-, rfl⟩ := State.portWrite_error.1 hx
  simp [terminals]

theorem execLoad_ends {f : Addr} (h : execLoad f s = .next t) : EndsAmong (terminals (.load f)) s.pc t := by
  refine whileRunning_ends h fun hr => .loadTop (s := s.issue f 49) rfl List.mem_cons_self fun v => ?_
  refine .attempt rfl (fun x hx => ?_) fun _ _ => .storeTop rfl hr fun _ => List.mem_cons_self
  obtain ⟨-, rfl⟩ := State.dataRead_error.1 hx
  simp [terminals]

theorem execStore_ends {f : Addr} (h : execStore f s = .next t) : EndsAmong (terminals (.store f)) s.pc t := by
  refine whileRunning_ends h fun hr => .loadTop (s := s.issue f 52) rfl List.mem_cons_self fun v => ?_
  refine .lowerTop rfl List.mem_cons_self <| .attempt rfl (fun x hx => ?_) fun _ _ => .of_running hr
  obtain hslot | ⟨a, -, -, rfl⟩ := State.dataWrite_error.1 hx
  · exact (State.slot_error.1 hslot).2 ▸ List.mem_cons_self
  · simp [terminals]

/-- `SWAP.4` comes back up to the top that `SWAP.1` left, so it cannot overflow. -/
theorem execSwap_ends {f : Addr} (hs : s.Inv) (h : execSwap f s = .next t) :
    EndsAmong (terminals (.swap f)) s.pc t := by
  have hhigh : s.sp < s.stack.length := hs.sp_high
  have hslot : .fault .stackUnderflow ∈ terminals (.swap f) := List.mem_cons_self
  refine whileRunning_ends h fun hr => .loadTop (s := s.issue f 55) rfl hslot fun b => .spPrev rfl hslot ?_
  refine .loadTop rfl hslot fun a => .setSlot rfl (fun _ => hslot) ?_
  refine .spNext rfl (fun hfull => ?_) (.storeTop rfl hr fun _ => hslot)
  have hfull : s.sp - 1 = (s.stack.set (s.sp - 1).toNat b).length - 1 := hfull
  rw [List.length_set] at hfull
  omega

theorem execHlt_ends {f : Addr} (h : execHlt f s = .next t) : EndsAmong (terminals (.hlt f)) s.pc t :=
  whileRunning_ends h fun _ => .endRun rfl List.mem_cons_self

/-- Every instruction ends a run only with a condition listed for it, at its own address. -/
theorem exec_ends {i : Instr} (hs : s.Inv) (h : exec i s = .next t) : EndsAmong (terminals i) s.pc t := by
  cases i with
  | push a => exact execPush_ends hs h
  | pop f => exact execPop_ends h
  | jmp a => exact execJmp_ends h
  | jz a => exact whileRunning_ends h fun hr => conditional_ends hr List.mem_cons_self .jz a 5
  | jnz a => exact whileRunning_ends h fun hr => conditional_ends hr List.mem_cons_self .jnz a 7
  | js a => exact whileRunning_ends h fun hr => conditional_ends hr List.mem_cons_self .js a 9
  | jns a => exact whileRunning_ends h fun hr => conditional_ends hr List.mem_cons_self .jns a 11
  | call a => exact execCall_ends hs h
  | ret f => exact execRet_ends h
  | input p => exact execInput_ends hs h
  | output p => exact execOutput_ends h
  | inc f => exact whileRunning_ends h fun hr => unary_ends hr .inc (by simp [terminals]) nofun (by simp [terminals]) f 21
  | dec f => exact whileRunning_ends h fun hr => unary_ends hr .dec (by simp [terminals]) nofun (by simp [terminals]) f 25
  | add f => exact whileRunning_ends h fun hr => binary_ends hr .add (by simp [terminals]) nofun (by simp [terminals]) f 29
  | sub f => exact whileRunning_ends h fun hr => binary_ends hr .sub (by simp [terminals]) nofun (by simp [terminals]) f 34
  | mul f => exact whileRunning_ends h fun hr => binary_ends hr .mul (by simp [terminals]) nofun (by simp [terminals]) f 39
  | div f =>
    exact whileRunning_ends h fun hr =>
      binary_ends hr .div (by simp [terminals]) (fun _ => by simp [terminals]) (by simp [terminals]) f 44
  | load f => exact execLoad_ends h
  | store f => exact execStore_ends h
  | swap f => exact execSwap_ends hs h
  | hlt f => exact execHlt_ends h

end

/-- Settles O45, from the end of every instruction. -/
theorem terminalConditionsPerInstruction : Obligations.TerminalConditionsPerInstruction := fun _ _ _ hs h =>
  exec_ends hs h

end Sys2Proof.Machine
end

section
/-! A tick in the order of the source's text (70_reset_and_hazards.md R383, 90_conflicts.md C4): in every word of the control
store each group reads only what no group before it writes, so the order of the writes cannot be seen. -/

namespace Sys2Proof.Machine

/-! ### What a group may find written before it, if its reads are not among that (R160) -/

section
variable {s : State} {sp scp : Int} {tos sr alu : Word} {dmem : Memory} {ports : Ports} {stack : List Word}
  {cstack : List Addr} {pc : Addr}

theorem evalTos_afterSp {t : Option TosSource} (h : t = some .slot → sp = s.sp) :
    evalTos { s with sp := sp } t = evalTos s t := by
  cases t with
  | none => rfl
  | some t =>
    cases t with
    | slot => obtain rfl := h rfl; rfl
    | _ => rfl

theorem evalDmw_afterTos {dmw : Bool} (h : dmw = true → sp = s.sp ∧ tos = s.tos) :
    evalDmw { s with sp := sp, tos := tos, ports := ports } dmw = evalDmw s dmw := by
  cases dmw with
  | false => rfl
  | true => obtain ⟨rfl, rfl⟩ := h rfl; rfl

theorem evalIow_afterDmw {iow : Bool} (h : iow = true → tos = s.tos ∧ ports = s.ports) :
    evalIow { s with sp := sp, tos := tos, ports := ports, dmem := dmem } iow ports = evalIow s iow ports := by
  cases iow with
  | false => rfl
  | true => obtain ⟨rfl, rfl⟩ := h rfl; rfl

theorem evalSrl_afterIow {srl : Bool} (h : srl = true → tos = s.tos) :
    evalSrl { s with sp := sp, tos := tos, ports := ports, dmem := dmem } srl = evalSrl s srl := by
  cases srl with
  | false => rfl
  | true => exact h rfl

theorem evalSlot_afterSrl {g : Option SlotSource} (h : g.isSome → sp = s.sp ∧ tos = s.tos ∧ sr = s.sr) :
    evalSlot { s with sp := sp, tos := tos, ports := ports, dmem := dmem, sr := sr } g = evalSlot s g := by
  cases g with
  | none => rfl
  | some g => obtain ⟨rfl, rfl, rfl⟩ := h rfl; cases g <;> rfl

theorem evalAlu_afterSlot {op : Option AluOp} (h : op.isSome → sp = s.sp ∧ tos = s.tos ∧ stack = s.stack) :
    evalAlu { s with sp := sp, tos := tos, ports := ports, dmem := dmem, sr := sr, stack := stack } op = evalAlu s op := by
  cases op with
  | none => rfl
  | some op => obtain ⟨rfl, rfl, rfl⟩ := h rfl; cases op <;> rfl

theorem evalCsp_afterAlu {m : Option Move} :
    evalCsp { s with sp := sp, tos := tos, ports := ports, dmem := dmem, sr := sr, stack := stack, alu := alu } m =
      evalCsp s m := by
  cases m with
  | none => rfl
  | some m => cases m <;> rfl

theorem evalCsl_afterCsp {csl : Bool} (h : csl = true → scp = s.scp) :
    evalCsl
      { s with sp := sp, tos := tos, ports := ports, dmem := dmem, sr := sr, stack := stack, alu := alu, scp := scp } csl =
      evalCsl s csl := by
  cases csl with
  | false => rfl
  | true => obtain rfl := h rfl; rfl

theorem evalPc_afterCsl {g : Signals} (hcond : g.cond.isSome → tos = s.tos)
    (hrta : g.rta = true → scp = s.scp ∧ cstack = s.cstack) :
    evalPc
      { s with
        sp := sp, tos := tos, ports := ports, dmem := dmem, sr := sr, stack := stack, alu := alu, scp := scp,
        cstack := cstack } g = evalPc s g := by
  have htaken : takenOn g.cond tos = takenOn g.cond s.tos := by
    cases hc : g.cond with
    | none => rfl
    | some c => rw [hcond (by rw [hc]; rfl)]
  unfold evalPc
  simp only [htaken]
  cases hr : g.rta with
  | false => rfl
  | true => obtain ⟨rfl, rfl⟩ := hrta hr; rfl

theorem evalMpc_afterPc {m : MpcSource} (h : m = .opc → pc = s.pc) :
    evalMpc
      { s with
        sp := sp, tos := tos, ports := ports, dmem := dmem, sr := sr, stack := stack, alu := alu, scp := scp,
        cstack := cstack, pc := pc } m = evalMpc s m := by
  cases m with
  | zero => rfl
  | next => rfl
  | opc => obtain rfl := h rfl; rfl

end

/-! ### The words of the control store -/

/-- No group of the word reads what a group before it, in the source's order, writes. -/
abbrev Signals.ReadsBeforeWrites (g : Signals) : Prop :=
  (g.tos = some .slot → g.sp = none) ∧
  (g.dmw = true → g.sp = none ∧ g.tos = none) ∧
  (g.iow = true → g.tos = none) ∧
  (g.srl = true → g.tos = none) ∧
  (g.slot.isSome → g.sp = none ∧ g.tos = none ∧ g.srl = false) ∧
  (g.alu.isSome → g.sp = none ∧ g.tos = none ∧ g.slot = none) ∧
  (g.csl = true → g.csp = none) ∧
  (g.cond.isSome → g.tos = none) ∧
  (g.rta = true → g.csp = none ∧ g.csl = false) ∧
  (g.mpc = .opc → g.pcl = false)

/-- The condition on the word at a control address, if there is one. -/
def readsBeforeWritesAt (m : MicroAddr) : Bool :=
  match signalsAt m with
  | .error _ => true
  | .ok g => decide g.ReadsBeforeWrites

theorem signalsAt_readsBeforeWritesAt : ∀ m : MicroAddr, readsBeforeWritesAt m = true := by decide

theorem readsBeforeWrites_of_signalsAt {m : MicroAddr} {g : Signals} (h : signalsAt m = .ok g) : g.ReadsBeforeWrites := by
  have hm := signalsAt_readsBeforeWritesAt m
  simpa only [readsBeforeWritesAt, h, decide_eq_true_eq] using hm

/-! ### The two readings of a tick -/

/-- Two evaluations that give the same go on alike if what follows them does. -/
theorem bind_congr_ok {α β : Type} {r r' : Except Terminal α} {f f' : α → Except Terminal β} (hr : r = r')
    (hf : ∀ a, r' = .ok a → f a = f' a) : r >>= f = r' >>= f' := by
  subst hr
  cases r with
  | error t => rfl
  | ok a => exact hf a rfl

theorem evalTos_keeps {s : State} {g : Option TosSource} {r : Word × Ports} (h : evalTos s g = .ok r) (hg : g = none) :
    r = (s.tos, s.ports) := by
  subst hg
  exact (Except.ok.inj h).symm

theorem evalSlot_keeps {s : State} {g : Option SlotSource} {st : List Word} (h : evalSlot s g = .ok st) (hg : g = none) :
    st = s.stack := by
  subst hg
  exact (Except.ok.inj h).symm

theorem evalCsl_keeps {s : State} {csl : Bool} {cs : List Addr} (h : evalCsl s csl = .ok cs) (hcsl : csl = false) :
    cs = s.cstack := by
  subst hcsl
  exact (Except.ok.inj h).symm

theorem evalPc_keeps {s : State} {g : Signals} {pc : Addr} (h : evalPc s g = .ok pc) (hg : g.pcl = false) : pc = s.pc := by
  rw [evalPc, hg] at h
  exact (Except.ok.inj h).symm

/-- Inside a micro-sequence the latch keeps `arg`, and each group finds its reads as the tick found them. -/
theorem sequenceSignals_inside {s : State} {g : Signals} (h0 : s.mpc ≠ 0) (hg : g.ReadsBeforeWrites) :
    sequenceSignals s g = commitSignals s g := by
  obtain ⟨htos, hdmw, hiow, hsrl, hslot, halu, hcsl, hcond, hrta, hmpc⟩ := hg
  dsimp only [sequenceSignals, commitSignals]
  refine bind_congr_ok rfl fun arg harg => ?_
  cases (fetchLatch_inside h0).symm.trans harg
  refine bind_congr_ok rfl fun sp hsp => ?_
  have keepSp := (evalSp_ok hsp).2
  refine bind_congr_ok (evalTos_afterSp (s := s) fun h => keepSp (htos h)) fun r hr => ?_
  obtain ⟨tos, ports'⟩ := r
  have keepTos (h : g.tos = none) : tos = s.tos ∧ ports' = s.ports := Prod.ext_iff.1 (evalTos_keeps hr h)
  refine bind_congr_ok (evalDmw_afterTos (s := s) fun h => ?_) fun dmem _ => ?_
  · exact ⟨keepSp (hdmw h).1, (keepTos (hdmw h).2).1⟩
  refine bind_congr_ok (evalIow_afterDmw (s := s) fun h => keepTos (hiow h)) fun ports _ => ?_
  refine bind_congr_ok (evalSlot_afterSrl (s := s) fun h => ?_) fun stack hstack => ?_
  · obtain ⟨h1, h2, h3⟩ := hslot h
    exact ⟨keepSp h1, (keepTos h2).1, by rw [h3]; rfl⟩
  refine bind_congr_ok (evalAlu_afterSlot (s := s) fun h => ?_) fun alu _ => ?_
  · obtain ⟨h1, h2, h3⟩ := halu h
    exact ⟨keepSp h1, (keepTos h2).1, evalSlot_keeps hstack h3⟩
  refine bind_congr_ok (evalCsp_afterAlu (s := s)) fun scp hscp => ?_
  have keepScp := (evalCsp_ok hscp).2
  refine bind_congr_ok (evalCsl_afterCsp (s := s) fun h => keepScp (hcsl h)) fun cstack hcstack => ?_
  refine bind_congr_ok (evalPc_afterCsl (s := s) (fun h => (keepTos (hcond h)).1) fun h => ?_) fun pc hpc => ?_
  · obtain ⟨h1, h2⟩ := hrta h
    exact ⟨keepScp h1, evalCsl_keeps hcstack h2⟩
  refine bind_congr_ok (evalMpc_afterPc (s := s) fun h => evalPc_keeps hpc (hmpc h)) fun mpc _ => ?_
  rw [← evalSrl_afterIow (s := s) (sp := sp) (ports := ports) (dmem := dmem) fun h => (keepTos (hsrl h)).1]

/-- Settles O35: the fetch word asserts no group but the lookup, which does not read the latched `arg`; in every other word
no group reads what one before it writes. -/
theorem sequentialOrderGivesTheSameTick : Obligations.SequentialOrderGivesTheSameTick := by
  intro s _
  have hsame (g : Signals) (hg : signalsAt s.mpc = .ok g) : commitSignals s g = sequenceSignals s g := by
    by_cases h0 : s.mpc = 0
    · rw [h0] at hg
      cases hg
      rfl
    · exact (sequenceSignals_inside h0 (readsBeforeWrites_of_signalsAt hg)).symm
  rw [tickRunning, sequentialTick, currentSignals_eq, bind_congr_ok rfl hsame]

end Sys2Proof.Machine
end

section
/-! The ticks an instruction counts (70_reset_and_hazards.md R381, 60_exceptions.md R329): a micro-sequence is a run of
words with `MPC=NEXT` up to one with `MPC=ZERO`, so the control address counts its ticks. -/

namespace Sys2Proof.Machine

/-! ### The length of a micro-sequence (R151) -/

/-- `n` words from a control address on are a micro-sequence: `MPC=NEXT` in each but the last, which has `MPC=ZERO`. -/
def sequenceAt (m : MicroAddr) : Nat → Bool
  | 0 => false
  | n + 1 =>
    match signalsAt m with
    | .error _ => false
    | .ok g =>
      match g.mpc with
      | .zero => n == 0
      | .next => sequenceAt (m + 1) n
      | .opc => false

theorem sequenceAt_succ {m : MicroAddr} {n : Nat} (h : sequenceAt m (n + 1) = true) :
    ∃ g, signalsAt m = .ok g ∧ ((g.mpc = .zero ∧ n = 0) ∨ (g.mpc = .next ∧ sequenceAt (m + 1) n = true)) := by
  rw [sequenceAt] at h
  split at h
  · cases h
  · rename_i g hg
    refine ⟨g, hg, ?_⟩
    split at h
    · exact .inl ⟨‹_›, by simpa using h⟩
    · exact .inr ⟨‹_›, h⟩
    · cases h

/-! ### The ticks of a micro-sequence against the control address -/

/-- What `t` shows of a micro-sequence of `n` words that began at the control address `m` with the tick counter at `tick`: the
run goes on and has counted all `n` ticks, or it has ended at `m` or after it and has counted the ticks up to there. -/
def CountsFrom (m : MicroAddr) (n : Nat) (tick : BitVec 64) (t : State) : Prop :=
  (t.Running → t.mpc = 0 ∧ t.tick = tick + BitVec.ofNat 64 n) ∧
  (t.Ended → t.status.faultMpc = t.mpc ∧ m ≤ t.mpc ∧ t.tick = tick + BitVec.ofNat 64 (t.mpc.toNat - m.toNat))

theorem CountsFrom.endRun {s : State} {n : Nat} (x : Terminal) : CountsFrom s.mpc n s.tick (s.endRun x) :=
  ⟨fun hr => absurd hr (s.endRun_ended x), fun _ => ⟨rfl, BitVec.le_refl _, by simp⟩⟩

/-- The last tick. -/
theorem CountsFrom.retired {m : MicroAddr} {tick : BitVec 64} {t : State} (hr : t.Running) (h0 : t.mpc = 0)
    (htick : t.tick = tick + 1) : CountsFrom m 1 tick t :=
  ⟨fun _ => ⟨h0, htick⟩, absurd hr⟩

theorem tick_add_succ (x : BitVec 64) (n : Nat) : x + BitVec.ofNat 64 (n + 1) = x + 1 + BitVec.ofNat 64 n := by
  rw [Nat.add_comm, BitVec.ofNat_add, BitVec.add_assoc]
  rfl

/-- One tick more before the others. -/
theorem CountsFrom.succ {m : MicroAddr} {n : Nat} {tick : BitVec 64} {t : State} (hm : m.toNat < 60)
    (h : CountsFrom (m + 1) n (tick + 1) t) : CountsFrom m (n + 1) tick t := by
  obtain ⟨hrun, hend⟩ := h
  refine ⟨fun hr => ?_, fun he => ?_⟩
  · obtain ⟨h0, htick⟩ := hrun hr
    exact ⟨h0, htick.trans (tick_add_succ ..).symm⟩
  · obtain ⟨hmpc, hle, htick⟩ := hend he
    have hnext : (m + 1).toNat = m.toNat + 1 := by bv_omega
    rw [BitVec.le_def, hnext] at hle
    have hcount : t.mpc.toNat - m.toNat = t.mpc.toNat - (m + 1).toNat + 1 := by omega
    exact ⟨hmpc, BitVec.le_def.2 (by omega), by rw [htick, hcount, tick_add_succ]⟩

theorem commitSignals_mpc {s t : State} {g : Signals} (h : commitSignals s g = .ok t) : evalMpc s g.mpc = .ok t.mpc := by
  obtain ⟨_, _, _, _, _, _, _, _, _, _, _, -, -, -, -, -, -, -, -, -, -, hmpc, rfl⟩ := commitSignals_ok h
  exact hmpc

/-- Each tick that does not end the run counts one and goes to the next address, the last one to the fetch. -/
theorem runTicks_countsFrom {m : MicroAddr} {n : Nat} {s : State} (h : sequenceAt m n = true) (hr : s.Running)
    (hm : s.mpc = m) : CountsFrom m n s.tick (runTicks n s) := by
  induction n generalizing m s with
  | zero => cases h
  | succ n ih =>
    subst hm
    obtain ⟨g, hg, hword⟩ := sequenceAt_succ h
    rw [runTicks_succ_running hr]
    obtain ⟨x, -, hx⟩ | ⟨t, hc, ht⟩ := State.attempt_cases (tickRunning_of_signals hg).symm
    · rw [hx, runTicks_ended (s.endRun_ended x)]
      exact .endRun x
    · obtain ⟨hstatus, htick⟩ := commitSignals_status_tick hc
      have hmpc := commitSignals_mpc hc
      have htr : t.Running := (congrArg Status.outcome hstatus).trans hr
      rw [ht, id]
      obtain ⟨hz, rfl⟩ | ⟨hn, hrest⟩ := hword
      · rw [hz] at hmpc
        exact .retired htr (Except.ok.inj hmpc).symm htick
      · have h60 := (inside_of_next hg hn).2
        rw [hn, evalMpc_next h60] at hmpc
        have hnext : t.mpc = s.mpc + 1 := (Except.ok.inj hmpc).symm
        exact .succ h60 (htick ▸ ih hrest htr hnext)

/-! ### Whole instructions -/

/-- What `exec` gives for an instruction with the entry point `E` and `n` words from there on: the `n` ticks after its fetch
tick, which with it are R381's count. -/
structure RunsAt (i : Instr) (s : State) (E : MicroAddr) (n : Nat) : Prop where
  entry : entryPoint i.opcode = some E
  count : tickCount i = n + 1
  words : sequenceAt E n = true
  exec_eq : exec i s = .next (runTicks n (s.issue i.field E))

theorem hlt_or_runsAt {s : State} (hr : s.Running) (i : Instr) : (∃ a, i = .hlt a) ∨ ∃ E n, RunsAt i s E n := by
  cases i with
  | push a => exact .inr ⟨_, _, rfl, rfl, rfl, whileRunning_eq_runTicks hr push_follows⟩
  | pop a => exact .inr ⟨_, _, rfl, rfl, rfl, whileRunning_eq_runTicks hr pop_follows⟩
  | jmp a => exact .inr ⟨_, _, rfl, rfl, rfl, whileRunning_eq_runTicks hr jmp_follows⟩
  | jz a =>
    exact .inr ⟨_, _, rfl, rfl, rfl, whileRunning_eq_runTicks hr
      (conditional_follows signals_jz_0 signals_jz_1)⟩
  | jnz a =>
    exact .inr ⟨_, _, rfl, rfl, rfl, whileRunning_eq_runTicks hr
      (conditional_follows signals_jnz_0 signals_jnz_1)⟩
  | js a =>
    exact .inr ⟨_, _, rfl, rfl, rfl, whileRunning_eq_runTicks hr
      (conditional_follows signals_js_0 signals_js_1)⟩
  | jns a =>
    exact .inr ⟨_, _, rfl, rfl, rfl, whileRunning_eq_runTicks hr
      (conditional_follows signals_jns_0 signals_jns_1)⟩
  | call a => exact .inr ⟨_, _, rfl, rfl, rfl, whileRunning_eq_runTicks hr call_follows⟩
  | ret a => exact .inr ⟨_, _, rfl, rfl, rfl, whileRunning_eq_runTicks hr ret_follows⟩
  | input a => exact .inr ⟨_, _, rfl, rfl, rfl, whileRunning_eq_runTicks hr input_follows⟩
  | output a => exact .inr ⟨_, _, rfl, rfl, rfl, whileRunning_eq_runTicks hr output_follows⟩
  | inc a =>
    exact .inr ⟨_, _, rfl, rfl, rfl, whileRunning_eq_runTicks hr
      (unary_follows signals_inc_0 signals_inc_1 signals_inc_2 signals_inc_3)⟩
  | dec a =>
    exact .inr ⟨_, _, rfl, rfl, rfl, whileRunning_eq_runTicks hr
      (unary_follows signals_dec_0 signals_dec_1 signals_dec_2 signals_dec_3)⟩
  | add a =>
    exact .inr ⟨_, _, rfl, rfl, rfl, whileRunning_eq_runTicks hr
      (binary_follows signals_add_0 signals_add_1 signals_add_2 signals_add_3 signals_add_4)⟩
  | sub a =>
    exact .inr ⟨_, _, rfl, rfl, rfl, whileRunning_eq_runTicks hr
      (binary_follows signals_sub_0 signals_sub_1 signals_sub_2 signals_sub_3 signals_sub_4)⟩
  | mul a =>
    exact .inr ⟨_, _, rfl, rfl, rfl, whileRunning_eq_runTicks hr
      (binary_follows signals_mul_0 signals_mul_1 signals_mul_2 signals_mul_3 signals_mul_4)⟩
  | div a =>
    exact .inr ⟨_, _, rfl, rfl, rfl, whileRunning_eq_runTicks hr
      (binary_follows signals_div_0 signals_div_1 signals_div_2 signals_div_3 signals_div_4)⟩
  | load a => exact .inr ⟨_, _, rfl, rfl, rfl, whileRunning_eq_runTicks hr load_follows⟩
  | store a => exact .inr ⟨_, _, rfl, rfl, rfl, whileRunning_eq_runTicks hr store_follows⟩
  | swap a => exact .inr ⟨_, _, rfl, rfl, rfl, whileRunning_eq_runTicks hr swap_follows⟩
  | hlt a => exact .inl ⟨a, rfl⟩

/-- Settles O43: `HLT` ends in its fetch tick; any other instruction's ticks are counted by the control address. -/
theorem tickCounts : Obligations.TickCounts := by
  intro i s t hr _ h
  obtain ⟨a, rfl⟩ | ⟨E, n, q⟩ := hlt_or_runsAt hr i
  · cases (hlt_lands hr).1.symm.trans h
    exact ⟨fun hr => absurd hr (s.endRun_ended .halted), nofun, fun _ => ⟨s.endRun_ended .halted, rfl⟩⟩
  · cases q.exec_eq.symm.trans h
    obtain ⟨hrun, hend⟩ := runTicks_countsFrom q.words (s := s.issue i.field E) hr rfl
    rw [q.entry, q.count]
    refine ⟨fun hr => ?_, fun he e hEe => ?_, nofun⟩
    · obtain ⟨h0, htick⟩ := hrun hr
      exact ⟨h0, htick.trans (tick_add_succ ..).symm⟩
    · cases hEe
      obtain ⟨hmpc, hle, htick⟩ := hend he
      exact ⟨hmpc, hle, htick.trans (tick_add_succ ..).symm⟩

end Sys2Proof.Machine
end

section
/-! The launch (70_reset_and_hazards.md R361, R363, R367): the words of a file, the grounds of refusal in the model's order,
and the state a launch starts in. -/

namespace Sys2Proof.Machine

/-! ### The words of a file (R81, R361) -/

/-- The little-endian number in bytes `4i` to `4i + 3` of a file. -/
def fileNumber (B : List Byte) (i : Nat) : Nat :=
  (B.getD (4 * i) 0).toNat + (B.getD (4 * i + 1) 0).toNat * 2 ^ 8 + (B.getD (4 * i + 2) 0).toNat * 2 ^ 16 +
    (B.getD (4 * i + 3) 0).toNat * 2 ^ 24

/-- The image in a file of whole words. -/
def fileImage (B : List Byte) : List Word := (List.range (B.length / 4)).map fun i => BitVec.ofNat 32 (fileNumber B i)

@[simp] theorem fileImage_length (B : List Byte) : (fileImage B).length = B.length / 4 := by simp [fileImage]

theorem fileImage_getElem? {B : List Byte} {i : Nat} (h : i < B.length / 4) :
    (fileImage B)[i]? = some (BitVec.ofNat 32 (fileNumber B i)) := by
  simp [fileImage, List.getElem?_range h]

theorem append_byte_toNat {n : Nat} (x : BitVec n) (b : Byte) : (x ++ b).toNat = x.toNat * 2 ^ 8 + b.toNat := by
  rw [BitVec.toNat_append, ← Nat.shiftLeft_add_eq_or_of_lt b.isLt, Nat.shiftLeft_eq]

theorem wordOfBytes_eq (b0 b1 b2 b3 : Byte) :
    wordOfBytes b0 b1 b2 b3 =
      BitVec.ofNat 32 (b0.toNat + b1.toNat * 2 ^ 8 + b2.toNat * 2 ^ 16 + b3.toNat * 2 ^ 24) := by
  refine BitVec.eq_of_toNat_eq ?_
  simp only [wordOfBytes, append_byte_toNat, BitVec.toNat_ofNat]
  omega

theorem fileNumber_succ (b0 b1 b2 b3 : Byte) (B : List Byte) (i : Nat) :
    fileNumber (b0 :: b1 :: b2 :: b3 :: B) (i + 1) = fileNumber B i := by
  simp [fileNumber, Nat.mul_add]

theorem fileImage_cons (b0 b1 b2 b3 : Byte) (B : List Byte) :
    fileImage (b0 :: b1 :: b2 :: b3 :: B) = wordOfBytes b0 b1 b2 b3 :: fileImage B := by
  have hlen : (b0 :: b1 :: b2 :: b3 :: B).length / 4 = B.length / 4 + 1 := Nat.add_div_right _ (z := 4) (by decide)
  rw [fileImage, hlen, List.range_succ_eq_map, List.map_cons, List.map_map, wordOfBytes_eq]
  simp only [Function.comp_def, fileNumber_succ]
  rfl

/-- A file has words exactly if its size is a multiple of 4, and then they are its image. -/
theorem wordsOfFile_eq : ∀ B : List Byte, wordsOfFile B = if B.length % 4 = 0 then some (fileImage B) else none
  | [] | [_] | [_, _] | [_, _, _] => rfl
  | b0 :: b1 :: b2 :: b3 :: B => by
    have hlen : (b0 :: b1 :: b2 :: b3 :: B).length % 4 = B.length % 4 := Nat.add_mod_right B.length 4
    rw [wordsOfFile, wordsOfFile_eq B, fileImage_cons, hlen]
    by_cases h : B.length % 4 = 0
    · rw [if_pos h, if_pos h]
    · rw [if_neg h, if_neg h]

theorem wordsOfFile_whole {B : List Byte} (h : B.length % 4 = 0) : wordsOfFile B = some (fileImage B) := by
  rw [wordsOfFile_eq, if_pos h]

theorem wordsOfFile_partial {B : List Byte} (h : B.length % 4 ≠ 0) : wordsOfFile B = none := by
  rw [wordsOfFile_eq, if_neg h]

/-! ### What a launch answers (R361) -/

section
variable {p : Params} {P Q : List Byte} {c : List Char}

/-- The grounds on which R361 refuses a launch. -/
abbrev LaunchRefused (p : Params) (P Q : List Byte) : Prop :=
  P.length % 4 ≠ 0 ∨ P.length / 4 > 2 ^ 24 - 1 ∨ Q.length % 4 ≠ 0 ∨ p.dmemWords.getD (Q.length / 4) < Q.length / 4

theorem launch_programFileSize (hP : P.length % 4 ≠ 0) : launch p P Q c = .refused .programFileSize := by
  rw [launch, wordsOfFile_partial hP]

theorem launch_programTooLong (hP : P.length % 4 = 0) (hL : P.length / 4 > 2 ^ 24 - 1) :
    launch p P Q c = .refused .programTooLong := by
  simp only [launch, wordsOfFile_whole hP, fileImage_length, if_pos hL]

theorem launch_dataFileSize (hP : P.length % 4 = 0) (hL : P.length / 4 ≤ 2 ^ 24 - 1) (hQ : Q.length % 4 ≠ 0) :
    launch p P Q c = .refused .dataFileSize := by
  simp only [launch, wordsOfFile_whole hP, fileImage_length, if_neg hL.not_gt, wordsOfFile_partial hQ]

theorem launch_dataTooLarge (hP : P.length % 4 = 0) (hL : P.length / 4 ≤ 2 ^ 24 - 1) (hQ : Q.length % 4 = 0)
    (hD : p.dmemWords.getD (Q.length / 4) < Q.length / 4) : launch p P Q c = .refused .dataTooLarge := by
  simp only [launch, wordsOfFile_whole hP, wordsOfFile_whole hQ, fileImage_length, if_neg hL.not_gt, if_pos hD]

/-- The state of a launch that is not refused. -/
abbrev launchedFrom (p : Params) (P Q : List Byte) (c : List Char) : State :=
  .launched p (fileImage P) (Memory.ofWords 0 (fileImage Q)) (p.dmemWords.getD (Q.length / 4)) (c.map codeOf)

theorem launch_starts (h : ¬LaunchRefused p P Q) : launch p P Q c = .next (launchedFrom p P Q c) := by
  simp only [not_or, not_not, not_lt] at h
  obtain ⟨hP, hL, hQ, hD⟩ := h
  simp only [launch, wordsOfFile_whole hP, wordsOfFile_whole hQ, fileImage_length, if_neg hL.not_gt, if_neg hD.not_gt]

theorem launch_refused (h : LaunchRefused p P Q) : ∃ r, launch p P Q c = .refused r := by
  by_cases hP : P.length % 4 = 0
  · by_cases hL : P.length / 4 ≤ 2 ^ 24 - 1
    · by_cases hQ : Q.length % 4 = 0
      · have hD : p.dmemWords.getD (Q.length / 4) < Q.length / 4 := by omega
        exact ⟨_, launch_dataTooLarge hP hL hQ hD⟩
      · exact ⟨_, launch_dataFileSize hP hL hQ⟩
    · exact ⟨_, launch_programTooLong hP (not_le.1 hL)⟩
  · exact ⟨_, launch_programFileSize hP⟩

theorem launch_next {s : State} (h : launch p P Q c = .next s) : ¬LaunchRefused p P Q ∧ s = launchedFrom p P Q c := by
  have hgo : ¬LaunchRefused p P Q := fun href => by
    obtain ⟨r, hr⟩ := launch_refused (c := c) href
    cases hr.symm.trans h
  exact ⟨hgo, by cases (launch_starts hgo).symm.trans h; rfl⟩

end

/-- Settles O58: each test of `launch` fails where its ground is absent. -/
theorem launchRefusalReasons : Obligations.LaunchRefusalReasons := fun _ _ _ _ =>
  ⟨launch_programFileSize, launch_programTooLong, fun hP hL => ⟨launch_dataFileSize hP hL, launch_dataTooLarge hP hL⟩⟩

/-! ### The state a launch starts in (R50, R361, R363) -/

section
variable {p : Params} {prog : List Word} {dmem : Memory} {dmemWords : Nat} {input : List Word}

theorem launched_port_zero : (State.launched p prog dmem dmemWords input).ports[0] = input :=
  Vector.getElem_set_self ..

theorem launched_port_ne {k : Fin 16} (hk : k ≠ 0) : (State.launched p prog dmem dmemWords input).ports[k] = [] :=
  (Vector.getElem_set_ne (by decide) k.isLt fun h => hk (Fin.ext h.symm)).trans (Vector.getElem_replicate k.isLt)

theorem launched_inv (hp : p.wf) (hprog : prog.length ≤ 2 ^ 24 - 1) (hwf : dmem.wf)
    (hinside : ∀ c ∈ dmem, c.1 < dmemWords) : (State.launched p prog dmem dmemWords input).Inv where
  sp_low := le_refl _
  sp_high := neg_one_lt_zero.trans_le (Int.natCast_nonneg _)
  scp_low := le_refl _
  scp_high := neg_one_lt_zero.trans_le (Int.natCast_nonneg _)
  mpc_valid := Nat.zero_le 60
  stackCap_pos := hp.1.trans_eq List.length_replicate.symm
  callCap_pos := hp.2.trans_eq List.length_replicate.symm
  prog_short := hprog
  dmem_wf := hwf
  dmem_inside := hinside
  status_legal := ⟨fun _ => rfl, fun _ => rfl, nofun⟩

end

/-- Data memory holds the image's words, and 0 past them. -/
theorem read_image (ws : List Word) (a : Nat) : (Memory.ofWords 0 ws).read a = ws.getD a 0 := by
  rw [← Memory.read_ofWords ws 0, Nat.zero_add]

/-- Settles O55: the launch tests exactly R361's grounds, and with none of them it loads the images of the two files. -/
theorem launchLoadsTheImages : Obligations.LaunchLoadsTheImages := by
  refine fun p P Q c => ⟨launch_refused, fun hgo => ⟨_, launch_starts hgo, ?_⟩⟩
  refine ⟨fileImage_length P, rfl, fun i => fileImage_getElem?, fun a ha => ?_, fun a ha => ?_, ?_, fun k => launched_port_ne⟩
  · exact (read_image ..).trans (by rw [List.getD_eq_getElem?_getD, fileImage_getElem? ha]; rfl)
  · exact (read_image ..).trans (List.getD_eq_default _ _ (by rwa [fileImage_length]))
  · exact launched_port_zero

/-- Settles O56: a launch that answers a state was not refused, so the state is the one after reset with the two images, both
within their limits. -/
theorem launchedStateIsCleanEntry : Obligations.LaunchedStateIsCleanEntry := by
  intro p P Q c s hp h
  obtain ⟨hgo, rfl⟩ := launch_next h
  simp only [not_or, not_not, not_lt] at hgo
  obtain ⟨hP, hL, hQ, hD⟩ := hgo
  have hprog : (fileImage P).length ≤ 2 ^ 24 - 1 := (fileImage_length P).trans_le hL
  have hinside : ∀ c ∈ Memory.ofWords 0 (fileImage Q), c.1 < p.dmemWords.getD (Q.length / 4) := fun c hc => by
    have := (Memory.mem_ofWords hc).2.1
    rw [fileImage_length] at this
    omega
  refine ⟨⟨_, _, wordsOfFile_whole hP, wordsOfFile_whole hQ, ?_⟩, rfl, rfl, rfl, rfl, rfl, rfl, rfl, rfl,
    launched_inv hp hprog (Memory.ofWords_wf ..) hinside⟩
  exact {
    outcome := rfl
    faultCode := rfl
    pc := rfl
    mpc := rfl
    sp := rfl
    scp := rfl
    tick := rfl
    otherPorts := fun _ => launched_port_ne
    inputPort := launched_port_zero
    dmem := read_image _
    prog := rfl
    progShort := hprog }

end Sys2Proof.Machine
end

section
/-! A word placed for the next fetch, the model's stand-in for the host's load (70_reset_and_hazards.md R361, 40_microcode.md
R170; log entry 6). -/

namespace Sys2Proof.Machine

/-- Below its length `takeD` fills up with zeros. -/
theorem takeD_getElem? {l : List Word} {n a : Nat} (h : a < n) : (l.takeD n 0)[a]? = some (l.getD a 0) := by
  induction n generalizing l a with
  | zero => cases h
  | succ n ih =>
    rw [List.takeD_succ]
    cases a with
    | zero => cases l <;> rfl
    | succ a => rw [List.getElem?_cons_succ, ih (by omega)]; cases l <;> rfl

theorem placeWord_below {prog : List Word} {n a : Nat} (w : Word) (h : a < n) :
    (placeWord prog n w)[a]? = some (prog.getD a 0) := by
  rw [placeWord, List.getElem?_append_left (by rwa [List.takeD_length]), takeD_getElem? h]

theorem placeWord_above {prog : List Word} {n a : Nat} (w : Word) (h : n < a) : (placeWord prog n w)[a]? = prog[a]? := by
  obtain ⟨k, rfl⟩ := Nat.exists_eq_add_of_lt h
  rw [placeWord, List.getElem?_append_right (by rw [List.takeD_length]; omega), List.takeD_length, Nat.add_assoc n k 1,
    Nat.add_sub_cancel_left, List.getElem?_cons_succ, List.getElem?_drop, Nat.add_right_comm, Nat.add_assoc]

/-- Settles O7: the fetch finds the placed word, and below and above it `placeWord` keeps the program. -/
theorem placedWordRuns : Obligations.PlacedWordRuns := by
  intro s w i hi
  have hprog : (s.withFetchWord 32 w.toNat).prog = placeWord s.prog s.pc.toNat w := by
    rw [State.withFetchWord_prog, Nat.mod_eq_of_lt w.isLt, BitVec.ofNat_toNat, BitVec.setWidth_eq]
  have hword : (s.withFetchWord 32 w.toNat).prog[s.pc.toNat]? = some w := hprog ▸ placeWord_get ..
  refine ⟨stepRunsTheDecodedInstruction _ w i rfl rfl hword hi, hword, fun a hlen hne => ?_, fun a hlen hpc => ?_,
    fun a hlen hpc => ?_, rfl⟩
  · rw [hprog]
    rcases lt_or_gt_of_ne hne with hpc | hpc
    · rw [placeWord_below w hpc, List.getD_eq_getElem _ _ hlen, List.getElem?_eq_getElem hlen]
    · exact placeWord_above w hpc
  · rw [hprog, placeWord_below w hpc, List.getD_eq_default _ _ hlen]
  · rw [hprog, placeWord_above w hpc, List.getElem?_eq_none hlen]

end Sys2Proof.Machine
end
